-- ==== Sys2Proof/Word.lean ====
section
/-! DEFINITION. The word types of the block: a 32-bit word (rule R11), the 96-bit command beat (R48) and the
24-bit frame index and frame count (R22, R49). -/

namespace Sys2Proof

/-- A 32-bit word; everything the source types `float` is one (R11, R63). -/
abbrev Word := BitVec 32

/-- One command beat `CMD[95:0]` (R48). -/
abbrev Beat := BitVec 96

/-- A 24-bit unsigned frame index or frame count (R22, R49). -/
abbrev FrameIndex := BitVec 24

end Sys2Proof
end

