-- ==== Sys2Proof/Config.lean ====
section
/-! DEFINITION. The open parameters of the hardware (rule R10): the tangent, the pattern of a produced NaN and
the platform's channel counts. Each is an opaque constant, so no proof can lean on a value of it. -/

namespace Sys2Proof

/-- The operations that can produce a NaN; the first operand of the parameter `NAN_RESULT(op, a, b)` (R74). -/
inductive FloatOp where
  | fadd
  | fsub
  | fmul
  | fdiv
  deriving DecidableEq, Repr

/-- `TAN32`, the tangent of the calculator (R77): a total function of its operand word alone, with no effect on
any state. OPEN; DESIGN CHOICE of form in log entry 3 (safe: nothing else is assumed of it). -/
opaque Config.tan32 : Word → Word

/-- The sign bit of a produced NaN: one half of the parameter `NAN_RESULT(op, a, b)` (R74). OPEN; log entry 4
(safe). -/
opaque Config.nanSign : FloatOp → Word → Word → BitVec 1

/-- The 22 low fraction bits of a produced quiet NaN: the other half of `NAN_RESULT(op, a, b)` (R74). OPEN; log
entry 4 (safe). -/
opaque Config.nanPayload : FloatOp → Word → Word → BitVec 22

/-- How many input channels the platform provides beyond the two the block uses (R44). -/
opaque Config.extraInputChannels : Nat

/-- How many output channels the platform provides beyond the two the block uses (R44). -/
opaque Config.extraOutputChannels : Nat

/-- `NIN`, the number of input channels (R10, R44): OPEN, at least 2. Log entry 5 (safe). -/
def Config.nin : Nat := Config.extraInputChannels + 2

/-- `NOUT`, the platform's `outputChannelCount` (R10, R44): OPEN, at least 2. Log entry 5 (safe). -/
def Config.nout : Nat := Config.extraOutputChannels + 2

end Sys2Proof
end

