-- ==== Sys2Proof/Machine/Float.lean ====
section
/-! DEFINITION. IEEE 754 binary32 as the block uses it (rules R63 to R76): the fields and classes of a word, the
exact value of a finite word, the one rounding, and the five operations, each rounded once (R73). No operation
records a flag or can stop (R75). Exact results are rational numbers. -/

namespace Sys2Proof.Machine

/-! ## Fields and classes (R63, R72) -/

/-- The sign `s = w[31]` (R63). -/
def signBit (w : Word) : Bool := w.getLsbD 31

/-- The biased exponent `e = w[30:23]` (R63). -/
def expField (w : Word) : Nat := (w.extractLsb' 23 8).toNat

/-- The fraction `f = w[22:0]` (R63). -/
def fracField (w : Word) : Nat := (w.extractLsb' 0 23).toNat

/-- NaN: `e = 255` and `f ≠ 0` (R63, R72). -/
def isNaN (w : Word) : Bool := expField w == 255 && fracField w != 0

/-- A quiet NaN has `f[22] = 1` (R63), so `w[30:22]` are all ones (R74). -/
def isQuietNaN (w : Word) : Bool := w.extractLsb' 22 9 == 0x1FF

/-- Infinity: `e = 255` and `f = 0` (R63). -/
def isInf (w : Word) : Bool := expField w == 255 && fracField w == 0

/-- Finite: zero, subnormal or normal (R63, R72). -/
def isFinite (w : Word) : Bool := expField w != 255

/-- Zero of either sign: `w[30:0] = 0` (R63, R72). -/
def isZero (w : Word) : Bool := w.extractLsb' 0 31 == 0

/-- The word with the given sign and the given 31 low bits. -/
def withSign (s : Bool) (magnitude : BitVec 31) : Word := BitVec.ofBool s ++ magnitude

/-- The zero of the given sign (R63). -/
def zeroOf (s : Bool) : Word := withSign s 0

/-- The infinity of the given sign (R63). -/
def infOf (s : Bool) : Word := withSign s 0x7F800000

/-! ## Constants (R76) -/

/-- `ONE`, 1.0 (R76). -/
def ONE : Word := 0x3F800000

/-- `TWO`, 2.0 (R76). -/
def TWO : Word := 0x40000000

/-- `PZERO`, +0 (R76). -/
def PZERO : Word := 0x00000000

/-- `PI32`, the binary32 value nearest to π (R76). -/
def PI32 : Word := 0x40490FDB

/-- `SQRT2_32`, the binary32 value nearest to √2 (R76). -/
def SQRT2_32 : Word := 0x3FB504F3

/-! ## Exact value and rounding (R64, R65) -/

/-- The magnitude of a finite word in units of 2^(−149): `f` where `e = 0`, and `(2^23 + f) × 2^(e − 1)` where
`1 ≤ e` (R64). -/
def unitsOf (w : Word) : Nat :=
  if expField w = 0 then fracField w else (2 ^ 23 + fracField w) * 2 ^ (expField w - 1)

/-- The value of a finite word in units of 2^(−149), with its sign (R64); both zeros give 0. -/
def scaledVal (w : Word) : Int :=
  if signBit w then -(unitsOf w : Int) else (unitsOf w : Int)

/-- `val(w)`, the exact rational value of a finite word (R64). -/
def val (w : Word) : Rat := mkRat (scaledVal w) (2 ^ 149)

/-- The integer nearest to `num / den`; of two equally near the even one (R65 c). -/
def nearestEven (num den : Nat) : Nat :=
  let k := num / den
  let r := num % den
  if 2 * r < den then k
  else if den < 2 * r then k + 1
  else if k % 2 = 0 then k else k + 1

/-- The 31 low bits of the finite word nearest to the positive rational `num / den`, below the overflow bound
(R65 c). With `u` the number in units of 2^(−149), the spacing of the candidates around it is `2^sh` units, where
`sh` is 0 up to the first normal binade (gradual underflow) and grows by one with each binade; adding one to the
31-bit pattern goes to the next larger candidate, across binades too. -/
def roundMagnitude (num den : Nat) : Nat :=
  let u := num * 2 ^ 149
  let sh := Nat.log2 (u / den) - 23
  nearestEven u (den * 2 ^ sh) + sh * 2 ^ 23

/-- The bound `(2 − 2^(−24)) × 2^127`, from which on a result overflows (R65 b). -/
def overflowBound : Nat := (2 ^ 25 - 1) * 2 ^ 103

/-- `RN32(q, zs)`, the rounding of an exact result to a word; `zs` is the sign of a zero result (R65). -/
def rn32 (q : Rat) (zs : Bool) : Word :=
  if q.num = 0 then zeroOf zs
  else
    let s := decide (q.num < 0)
    if overflowBound * q.den ≤ q.num.natAbs then infOf s
    else withSign s (BitVec.ofNat 31 (roundMagnitude q.num.natAbs q.den))

/-! ## Operations (R66 to R71, R74) -/

/-- A produced NaN: quiet, its sign and 22 low fraction bits given by the parameter `NAN_RESULT(op, a, b)`
(R74). -/
def nanResult (op : FloatOp) (a b : Word) : Word :=
  Config.nanSign op a b ++ ((0x1FF : BitVec 9) ++ Config.nanPayload op a b)

/-- `fadd(a, b)`, the cases in the order of R66. -/
def fadd (a b : Word) : Word :=
  if isNaN a || isNaN b then nanResult .fadd a b
  else if isInf a && isInf b then
    if signBit a = signBit b then a else nanResult .fadd a b
  else if isInf a then a
  else if isInf b then b
  else if isZero a && isZero b then
    if signBit a = signBit b then a else PZERO
  else rn32 (val a + val b) false

/-- `fneg(a)`: bit 31 inverted, for every class of word, with no rounding (R70). -/
def fneg (a : Word) : Word := a ^^^ 0x80000000

/-- `fsub(a, b)` (R67). Where neither operand is a NaN it is `fadd(a, fneg(b))` as the rule writes it, so a NaN
it produces there is `NAN_RESULT` of that `fadd`; log entry 4 (DEDUCED, safe). -/
def fsub (a b : Word) : Word :=
  if isNaN a || isNaN b then nanResult .fsub a b else fadd a (fneg b)

/-- The sign of a product or a quotient, `a[31] xor b[31]` (R68, R69). -/
def signXor (a b : Word) : Bool := signBit a ^^ signBit b

/-- `fmul(a, b)`, the cases in the order of R68. -/
def fmul (a b : Word) : Word :=
  if isNaN a || isNaN b then nanResult .fmul a b
  else if (isInf a && isZero b) || (isZero a && isInf b) then nanResult .fmul a b
  else if isInf a || isInf b then infOf (signXor a b)
  else if isZero a || isZero b then zeroOf (signXor a b)
  else rn32 (val a * val b) (signXor a b)

/-- `fdiv(a, b)`, the cases in the order of R69; division by zero raises nothing. -/
def fdiv (a b : Word) : Word :=
  if isNaN a || isNaN b then nanResult .fdiv a b
  else if (isInf a && isInf b) || (isZero a && isZero b) then nanResult .fdiv a b
  else if isInf a then infOf (signXor a b)
  else if isInf b then zeroOf (signXor a b)
  else if isZero b then infOf (signXor a b)
  else if isZero a then zeroOf (signXor a b)
  else rn32 (val a / val b) (signXor a b)

/-- `flt(a, b)`, "a is less than b" (R71): false on a NaN, −∞ below and +∞ above every finite value, the two
zeros equal; finite values are compared in units of 2^(−149). -/
def flt (a b : Word) : Bool :=
  if isNaN a || isNaN b then false
  else if isInf a then signBit a && !(isInf b && signBit b)
  else if isInf b then !signBit b
  else decide (scaledVal a < scaledVal b)

end Sys2Proof.Machine
end

