-- ==== Sys2Proof/Syntax.lean ====
section
/-! DEFINITION. The nine commands of the block (rule R53, spec/opcode_table.json) with the operands R54 gives
each. A lane a command ignores (R57) is no operand of it. -/

namespace Sys2Proof

/-- A command of the block: one constructor for each row of the opcode map (R53, R54). -/
inductive Instr where
  /-- `RST` (R106). -/
  | rst
  /-- `SETUP fc, fs` (R107). -/
  | setup (fc fs : Word)
  /-- `PFRM leftIn, rightIn` (R108). -/
  | pfrm (leftIn rightIn : Word)
  /-- `PBUF n` (R109), `n` the frame count of the field `IMM24`. -/
  | pbuf (n : FrameIndex)
  /-- `STOP` (R110). -/
  | stop
  /-- `STAT` (R111). -/
  | stat
  /-- `MIX left, right` (R102). -/
  | mix (left right : Word)
  /-- `CLP fc, fs` (R91). -/
  | clp (fc fs : Word)
  /-- `CHP fc, fs` (R92). -/
  | chp (fc fs : Word)
  deriving DecidableEq, Repr

end Sys2Proof
end

