-- ==== Sys2Proof/WellFormed.lean ====
section
/-! DEFINITION. Which values of the two fields of a command word make a legal command (rules R53, R55, R56), and
the well-formedness of a command. The check on the fields is written from the prose rules, apart from the decoder,
which follows the match and mask columns of R53. -/

namespace Sys2Proof

/-- The opcode is one of the nine assigned values; the other 247 are reserved (R53, R55). -/
def opcodeAssigned (opc : BitVec 8) : Bool :=
  (0x01 ≤ opc && opc ≤ 0x06) || (0x10 ≤ opc && opc ≤ 0x12)

/-- `IMM24` must be zero in every command but `PBUF`, opcode `0x04` (R56). -/
def immediateAllowed (opc : BitVec 8) (imm : BitVec 24) : Bool :=
  opc == 0x04 || imm == 0

/-- The two fields of a command word encode a legal command (R53, R55, R56). -/
def fieldsWellFormed (opc : BitVec 8) (imm : BitVec 24) : Bool :=
  opcodeAssigned opc && immediateAllowed opc imm

/-- The opcode of each command (R53). -/
def Instr.opcode : Instr → BitVec 8
  | .rst => 0x01
  | .setup _ _ => 0x02
  | .pfrm _ _ => 0x03
  | .pbuf _ => 0x04
  | .stop => 0x05
  | .stat => 0x06
  | .mix _ _ => 0x10
  | .clp _ _ => 0x11
  | .chp _ _ => 0x12

/-- The content of the field `IMM24` of each command (R54, R56). -/
def Instr.immediate : Instr → BitVec 24
  | .rst => 0
  | .setup _ _ => 0
  | .pfrm _ _ => 0
  | .pbuf n => n
  | .stop => 0
  | .stat => 0
  | .mix _ _ => 0
  | .clp _ _ => 0
  | .chp _ _ => 0

/-- A command is well formed when the fields it stands for are (R53, R55, R56). The operand types leave no other
check: a lane holds any of the 2^32 patterns (R50) and a frame count is 24 bits wide (R49). -/
def Instr.wellFormed (i : Instr) : Bool :=
  fieldsWellFormed i.opcode i.immediate

end Sys2Proof
end

