-- ==== Sys2Proof/Decode.lean ====
section
/-! DEFINITION. The decoder, total on every 96-bit beat and rejecting by name (rules R48 to R58), and after it
the encoder. The decoder follows the match and mask columns of R53 and never looks at the operand lanes or at the
state (R58). -/

namespace Sys2Proof

/-! ## Fields of a beat -/

/-- `CW = CMD[95:64]`, the command word (R48). -/
def cmdCW (b : Beat) : Word := b.extractLsb' 64 32

/-- `OPA = CMD[63:32]`, operand lane A (R48). -/
def cmdOPA (b : Beat) : Word := b.extractLsb' 32 32

/-- `OPB = CMD[31:0]`, operand lane B (R48). -/
def cmdOPB (b : Beat) : Word := b.extractLsb' 0 32

/-- `OPC = CW[31:24]` (R49). -/
def cwOPC (cw : Word) : BitVec 8 := cw.extractLsb' 24 8

/-- `IMM24 = CW[23:0]`, used as it stands (R49). -/
def cwIMM24 (cw : Word) : BitVec 24 := cw.extractLsb' 0 24

/-- The beat `CW_OPA_OPB` (R48). -/
def beatOf (cw opa opb : Word) : Beat := cw ++ (opa ++ opb)

/-! ## The decoder -/

/-- The nine rows of the opcode map by name (R53). -/
inductive Opcode where
  | rst
  | setup
  | pfrm
  | pbuf
  | stop
  | stat
  | mix
  | clp
  | chp
  deriving DecidableEq, Repr

/-- A row of the opcode map: it accepts a command word when `CW & mask = match` (R53). -/
structure Row where
  op      : Opcode
  pattern : Word
  mask    : Word
  deriving DecidableEq, Repr

/-- The opcode map (R53), the pattern being its column `match`. -/
def opcodeMap : List Row :=
  [ ⟨.rst,   0x01000000, 0xFFFFFFFF⟩,
    ⟨.setup, 0x02000000, 0xFFFFFFFF⟩,
    ⟨.pfrm,  0x03000000, 0xFFFFFFFF⟩,
    ⟨.pbuf,  0x04000000, 0xFF000000⟩,
    ⟨.stop,  0x05000000, 0xFFFFFFFF⟩,
    ⟨.stat,  0x06000000, 0xFFFFFFFF⟩,
    ⟨.mix,   0x10000000, 0xFFFFFFFF⟩,
    ⟨.clp,   0x11000000, 0xFFFFFFFF⟩,
    ⟨.chp,   0x12000000, 0xFFFFFFFF⟩ ]

/-- The row accepts the command word (R53). -/
def rowAccepts (cw : Word) (r : Row) : Bool := (cw &&& r.mask) == r.pattern

/-- `decode(CW)` of R58: the row that accepts the command word, if there is one. -/
def decodeCW (cw : Word) : Option Opcode := (opcodeMap.find? (rowAccepts cw)).map Row.op

/-- Why a beat encodes no command (R55, R56). Both reasons are answered with `IllegalCommand` (R119). -/
inductive Illegal where
  /-- The opcode is reserved (R55). -/
  | reservedOpcode (opc : BitVec 8)
  /-- `IMM24` is not zero in a command other than `PBUF` (R56). -/
  | immediateNotZero (opc : BitVec 8) (imm : BitVec 24)
  deriving DecidableEq, Repr

/-- The name of the rejection of a command word that no row accepts. -/
def illegalReason (cw : Word) : Illegal :=
  if opcodeMap.any (fun r => cwOPC r.pattern == cwOPC cw) then .immediateNotZero (cwOPC cw) (cwIMM24 cw)
  else .reservedOpcode (cwOPC cw)

/-- The command of a row with its operands taken from the beat (R54); an ignored lane is dropped (R57). -/
def withOperands (b : Beat) : Opcode → Instr
  | .rst => .rst
  | .setup => .setup (cmdOPA b) (cmdOPB b)
  | .pfrm => .pfrm (cmdOPA b) (cmdOPB b)
  | .pbuf => .pbuf (cwIMM24 (cmdCW b))
  | .stop => .stop
  | .stat => .stat
  | .mix => .mix (cmdOPA b) (cmdOPB b)
  | .clp => .clp (cmdOPA b) (cmdOPB b)
  | .chp => .chp (cmdOPA b) (cmdOPB b)

/-- The decoder: total on every beat (R58). -/
def decode (b : Beat) : Except Illegal Instr :=
  match decodeCW (cmdCW b) with
  | some op => .ok (withOperands b op)
  | none => .error (illegalReason (cmdCW b))

/-! ## The encoder -/

/-- Operand lane A of each command; a lane the command does not use is assembled as zero (R54, R60). -/
def encodeOPA : Instr → Word
  | .rst => 0
  | .setup fc _ => fc
  | .pfrm leftIn _ => leftIn
  | .pbuf _ => 0
  | .stop => 0
  | .stat => 0
  | .mix left _ => left
  | .clp fc _ => fc
  | .chp fc _ => fc

/-- Operand lane B of each command (R54, R60). -/
def encodeOPB : Instr → Word
  | .rst => 0
  | .setup _ fs => fs
  | .pfrm _ rightIn => rightIn
  | .pbuf _ => 0
  | .stop => 0
  | .stat => 0
  | .mix _ right => right
  | .clp _ fs => fs
  | .chp _ fs => fs

/-- The command word of each command, as its own rule gives it (R106, R107, R108, R109, R110, R111, R102, R91,
R92). -/
def encodeCW : Instr → Word
  | .rst => 0x01000000
  | .setup _ _ => 0x02000000
  | .pfrm _ _ => 0x03000000
  | .pbuf n => 0x04000000 ||| n.setWidth 32
  | .stop => 0x05000000
  | .stat => 0x06000000
  | .mix _ _ => 0x10000000
  | .clp _ _ => 0x11000000
  | .chp _ _ => 0x12000000

/-- The beat of a command (R48, R60). -/
def encode (i : Instr) : Beat := beatOf (encodeCW i) (encodeOPA i) (encodeOPB i)

/-! ## The host's numbering of an opcode-table row -/

/-- The beat of an instruction whose bits are `w` in the numbering of the opcode table: the command word is the
first word, bits 31..0, operand lane A follows as bits 63..32 and lane B as bits 95..64, and every bit from
`nbits` on is zero. Log entry 15 (DEDUCED, safe). -/
def beatOfTableWord (nbits w : Nat) : Beat :=
  let v := w % 2 ^ nbits
  beatOf (BitVec.ofNat 32 v) (BitVec.ofNat 32 (v / 2 ^ 32)) (BitVec.ofNat 32 (v / 2 ^ 64))

/-- The instruction the decoder reads from an opcode-table word; `none` where it refuses. -/
def decodeTableWord (nbits w : Nat) : Option Instr :=
  match decode (beatOfTableWord nbits w) with
  | .ok i => some i
  | .error _ => none

end Sys2Proof
end

