-- ==== Sys2Proof/Machine/State.lean ====
section
/-! DEFINITION. The state of one engine instance (rules R16 to R30) and of the world around it that a command can
see or leave a trace in: the platform's sample buffers (R31 to R35), the sample accesses and responses recorded as
events (R27, R33, R142), and what the host does next (R142). Plain data throughout. -/

namespace Sys2Proof.Machine

/-! ## The engine's own state -/

/-- The four states of the engine state machine, the values of the register `STATE` (R18, R103). -/
inductive EngineState where
  | uninitialized
  | ready
  | running
  | stopped
  deriving DecidableEq, Repr

/-- The content of a datapath register (R19, R20, R21). `unset` is the spec's own `UNSET`, written by reset, `RST`
and a failed `SETUP` (R20, R28, R106, R107); every other content is a 32-bit word. Log entry 2 (safe). -/
inductive Reg where
  | unset
  | word (w : Word)
  deriving DecidableEq, Repr

/-- The nine registers of one filter instance (R17, R93): five coefficients and four delay-line values. -/
structure Filter where
  a0 : Reg
  a1 : Reg
  a2 : Reg
  b1 : Reg
  b2 : Reg
  x1 : Reg
  x2 : Reg
  y1 : Reg
  y2 : Reg
  deriving DecidableEq, Repr

/-- All nine registers `UNSET` (R20). -/
def Filter.unset : Filter :=
  ⟨.unset, .unset, .unset, .unset, .unset, .unset, .unset, .unset, .unset⟩

/-- The nine registers of a filter in the order of R17. -/
def Filter.regs (f : Filter) : List Reg := [f.a0, f.a1, f.a2, f.b1, f.b2, f.x1, f.x2, f.y1, f.y2]

/-! ## The sample memory and the ports -/

/-- The address of a sample: the pair (frame index, channel index), the channel index an unsigned integer (R32,
R34). -/
structure Addr where
  frame   : FrameIndex
  channel : Nat
  deriving DecidableEq, Repr

/-- The place of an address in the order that the canonical form of a sample space uses; it is no address of the
hardware (R40: no interface addresses a byte). -/
def Addr.key (a : Addr) : Nat := a.channel * 2 ^ 24 + a.frame.toNat

/-- A sample space: the addresses whose sample is not +0, each with its 32-bit word, in rising order of
`Addr.key`. The addressable unit is one whole sample (R34, R39). Log entry 7 (DESIGN CHOICE, unsafe). -/
abbrev Memory := List (Addr × Word)

/-- The canonical form of a sample space: keys strictly rising, and no entry equal to what an unlisted address
reads as. -/
abbrev Memory.wf (m : Memory) : Prop :=
  m.Pairwise (fun p q => p.1.key < q.1.key) ∧ ∀ p ∈ m, p.2 ≠ 0

/-- One sample access, recorded as an event (R33, R37). -/
inductive Access where
  /-- `readSample(i, ch)` answered `v` (R32). -/
  | read (place : Addr) (v : Word)
  /-- `writeSample(i, ch, v)` (R33). -/
  | write (place : Addr) (v : Word)
  deriving DecidableEq, Repr

/-- A response `RSP[191:0]`, its six words (R51). -/
structure Response where
  st : Word
  r0 : Word
  r1 : Word
  r2 : Word
  r3 : Word
  r4 : Word
  deriving DecidableEq, Repr

/-- What the host does between two commands, one at a time (R59, R104, R142). -/
inductive HostEvent where
  /-- The reset input is asserted while no command executes (R128). -/
  | resetPin
  /-- The platform hands over its buffers (R8, R32, R44): how many frames each holds, whether an output sample
  shares the storage of the input sample at its address (R46), and the samples of both; an address not listed
  holds +0. Where storage is shared its one content is the input samples (log entry 9). -/
  | handOver (frames : Nat) (inPlace : Bool) (input output : List (Addr × Word))
  /-- A command beat is presented (R48, R59). -/
  | command (b : Beat)
  deriving DecidableEq, Repr

/-! ## The state -/

/-- The state. The first four fields are the engine's registers (R17); the next four are the platform's buffers
(R31, R44, R46); `accesses` and `responses` record the events a host observes, oldest first (R27, R33, R51, R142);
`run` is what the host does from here on (R142): the block itself has no command queue (R59). -/
structure State where
  /-- `STATE` (R18). -/
  engine    : EngineState
  /-- `LP.A0` to `LP.Y2`, registers 0 to 8 (R17). -/
  lp        : Filter
  /-- `HP.A0` to `HP.Y2`, registers 9 to 17 (R17). -/
  hp        : Filter
  /-- `FRAME_IDX` (R22); outside a `PBUF` its content is not observable. Log entry 1. -/
  frameIdx  : FrameIndex
  /-- How many frames each of the platform's two buffers holds (R44). -/
  frames    : Nat
  /-- `IN`, the input sample space (R31). -/
  input     : Memory
  /-- `OUT`, the output sample space (R31). -/
  output    : Memory
  /-- The platform maps an output sample onto the storage of the input sample at its address (R46). -/
  inPlace   : Bool
  /-- The sample accesses performed (R33, R37). -/
  accesses  : List Access
  /-- The responses delivered (R51). -/
  responses : List Response
  /-- What the host does next, first event first (R142). -/
  run       : List HostEvent
  deriving DecidableEq, Repr

/-- The eighteen datapath registers in the order of their index (R17). -/
def State.datapath (s : State) : List Reg := s.lp.regs ++ s.hp.regs

/-- The machine right after reset (R28, R129): Uninitialized, all eighteen datapath registers `UNSET`.
`FRAME_IDX` is unspecified there and its 0 is log entry 1 (DESIGN CHOICE, unsafe). The platform has handed over
no buffer, nothing has been observed, and the host has not begun (log entries 6, 7 and 10). -/
def State.reset : State where
  engine    := .uninitialized
  lp        := Filter.unset
  hp        := Filter.unset
  frameIdx  := 0
  frames    := 0
  input     := []
  output    := []
  inPlace   := false
  accesses  := []
  responses := []
  run       := []

/-! ## How a step can stop -/

/-- The reasons a step stops. None of them is an error of the block: its errors are status codes in responses
(R116, R122). -/
inductive Fault where
  /-- A datapath register that is `UNSET` was read: raised by `PFRM` and `PBUF`, only in states that no run
  reaches, since `UNSET` stands exactly in Uninitialized (R20, R30). Safe: R20 has a model "treat a read of it as a fault of
  the model, not as zero". -/
  | unsetRead
  /-- `PBUF` read a frame or channel the platform does not provide: the launch condition of R44 is broken (U6 of
  spec/93). Safe: the model stops where the spec gives no meaning. -/
  | noInputSample
  /-- `PBUF` wrote a frame or channel the platform does not provide (R44, U6 of spec/93). Safe, as above. -/
  | noOutputSample
  deriving DecidableEq, Repr

/-- The reasons an instruction is refused. -/
inductive Refusal where
  /-- The instruction has no meaning yet; raised by an arm of `exec` alone. Safe. No arm raises it now. -/
  | notModelled (mnemonic : String)
  deriving DecidableEq, Repr

end Sys2Proof.Machine
end

