-- ==== Sys2Proof/Machine/Flags.lean ====
section
/-! DEFINITION. Status codes and the status word of a response (rules R18, R52, R116). The block has no condition
codes, no carry or overflow flag and no floating-point exception flag (R25, R75): what a command reports is here. -/

namespace Sys2Proof.Machine

/-- The four status codes by name (R116). -/
inductive Status where
  | ok
  | invalidFrequency
  | illegalState
  | illegalCommand
  deriving DecidableEq, Repr

/-- The numeric value of a status, the field `CODE` (R52, R116). -/
def Status.code : Status → BitVec 8
  | .ok => 0x00
  | .invalidFrequency => 0x01
  | .illegalState => 0x02
  | .illegalCommand => 0x03

/-- The numeric encoding of `STATE` (R18). -/
def EngineState.code : EngineState → BitVec 2
  | .uninitialized => 0
  | .ready => 1
  | .running => 2
  | .stopped => 3

/-- The status word `ST`: `ST[31:10]` zero, `ST[9:8]` the state, `ST[7:0]` the code (R52). -/
def statusWord (c : Status) (e : EngineState) : Word := (0 : BitVec 22) ++ (e.code ++ c.code)

/-- The field `CODE = ST[7:0]` of a response (R52). -/
def Response.codeField (r : Response) : BitVec 8 := r.st.extractLsb' 0 8

/-- The field `STATE = ST[9:8]` of a response (R52). -/
def Response.stateField (r : Response) : BitVec 2 := r.st.extractLsb' 8 2

/-- The bits `ST[31:10]` of a response (R52). -/
def Response.reservedField (r : Response) : BitVec 22 := r.st.extractLsb' 10 22

/-- The whole beat `RSP[191:0]`, the status word first (R51). -/
def Response.bits (r : Response) : BitVec 192 :=
  r.st ++ (r.r0 ++ (r.r1 ++ (r.r2 ++ (r.r3 ++ r.r4))))

/-- The five result lanes (R51). -/
structure Lanes where
  r0 : Word
  r1 : Word
  r2 : Word
  r3 : Word
  r4 : Word
  deriving DecidableEq, Repr

/-- Lanes no command has defined are zero (R52). -/
def Lanes.zero : Lanes := ⟨0, 0, 0, 0, 0⟩

/-- The response with a status, the state after the command, and result lanes (R51, R52). -/
def responseOf (c : Status) (e : EngineState) (l : Lanes) : Response :=
  ⟨statusWord c e, l.r0, l.r1, l.r2, l.r3, l.r4⟩

end Sys2Proof.Machine
end

