-- ==== Sys2Proof/Machine/Ops.lean ====
section
/-! DEFINITION. The named operations over the state: one writer for each field, the sample memory, the end of a
command with and without an error, and the effect of reset. -/

namespace Sys2Proof.Machine

/-! ## One writer for each field -/

/-- `STATE <- e` (R12). -/
def State.setEngine (s : State) (e : EngineState) : State := { s with engine := e }

/-- Write the nine registers of the low filter. -/
def State.setLp (s : State) (f : Filter) : State := { s with lp := f }

/-- Write the nine registers of the high filter. -/
def State.setHp (s : State) (f : Filter) : State := { s with hp := f }

/-- `FRAME_IDX <- i` (R12, R22). -/
def State.setFrameIdx (s : State) (i : FrameIndex) : State := { s with frameIdx := i }

/-- Record a sample access, the newest last (R33). -/
def State.logAccess (s : State) (a : Access) : State := { s with accesses := s.accesses ++ [a] }

/-- Deliver a response, the newest last (R51). -/
def State.deliver (s : State) (r : Response) : State := { s with responses := s.responses ++ [r] }

/-- What the host does next. -/
def State.setRun (s : State) (es : List HostEvent) : State := { s with run := es }

/-! ## The sample memory (R31 to R34) -/

/-- The sample at an address; an address not listed holds +0 (log entry 7). -/
def Memory.get : Memory → Addr → Word
  | [], _ => 0
  | (p, w) :: m, a => if p = a then w else Memory.get m a

/-- The sample space without an entry for the address. -/
def Memory.erase (m : Memory) (a : Addr) : Memory := m.filter fun p => decide (p.1 ≠ a)

/-- The sample space with an entry for the address before the first entry of a larger key. -/
def Memory.insert : Memory → Addr → Word → Memory
  | [], a, v => [(a, v)]
  | p :: m, a, v => if a.key < p.1.key then (a, v) :: p :: m else p :: Memory.insert m a v

/-- Replace the sample at an address, all 32 bits (R33, R39), keeping the canonical form. -/
def Memory.set (m : Memory) (a : Addr) (v : Word) : Memory :=
  if v = 0 then m.erase a else (m.erase a).insert a v

/-- The sample space that holds the listed samples; a later entry for an address replaces an earlier one. -/
def Memory.ofList (l : List (Addr × Word)) : Memory := l.foldl (fun m p => m.set p.1 p.2) []

/-- The platform provides the input sample of this address: a frame of its buffer, a channel below `NIN` (R44). -/
def State.providesInput (s : State) (a : Addr) : Bool :=
  decide (a.frame.toNat < s.frames) && decide (a.channel < Config.nin)

/-- The platform accepts an output sample at this address: a frame of its buffer, a channel below `NOUT` (R44). -/
def State.providesOutput (s : State) (a : Addr) : Bool :=
  decide (a.frame.toNat < s.frames) && decide (a.channel < Config.nout)

/-- The output sample `v` is stored at the address: in `OUT`, and in `IN` too where the platform maps the two onto
the same storage (R33, R46). -/
def State.storeSample (s : State) (a : Addr) (v : Word) : State :=
  { s with output := s.output.set a v, input := if s.inPlace then s.input.set a v else s.input }

/-- The platform hands over new buffers (R8, R32, R34). Where an output sample shares the storage of the input sample
at its address (R46), the two spaces have one content. The spec says nothing of it at a hand-over: the model takes
the input samples for it and does not look at the output samples. DESIGN CHOICE, log entry 9 (safe). -/
def State.takeBuffers (s : State) (frames : Nat) (inPlace : Bool) (input output : List (Addr × Word)) : State :=
  { s with
    frames := frames
    inPlace := inPlace
    input := Memory.ofList input
    output := Memory.ofList (if inPlace then input else output) }

/-! ## The end of a command (R12, R51, R52, R122) -/

/-- `respond OK (r0, r1, ...)`: the response carries the state after the command (R12, R52). -/
def respondOk (l : Lanes) (s : State) : State := s.deliver (responseOf .ok s.engine l)

/-- `raise <Status>`, the block's counterpart of taking an exception (R12, R122): the response carries the code,
the state after the command and zero lanes; nothing is saved, no mode changes and control goes nowhere. There is
no return from it: the block accepts the next command normally (R124). -/
def raiseStatus (c : Status) (s : State) : State := s.deliver (responseOf c s.engine Lanes.zero)

/-! ## Reset (R129) -/

/-- All eighteen datapath registers `<- UNSET` (R20). -/
def State.unsetDatapath (s : State) : State := (s.setLp Filter.unset).setHp Filter.unset

/-- The effect of reset on the engine (R129), shared by the reset input (R128), `RST` (R106) and a failed `SETUP`
(R107): `STATE <- 0` and all datapath registers `UNSET`; nothing else exists to be reset. -/
def resetEngine (s : State) : State := (s.setEngine .uninitialized).unsetDatapath

end Sys2Proof.Machine
end

