-- ==== Sys2Proof/Machine/Operands.lean ====
section
/-! DEFINITION. The operand forms. A command's float operands come in its lanes and its frame count in `IMM24`
(R49, R50): the decoder hands both over as they stand. What is left is here: the datapath registers (R19 to R21)
and the samples at (frame, channel) (R32 to R37). -/

namespace Sys2Proof.Machine

/-! ## Datapath registers -/

/-- The five coefficients of a filter as words (R19). -/
structure Coeffs where
  a0 : Word
  a1 : Word
  a2 : Word
  b1 : Word
  b2 : Word
  deriving DecidableEq, Repr

/-- The four delay-line values of a filter as words (R21). -/
structure Delay where
  x1 : Word
  x2 : Word
  y1 : Word
  y2 : Word
  deriving DecidableEq, Repr

/-- The delay line that setup leaves: all `PZERO` (R21, R94). -/
def Delay.zero : Delay := ⟨PZERO, PZERO, PZERO, PZERO⟩

/-- Read a datapath register. `UNSET`, which R28 gives as the reset content, is the absence of a value, and R20 has a
model "treat a read of it as a fault of the model, not as zero"; U9 of spec/93 says the same. R105 has the absence of
`UNSET` as the precondition of the two readers, and R30 shows that it holds wherever they run. -/
def readReg : Reg → Except Fault Word
  | .unset => .error .unsetRead
  | .word w => .ok w

/-- Read the five coefficient registers of a filter. -/
def readCoeffs (f : Filter) : Except Fault Coeffs := do
  let a0 ← readReg f.a0
  let a1 ← readReg f.a1
  let a2 ← readReg f.a2
  let b1 ← readReg f.b1
  let b2 ← readReg f.b2
  return ⟨a0, a1, a2, b1, b2⟩

/-- Read the four delay-line registers of a filter. -/
def readDelay (f : Filter) : Except Fault Delay := do
  let x1 ← readReg f.x1
  let x2 ← readReg f.x2
  let y1 ← readReg f.y1
  let y2 ← readReg f.y2
  return ⟨x1, x2, y1, y2⟩

/-- A filter whose nine registers hold the given words. -/
def Filter.holding (c : Coeffs) (d : Delay) : Filter :=
  ⟨.word c.a0, .word c.a1, .word c.a2, .word c.b1, .word c.b2, .word d.x1, .word d.x2, .word d.y1, .word d.y2⟩

/-! ## Samples -/

/-- `readSample(i, ch)` (R32): the word of `IN` at the address, unchecked and unchanged, recorded as an event. An
address the platform does not provide has no sample (R44; U6 of spec/93). -/
def readSample (a : Addr) (s : State) : Except Fault (Word × State) :=
  if s.providesInput a then .ok (s.input.get a, s.logAccess (.read a (s.input.get a)))
  else .error .noInputSample

/-- `writeSample(i, ch, v)` (R33): the word goes to `OUT` at the address, all 32 bits, recorded as an event. -/
def writeSample (a : Addr) (v : Word) (s : State) : Except Fault State :=
  if s.providesOutput a then .ok ((s.storeSample a v).logAccess (.write a v))
  else .error .noOutputSample

end Sys2Proof.Machine
end

