-- ==== Sys2Proof/Machine/Biquad.lean ====
section
/-! DEFINITION. The biquad filter (rules R93 to R100): `BQ_INIT` and `BQ_PROCESS`, the two operations of a filter
instance. Neither has a command of its own (R53). -/

namespace Sys2Proof.Machine

/-- `BQ_INIT(F, (a0, a1, a2, b1, b2))`: load the coefficients and clear the delay line (R94). -/
def bqInit (c : Coeffs) : Filter := Filter.holding c Delay.zero

/-- The output `y` of `BQ_PROCESS`: five products, then the sums from left to right, each operation rounded and
none fused, all from the register values before the call (R95). -/
def bqOutput (c : Coeffs) (d : Delay) (x : Word) : Word :=
  let p0 := fmul c.a0 x
  let p1 := fmul c.a1 d.x1
  let p2 := fmul c.a2 d.x2
  let p3 := fmul c.b1 d.y1
  let p4 := fmul c.b2 d.y2
  fsub (fsub (fadd (fadd p0 p1) p2) p3) p4

/-- The delay line after one sample (R95, R96): `X1` the sample, `X2` the old `X1`,
`Y1` the output, `Y2` the old `Y1`. -/
def nextDelay (c : Coeffs) (d : Delay) (x : Word) : Delay := ⟨x, d.x1, bqOutput c d x, d.y1⟩

/-- The four delay-line writes in their order: `X2 <- X1; X1 <- x; Y2 <- Y1; Y1 <- y` (R95, R96). -/
def shiftDelay (f : Filter) (x y : Word) : Filter :=
  let f1 := { f with x2 := f.x1 }
  let f2 := { f1 with x1 := .word x }
  let f3 := { f2 with y2 := f2.y1 }
  { f3 with y1 := .word y }

/-- `BQ_PROCESS(F, x)`: the output sample and the registers after it (R95). It cannot fail but for a register that
is `UNSET` (R20). -/
def bqProcess (f : Filter) (x : Word) : Except Fault (Word × Filter) := do
  let c ← readCoeffs f
  let d ← readDelay f
  let y := bqOutput c d x
  return (y, shiftDelay f x y)

end Sys2Proof.Machine
end

