-- ==== Sys2Proof/Machine/Calculator.lean ====
section
/-! DEFINITION. The coefficient calculator (rules R81 to R92): the frequency check, the two coefficient functions
with every line one rounded operation in the order of R85 and R86, and the commands `CLP` and `CHP`. -/

namespace Sys2Proof.Machine

/-- `VALID_FREQ(fc, fs)`, that is `0 < fc < fs/2` in binary32, both comparisons strict (R82). -/
def validFreq (fc fs : Word) : Bool := flt PZERO fc && flt fc (fdiv fs TWO)

/-- `CALC_W(fc, fs)`, the argument of the tangent: the product first, then the quotient (R84). -/
def calcW (fc fs : Word) : Word := fdiv (fmul PI32 fc) fs

/-- `CALC_LP` from its line `c` on, for the tangent `t` (R85). -/
def lowpassOf (t : Word) : Coeffs :=
  let c := fdiv ONE t
  let t1 := fmul SQRT2_32 c
  let t2 := fmul c c
  let d := fadd (fadd ONE t1) t2
  let a0 := fdiv ONE d
  let k := fmul TWO a0
  let g := fsub ONE t2
  { a0 := a0
    a1 := k
    a2 := a0
    b1 := fmul k g
    b2 := fmul a0 (fadd (fsub ONE t1) t2) }

/-- `CALC_HP` from its line `c` on, for the tangent `t` (R86); the sign convention of `b1` is normative (R87). -/
def highpassOf (t : Word) : Coeffs :=
  let c := t
  let t1 := fmul SQRT2_32 c
  let t2 := fmul c c
  let d := fadd (fadd ONE t1) t2
  let a0 := fdiv ONE d
  let k := fmul TWO a0
  let g := fsub t2 ONE
  { a0 := a0
    a1 := fneg k
    a2 := a0
    b1 := fmul k g
    b2 := fmul a0 (fadd (fsub ONE t1) t2) }

/-- `CALC_LP(fc, fs)`, the lowpass coefficients (R85). -/
def calcLp (fc fs : Word) : Coeffs := lowpassOf (Config.tan32 (calcW fc fs))

/-- `CALC_HP(fc, fs)`, the highpass coefficients (R86). -/
def calcHp (fc fs : Word) : Coeffs := highpassOf (Config.tan32 (calcW fc fs))

/-- The five coefficients in the result lanes `R0` to `R4` (R54). -/
def coeffLanes (c : Coeffs) : Lanes := ⟨c.a0, c.a1, c.a2, c.b1, c.b2⟩

/-- `CLP fc, fs` (R91): legal in every state, writes no register. -/
def execClp (fc fs : Word) (s : State) : Host.Outcome State Fault Refusal :=
  if validFreq fc fs then .next (respondOk (coeffLanes (calcLp fc fs)) s)
  else .next (raiseStatus .invalidFrequency s)

/-- `CHP fc, fs` (R92): legal in every state, writes no register. -/
def execChp (fc fs : Word) (s : State) : Host.Outcome State Fault Refusal :=
  if validFreq fc fs then .next (respondOk (coeffLanes (calcHp fc fs)) s)
  else .next (raiseStatus .invalidFrequency s)

end Sys2Proof.Machine
end

