-- ==== Sys2Proof/Machine/Mixer.lean ====
section
/-! DEFINITION. The stereo mixer (rules R101, R102): the function `MIXF` and the command `MIX`. -/

namespace Sys2Proof.Machine

/-- `MIXF(left, right)`: the sum first, then the halving, each rounded (R101). -/
def mixf (left right : Word) : Word := fdiv (fadd left right) TWO

/-- `MIX left, right` (R102): legal in every state, writes no register. -/
def execMix (left right : Word) (s : State) : Host.Outcome State Fault Refusal :=
  .next (respondOk ⟨mixf left right, 0, 0, 0, 0⟩ s)

end Sys2Proof.Machine
end

