-- ==== Sys2Proof/Machine/Engine.lean ====
section
/-! DEFINITION. The engine (rules R103 to R115): the per-frame function `FRAME`, the loop of `PBUF` and the
commands `RST`, `SETUP`, `PFRM`, `PBUF`, `STOP` and `STAT`, each checked in the order of R121: the encoding in the
decoder, then the state, then the operands. -/

namespace Sys2Proof.Machine

/-- `FRAME(leftIn, rightIn)`: the mixdown once, then the low and the high filter once on the same word (R105). -/
def frame (leftIn rightIn : Word) (s : State) : Except Fault (Word × Word × State) := do
  let mono := mixf leftIn rightIn
  let (lowOut, lp) ← bqProcess s.lp mono
  let s := s.setLp lp
  let (highOut, hp) ← bqProcess s.hp mono
  return (lowOut, highOut, s.setHp hp)

/-- One iteration of the loop of `PBUF`, at frame `FRAME_IDX`: two reads, the frame, two writes, the increment
(R37, R109). -/
def pbufFrame (s : State) : Except Fault State := do
  let i := s.frameIdx
  let (leftIn, s) ← readSample ⟨i, 0⟩ s
  let (rightIn, s) ← readSample ⟨i, 1⟩ s
  let (lowOut, highOut, s) ← frame leftIn rightIn s
  let s ← writeSample ⟨i, 0⟩ lowOut s
  let s ← writeSample ⟨i, 1⟩ highOut s
  return s.setFrameIdx (i + 1)

/-- The loop `while FRAME_IDX < n` of `PBUF` (R109), with a bound on its iterations that the loop never meets:
it runs at most `n` times (R112). -/
def pbufLoop : Nat → FrameIndex → State → Except Fault State
  | 0, _, s => .ok s
  | fuel + 1, n, s =>
    if s.frameIdx < n then
      match pbufFrame s with
      | .ok s' => pbufLoop fuel n s'
      | .error f => .error f
    else .ok s

/-- `RST` (R106): the effect of reset, and a response. -/
def execRst (s : State) : Host.Outcome State Fault Refusal :=
  .next (respondOk Lanes.zero (resetEngine s))

/-- `SETUP fc, fs` (R107): refused while Running; a failed check leaves the engine Uninitialized. -/
def execSetup (fc fs : Word) (s : State) : Host.Outcome State Fault Refusal :=
  if s.engine = .running then .next (raiseStatus .illegalState s)
  else if validFreq fc fs then
    let s := s.setLp (bqInit (calcLp fc fs))
    let s := s.setHp (bqInit (calcHp fc fs))
    .next (respondOk Lanes.zero (s.setEngine .ready))
  else .next (raiseStatus .invalidFrequency (resetEngine s))

/-- `PFRM leftIn, rightIn` (R108): legal in Ready and Running. -/
def execPfrm (leftIn rightIn : Word) (s : State) : Host.Outcome State Fault Refusal :=
  if s.engine = .uninitialized ∨ s.engine = .stopped then .next (raiseStatus .illegalState s)
  else
    match frame leftIn rightIn (s.setEngine .running) with
    | .ok (lowOut, highOut, s') => .next (respondOk ⟨lowOut, highOut, 0, 0, 0⟩ s')
    | .error f => .fault f

/-- `PBUF n` (R109): legal in Ready and Running; Running is entered also when `n` is 0. -/
def execPbuf (n : FrameIndex) (s : State) : Host.Outcome State Fault Refusal :=
  if s.engine = .uninitialized ∨ s.engine = .stopped then .next (raiseStatus .illegalState s)
  else
    match pbufLoop n.toNat n ((s.setEngine .running).setFrameIdx 0) with
    | .ok s' => .next (respondOk Lanes.zero s')
    | .error f => .fault f

/-- `STOP` (R110): refused in Uninitialized; changes `STATE` only. -/
def execStop (s : State) : Host.Outcome State Fault Refusal :=
  if s.engine = .uninitialized then .next (raiseStatus .illegalState s)
  else .next (respondOk Lanes.zero (s.setEngine .stopped))

/-- `STAT` (R111): changes nothing; its response carries `STATE`. -/
def execStat (s : State) : Host.Outcome State Fault Refusal :=
  .next (respondOk Lanes.zero s)

end Sys2Proof.Machine
end

