-- ==== Sys2Proof/Machine/Dispatch.lean ====
section
/-! DEFINITION. `exec`: what each command does, one arm per constructor of `Instr` (rule R53). -/

namespace Sys2Proof.Machine

def exec (i : Instr) (s : State) : Host.Outcome State Fault Refusal :=
  match i with
  | .rst => Sys2Proof.Machine.execRst s
  | .setup fc fs => Sys2Proof.Machine.execSetup fc fs s
  | .pfrm leftIn rightIn => Sys2Proof.Machine.execPfrm leftIn rightIn s
  | .pbuf n => Sys2Proof.Machine.execPbuf n s
  | .stop => Sys2Proof.Machine.execStop s
  | .stat => Sys2Proof.Machine.execStat s
  | .mix left right => Sys2Proof.Machine.execMix left right s
  | .clp fc fs => Sys2Proof.Machine.execClp fc fs s
  | .chp fc fs => Sys2Proof.Machine.execChp fc fs s

end Sys2Proof.Machine
end

