-- ==== Sys2Proof/Machine/Port.lean ====
section
/-! DEFINITION. The command port (rules R48, R55, R58, R59, R119, R128): what the block does with each thing the
host does, and how an instruction of the opcode table is put where the next step takes it. -/

namespace Sys2Proof.Machine

/-- A command beat is executed to its end and answered: a legal one has the meaning of its command, an illegal one
is answered with `IllegalCommand` and changes nothing else, whatever the state (R55, R56, R119, R121). -/
def acceptBeat (b : Beat) (s : State) : Host.Outcome State Fault Refusal :=
  match decode b with
  | .ok i => exec i s
  | .error _ => .next (raiseStatus .illegalCommand s)

/-- One thing the host does between commands (R59, R104, R142): the reset input acts without a response (R128), a
handing-over of buffers changes the sample spaces alone, a beat is executed. -/
def acceptEvent (e : HostEvent) (s : State) : Host.Outcome State Fault Refusal :=
  match e with
  | .resetPin => .next (resetEngine s)
  | .handOver frames inPlace input output => .next (s.takeBuffers frames inPlace input output)
  | .command b => acceptBeat b s

/-- The state in which the host presents the beat of an opcode-table word next. -/
def presentTableWord (s : State) (nbits w : Nat) : State :=
  s.setRun (.command (beatOfTableWord nbits w) :: s.run)

end Sys2Proof.Machine
end

