-- ==== Sys2Proof/Machine/Step.lean ====
section
/-! DEFINITION. One step of the machine: the block takes what the host does next, one thing at a time (rules R16,
R59, R104, R142). -/

namespace Sys2Proof.Machine

/-- One step. Where the host does nothing more the block waits and keeps all its state (R16, R127, R142; log entry
11). Otherwise the next event of the run is taken, a command from its first statement to its response (R104). -/
def step (s : State) : Host.Outcome State Fault Refusal :=
  match s.run with
  | [] => .next s
  | e :: rest => acceptEvent e (s.setRun rest)

/-- The state `s` with an instruction of the opcode table where `step` takes its next instruction: the block
fetches nothing (R41, R47), so the host presents the beat on the command port. Log entry 6. -/
def State.withFetchWord (s : State) (nbits w : Nat) : State := presentTableWord s nbits w

end Sys2Proof.Machine
end

