-- ==== Sys2Proof/Machine/Script.lean ====
section
/-! DEFINITION. The script language (rules R60 to R62): the lines of a script, the two pseudo-commands, float
literals, and the assembler from text to command beats. Texts are lists of characters. What R60 and R61 leave open
of the layout of a line is log entry 14 (DESIGN CHOICE). -/

namespace Sys2Proof.Machine

/-! ## Lines and their expansion (R60, R62) -/

/-- A line of a script: a command (R60) or one of the two pseudo-commands (R62). -/
inductive ScriptLine where
  | command (i : Instr)
  /-- `NEW fc, fs`, "constructing a new engine" (R62). -/
  | new (fc fs : Word)
  /-- `RECONF fc, fs`, the "explicit reset" of a Running engine (R62). -/
  | reconf (fc fs : Word)
  deriving DecidableEq, Repr

/-- The commands of a line, issued one after the other, the second whatever the status of the first (R62). -/
def expandLine : ScriptLine → List Instr
  | .command i => [i]
  | .new fc fs => [.rst, .setup fc fs]
  | .reconf fc fs => [.stop, .setup fc fs]

/-- Why a script does not assemble. -/
inductive AsmError where
  /-- The line begins with no mnemonic of R53 and no pseudo-command of R62. -/
  | unknownMnemonic
  /-- The line has not the operands of its mnemonic (R54, R60). -/
  | wrongOperands
  /-- An operand is no float literal of R61. -/
  | badFloat
  /-- The magnitude of a decimal literal rounds beyond the largest finite word (R61). -/
  | floatOverflow
  /-- The operand of `PBUF` is no decimal integer from 0 to 16777215 (R60). -/
  | badFrameCount
  deriving DecidableEq, Repr

/-! ## Numbers -/

/-- The value of a decimal digit: its place in the list of the ten (R60, R61). -/
def decDigit (c : Char) : Option Nat := ['0', '1', '2', '3', '4', '5', '6', '7', '8', '9'].idxOf? c

/-- The value of a hexadecimal letter in either case, ten more than its place among the six (R61; the case is log
entry 14). -/
def hexLetter (c : Char) : Option Nat :=
  (['A', 'B', 'C', 'D', 'E', 'F'].idxOf? c <|> ['a', 'b', 'c', 'd', 'e', 'f'].idxOf? c).map (10 + ·)

/-- The value of one of the eight digits of a bit pattern (R61). -/
def hexDigit (c : Char) : Option Nat := decDigit c <|> hexLetter c

/-- The leading decimal digits of a text and what follows them. -/
def spanDigits : List Char → List Nat × List Char
  | [] => ([], [])
  | c :: cs =>
    match decDigit c with
    | some d => let (ds, rest) := spanDigits cs; (d :: ds, rest)
    | none => ([], c :: cs)

/-- The number whose digits in the given base are listed, the most significant first. -/
def ofDigits (base : Nat) (ds : List Nat) : Nat := ds.foldl (fun n d => n * base + d) 0

/-- An optional sign; true for a minus sign. -/
def takeSign : List Char → Bool × List Char
  | '-' :: cs => (true, cs)
  | '+' :: cs => (false, cs)
  | cs => (false, cs)

/-- An optional fraction: a point and at least one digit. -/
def takeFraction : List Char → Option (List Nat × List Char)
  | '.' :: cs =>
    match spanDigits cs with
    | ([], _) => none
    | r => some r
  | cs => some ([], cs)

/-- An optional exponent of ten: `e`, an optional sign, at least one digit. -/
def takeExponent : List Char → Option (Int × List Char)
  | [] => some (0, [])
  | c :: cs =>
    if c = 'e' ∨ c = 'E' then
      let (neg, cs) := takeSign cs
      match spanDigits cs with
      | ([], _) => none
      | (ds, rest) => some (if neg then -(ofDigits 10 ds : Int) else (ofDigits 10 ds : Int), rest)
    else some (0, c :: cs)

/-- The exact rational value of the digits `ds` times ten to the power `e`. -/
def decimalValue (ds : List Nat) (e : Int) : Rat :=
  match e with
  | .ofNat k => mkRat (ofDigits 10 ds * 10 ^ k : Nat) 1
  | .negSucc k => mkRat (ofDigits 10 ds : Nat) (10 ^ (k + 1))

/-- A decimal literal assembles to the nearest word, ties to even, a zero keeping its sign; beyond the largest
finite word it is an error (R61). -/
def assembleDecimal (cs : List Char) : Except AsmError Word :=
  let (neg, cs) := takeSign cs
  match spanDigits cs with
  | ([], _) => .error .badFloat
  | (ints, cs) =>
    match takeFraction cs with
    | none => .error .badFloat
    | some (fracs, cs) =>
      match takeExponent cs with
      | some (e, []) =>
        let q := decimalValue (ints ++ fracs) (e - fracs.length)
        let w := rn32 (if neg then -q else q) neg
        if isInf w then .error .floatOverflow else .ok w
      | _ => .error .badFloat

/-- The digits of a bit pattern. -/
def hexDigits (cs : List Char) : Option (List Nat) := cs.mapM hexDigit

/-- A float operand: `0x` and exactly eight hexadecimal digits, placed in the lane unchanged, or a decimal literal
(R61). -/
def assembleFloat : List Char → Except AsmError Word
  | '0' :: 'x' :: cs =>
    match hexDigits cs with
    | some ds => if ds.length = 8 then .ok (BitVec.ofNat 32 (ofDigits 16 ds)) else .error .badFloat
    | none => .error .badFloat
  | cs => assembleDecimal cs

/-- The operand of `PBUF`: a decimal unsigned integer, 0 to 16777215 (R60). -/
def assembleFrameCount (cs : List Char) : Except AsmError FrameIndex :=
  match spanDigits cs with
  | ([], _) => .error .badFrameCount
  | (ds, []) => if ofDigits 10 ds < 2 ^ 24 then .ok (BitVec.ofNat 24 (ofDigits 10 ds)) else .error .badFrameCount
  | _ => .error .badFrameCount

/-! ## Lines -/

/-- A blank between the parts of a line. -/
def isBlank (c : Char) : Bool := c == ' ' || c == '\t'

/-- The text without blanks at its two ends. -/
def trimBlanks (cs : List Char) : List Char := ((cs.dropWhile isBlank).reverse.dropWhile isBlank).reverse

/-- The line without its comment, which runs from `#` to the end (R60). -/
def dropComment (cs : List Char) : List Char := cs.takeWhile (· != '#')

/-- The text cut at every occurrence of a character. -/
def cutAt (sep : Char) : List Char → List (List Char)
  | [] => [[]]
  | c :: cs =>
    if c = sep then [] :: cutAt sep cs
    else
      match cutAt sep cs with
      | part :: parts => (c :: part) :: parts
      | [] => [[c]]

/-- The operands of a line: its text after the mnemonic, cut at the commas (R60). -/
def operandTexts (cs : List Char) : List (List Char) :=
  match trimBlanks cs with
  | [] => []
  | cs => (cutAt ',' cs).map trimBlanks

/-- Two float operands. -/
def twoFloats (f : Word → Word → ScriptLine) : List (List Char) → Except AsmError ScriptLine
  | [a, b] => do return f (← assembleFloat a) (← assembleFloat b)
  | _ => .error .wrongOperands

/-- No operand. -/
def noOperand (l : ScriptLine) : List (List Char) → Except AsmError ScriptLine
  | [] => .ok l
  | _ => .error .wrongOperands

/-- The line of a mnemonic in upper case with its operands in the order of R54 (R60, R62). -/
def lineOf (mnemonic : List Char) (ops : List (List Char)) : Except AsmError ScriptLine :=
  if mnemonic = ['R', 'S', 'T'] then noOperand (.command .rst) ops
  else if mnemonic = ['S', 'E', 'T', 'U', 'P'] then twoFloats (fun a b => .command (.setup a b)) ops
  else if mnemonic = ['P', 'F', 'R', 'M'] then twoFloats (fun a b => .command (.pfrm a b)) ops
  else if mnemonic = ['P', 'B', 'U', 'F'] then
    match ops with
    | [n] => do return .command (.pbuf (← assembleFrameCount n))
    | _ => .error .wrongOperands
  else if mnemonic = ['S', 'T', 'O', 'P'] then noOperand (.command .stop) ops
  else if mnemonic = ['S', 'T', 'A', 'T'] then noOperand (.command .stat) ops
  else if mnemonic = ['M', 'I', 'X'] then twoFloats (fun a b => .command (.mix a b)) ops
  else if mnemonic = ['C', 'L', 'P'] then twoFloats (fun a b => .command (.clp a b)) ops
  else if mnemonic = ['C', 'H', 'P'] then twoFloats (fun a b => .command (.chp a b)) ops
  else if mnemonic = ['N', 'E', 'W'] then twoFloats .new ops
  else if mnemonic = ['R', 'E', 'C', 'O', 'N', 'F'] then twoFloats .reconf ops
  else .error .unknownMnemonic

/-- A line of text; nothing where it holds only blanks and a comment (R60). -/
def parseLine (cs : List Char) : Except AsmError (List ScriptLine) :=
  match trimBlanks (dropComment cs) with
  | [] => .ok []
  | cs => do return [← lineOf (cs.takeWhile (fun c => !isBlank c)) (operandTexts (cs.dropWhile (fun c => !isBlank c)))]

/-- The beats of a list of script lines: each line expanded, each command encoded (R60, R62). -/
def assembleLines (ls : List ScriptLine) : List Beat := (ls.flatMap expandLine).map encode

/-- The assembler: the lines of a script from top to bottom, one command each (R60). -/
def assemble (script : List Char) : Except AsmError (List Beat) := do
  let parsed ← (cutAt '\n' script).mapM parseLine
  return assembleLines parsed.flatten

/-- The run of a host that issues the given beats one after another (R59, R60). -/
def issueBeats (bs : List Beat) : List HostEvent := bs.map .command

end Sys2Proof.Machine
end

