-- ==== Sys2Proof/Machine/Tangent.lean ====
section
/-! DEFINITION. The reference instance `TAN32ref` of the tangent (rule R78), as a relation between an operand word
and a result word, for the claims that name it (R77). No step evaluates it: the calculator calls the parameter
`TAN32`. -/

namespace Sys2Proof.Machine

/-- `w` is `RN32(x, zs)` for an exact real number `x`, in the words of R65: (a) zero, (b) overflow, (c) the nearest
finite word of the sign of `x`, of two equally near values the one with an even fraction. On rational numbers it is
what `rn32` computes. -/
def IsRN32 (x : ℝ) (zs : Bool) (w : Word) : Prop :=
  (x = 0 → w = zeroOf zs) ∧
  ((2 - 2 ^ (-24 : ℤ)) * 2 ^ 127 ≤ |x| → isInf w = true ∧ (signBit w = true ↔ x < 0)) ∧
  (x ≠ 0 → |x| < (2 - 2 ^ (-24 : ℤ)) * 2 ^ 127 →
    isFinite w = true ∧ (signBit w = true ↔ x < 0) ∧
    (∀ v : Word, isFinite v = true → |x - val w| ≤ |x - val v|) ∧
    (∀ v : Word, isFinite v = true → val v ≠ val w → |x - val v| = |x - val w| → fracField w % 2 = 0))

/-- `r` is `TAN32ref(t)` (R78): a NaN, quiet as every NaN a rule produces (R74, D10), for a NaN or an infinity, the
operand for a zero, and the correctly rounded tangent of the exact value of every other word. Which quiet NaN it is
the rules leave open, so this is a relation and no function. -/
def IsTan32ref (t r : Word) : Prop :=
  (isFinite t = false → isQuietNaN r = true) ∧
  (isZero t = true → r = t) ∧
  (isFinite t = true → isZero t = false → IsRN32 (Real.tan (val t : ℝ)) false r)

/-- "Is the reference instance", which a claim about the parameter `TAN32` may assume by name (R77, R78). The model
never assumes it (log entry 3). -/
def TangentIsReference : Prop := ∀ t : Word, IsTan32ref t (Config.tan32 t)

end Sys2Proof.Machine
end

