-- ==== Sys2Proof/Safety.lean ====
section
/-! DEFINITION. The terms in which claims are stated: the invariants of R30, the transition table of R103, what a
filter does to a list of samples, the launch condition of a `PBUF`, and runs of several commands. -/

namespace Sys2Proof.Machine

/-! ## A filter on a list of samples (R95, R96) -/

/-- The delay line after a list of samples, the first sample first. -/
def delayAfter (c : Coeffs) : Delay → List Word → Delay
  | d, [] => d
  | d, x :: xs => delayAfter c (nextDelay c d x) xs

/-- The outputs for a list of samples, the first sample first. -/
def filterOutputs (c : Coeffs) : Delay → List Word → List Word
  | _, [] => []
  | d, x :: xs => bqOutput c d x :: filterOutputs c (nextDelay c d x) xs

/-! ## The invariants of R30 -/

/-- The nine registers of both filters are those that a successful `SETUP fc, fs` and then the frames listed leave
(R30 b, c). -/
def State.ReachedBy (s : State) (fc fs : Word) (frames : List (Word × Word)) : Prop :=
  validFreq fc fs = true ∧
  s.lp = Filter.holding (calcLp fc fs)
    (delayAfter (calcLp fc fs) Delay.zero (frames.map fun p => mixf p.1 p.2)) ∧
  s.hp = Filter.holding (calcHp fc fs)
    (delayAfter (calcHp fc fs) Delay.zero (frames.map fun p => mixf p.1 p.2))

/-- R30: in Uninitialized all eighteen datapath registers are `UNSET`; in Ready they are what a successful `SETUP`
leaves; in Running and Stopped what it and the frames since leave. So no register is `UNSET` but in
Uninitialized. -/
def State.Coherent (s : State) : Prop :=
  match s.engine with
  | .uninitialized => s.lp = Filter.unset ∧ s.hp = Filter.unset
  | .ready => ∃ fc fs, s.ReachedBy fc fs []
  | .running => ∃ fc fs frames, s.ReachedBy fc fs frames
  | .stopped => ∃ fc fs frames, s.ReachedBy fc fs frames

/-- Both sample spaces have the canonical form. -/
def State.MemoryWf (s : State) : Prop := Memory.wf s.input ∧ Memory.wf s.output

/-- Where the platform maps output samples onto the storage of the input samples, the two spaces have one content
(R46; log entry 9). -/
def State.SharedStorage (s : State) : Prop := s.inPlace = true → s.input = s.output

/-- What R52 says of every response: `ST[31:10]` zero, the code one of the four, and all five lanes zero where the
code is not `OK`. -/
def Response.WellFormed (r : Response) : Prop :=
  r.reservedField = 0 ∧
  (∃ c : Status, r.codeField = c.code) ∧
  (r.codeField ≠ Status.ok.code → r.r0 = 0 ∧ r.r1 = 0 ∧ r.r2 = 0 ∧ r.r3 = 0 ∧ r.r4 = 0)

/-- The invariant of the machine: R30, the canonical form of the sample spaces, the one content of shared storage
(R46), and R52 of every response delivered. -/
def State.Inv (s : State) : Prop :=
  s.Coherent ∧ s.MemoryWf ∧ s.SharedStorage ∧ ∀ r ∈ s.responses, r.WellFormed

/-! ## The transition table (R103) -/

/-- A cell of the table of R103: the next state and the status of a command. -/
def transition : Instr → EngineState → EngineState × Status
  | .rst, _ => (.uninitialized, .ok)
  | .setup _ _, .running => (.running, .illegalState)
  | .setup fc fs, _ => if validFreq fc fs then (.ready, .ok) else (.uninitialized, .invalidFrequency)
  | .pfrm _ _, .ready => (.running, .ok)
  | .pfrm _ _, .running => (.running, .ok)
  | .pfrm _ _, e => (e, .illegalState)
  | .pbuf _, .ready => (.running, .ok)
  | .pbuf _, .running => (.running, .ok)
  | .pbuf _, e => (e, .illegalState)
  | .stop, .uninitialized => (.uninitialized, .illegalState)
  | .stop, _ => (.stopped, .ok)
  | .stat, e => (e, .ok)
  | .mix _ _, e => (e, .ok)
  | .clp fc fs, e => (e, if validFreq fc fs then .ok else .invalidFrequency)
  | .chp fc fs, e => (e, if validFreq fc fs then .ok else .invalidFrequency)

/-! ## Buffers -/

/-- The launch condition of a command (R44, U6 of spec/93): the platform's buffers hold the frames a `PBUF`
processes. -/
def State.Launchable (s : State) : Instr → Prop
  | .pbuf n => n.toNat ≤ s.frames
  | _ => True

/-- The input frame of an index, (left, right) (R35). -/
def State.inputFrame (s : State) (i : Nat) : Word × Word :=
  (s.input.get ⟨BitVec.ofNat 24 i, 0⟩, s.input.get ⟨BitVec.ofNat 24 i, 1⟩)

/-- The first `n` input frames of the buffer in their order. -/
def State.inputFrames (s : State) (n : Nat) : List (Word × Word) := (List.range n).map s.inputFrame

/-- The first `n` mixed samples of the buffer in their order (R101, R105). -/
def State.monos (s : State) (n : Nat) : List Word := (s.inputFrames n).map fun p => mixf p.1 p.2

/-- The four accesses of one frame in the order of R37. -/
def frameAccesses (i : FrameIndex) (leftIn rightIn lowOut highOut : Word) : List Access :=
  [.read ⟨i, 0⟩ leftIn, .read ⟨i, 1⟩ rightIn, .write ⟨i, 0⟩ lowOut, .write ⟨i, 1⟩ highOut]

/-! ## Several commands -/

/-- Commands one after another, up to the first that stops (R59, R113). -/
def execAll : List Instr → State → Host.Outcome State Fault Refusal
  | [], s => .next s
  | i :: is, s =>
    match exec i s with
    | .next s' => execAll is s'
    | .fault f => .fault f
    | .refused r => .refused r

end Sys2Proof.Machine
end

