-- ==== Sys2Proof/Certificates/Slice0/Obligations.lean ====
section
/-! DEFINITION. The statements for the provers, in the order of the spec's files: encoding, the step, the commands,
the whole machine, the sample memory, the filter, the arithmetic, the calculator, the script language. -/

open Sys2Proof Sys2Proof.Machine

/-! ## Encoding (30_encoding.md) -/

/-- R48, R49, R53, R54: every command is well formed, and decoding its beat gives the command back with every
operand at every value the encoding admits. -/
def Obligations.DecodeOfEncodeIsTheCommand : Prop :=
  ∀ i : Instr, i.wellFormed = true ∧ decode (encode i) = .ok i

/-- R53, R55, R56, R58: the decoder, which follows match and mask, accepts exactly the beats whose two fields the
prose rules allow, whatever the lanes; and the rows are mutually exclusive, so at most one accepts. -/
def Obligations.DecoderAcceptsExactlyTheLegalFields : Prop :=
  (∀ b : Beat, (∃ i, decode b = .ok i) ↔ fieldsWellFormed (cwOPC (cmdCW b)) (cwIMM24 (cmdCW b)) = true) ∧
  (∀ (cw : Word) (r r' : Row), r ∈ opcodeMap → r' ∈ opcodeMap →
    rowAccepts cw r = true → rowAccepts cw r' = true → r = r')

/-- R53, R60, R91, R92, R102, R106 to R111: words written out in the spec decode to the command they stand for. -/
def Obligations.WrittenOutBeatsDecode : Prop :=
  decode 0x01000000FFFFFFFFFFFFFFFF = .ok .rst ∧
  decode 0x02000000447A0000472C4400 = .ok (.setup 0x447A0000 0x472C4400) ∧
  decode 0x030000003F0000003E800000 = .ok (.pfrm 0x3F000000 0x3E800000) ∧
  decode 0x04FFFFFF0000000000000000 = .ok (.pbuf 16777215) ∧
  decode 0x050000000000000000000000 = .ok .stop ∧
  decode 0x06000000DEADBEEF12345678 = .ok .stat ∧
  decode 0x100000003F80000040000000 = .ok (.mix 0x3F800000 0x40000000) ∧
  decode 0x11000000447A0000472C4400 = .ok (.clp 0x447A0000 0x472C4400) ∧
  decode 0x12000000459C400045FA0000 = .ok (.chp 0x459C4000 0x45FA0000)

/-- R55: a beat with a reserved opcode is answered with `IllegalCommand`, all lanes zero, the unchanged state in
`ST.STATE`; nothing else changes; the all-zero beat is such a beat. -/
def Obligations.ReservedOpcodesAreAnsweredIllegalCommand : Prop :=
  (∀ (s : State) (b : Beat) (rest : List HostEvent), s.run = .command b :: rest →
    cwOPC (cmdCW b) ∉ [0x01, 0x02, 0x03, 0x04, 0x05, 0x06, 0x10, 0x11, 0x12] →
    step s = .next { s with
      run := rest
      responses := s.responses ++ [⟨statusWord .illegalCommand s.engine, 0, 0, 0, 0, 0⟩] }) ∧
  cwOPC (cmdCW 0) ∉ [0x01, 0x02, 0x03, 0x04, 0x05, 0x06, 0x10, 0x11, 0x12]

/-- R56: a beat of a command other than `PBUF` whose `IMM24` is not zero is answered exactly as a reserved opcode. -/
def Obligations.NonzeroImmediateIsAnsweredIllegalCommand : Prop :=
  ∀ (s : State) (b : Beat) (rest : List HostEvent), s.run = .command b :: rest →
    cwOPC (cmdCW b) ∈ [0x01, 0x02, 0x03, 0x05, 0x06, 0x10, 0x11, 0x12] → cwIMM24 (cmdCW b) ≠ 0 →
    step s = .next { s with
      run := rest
      responses := s.responses ++ [⟨statusWord .illegalCommand s.engine, 0, 0, 0, 0, 0⟩] }

/-- R57: for `RST`, `PBUF`, `STOP` and `STAT` the contents of the lanes have no effect on anything. -/
def Obligations.UnusedLanesHaveNoEffect : Prop :=
  ∀ (s : State) (cw opa opb opa' opb' : Word) (rest : List HostEvent),
    cwOPC cw ∈ [0x01, 0x04, 0x05, 0x06] →
    step { s with run := .command (beatOf cw opa opb) :: rest } =
      step { s with run := .command (beatOf cw opa' opb') :: rest }

/-- R18, R51, R52, R116: a command that ends delivers exactly one response; its bits `ST[31:10]` are zero, its code
is one of the four, `ST[9:8]` is the state after the command, and its lanes are all zero where the code is not
`OK`. -/
def Obligations.EveryCommandDeliversOneWellFormedResponse : Prop :=
  ∀ (i : Instr) (s t : State), exec i s = .next t →
    ∃ r : Response, t.responses = s.responses ++ [r] ∧ r.WellFormed ∧ r.stateField = t.engine.code

/-! ## The step (R16, R59, R104, R128, R129, R142) -/

/-- R59, R104: where the beat presented next decodes to a well-formed command, the step is `exec` of that command on
the state with the beat taken off the run. -/
def Obligations.StepRunsTheDecodedCommand : Prop :=
  ∀ (s : State) (b : Beat) (rest : List HostEvent) (i : Instr),
    s.run = .command b :: rest → decode b = .ok i → i.wellFormed = true →
    step s = exec i { s with run := rest }

/-- R129: reset sets `STATE` to 0 and all eighteen datapath registers to `UNSET` and nothing else, the reset input
without a response and `RST` with one; after it the block waits for a command. That `FRAME_IDX`, unspecified
after reset (R28), keeps its value is the model's choice (log entry 1). -/
def Obligations.ResetUnsetsTheEngineAndNothingElse : Prop :=
  (∀ (s : State) (rest : List HostEvent), s.run = .resetPin :: rest →
    step s = .next { s with engine := .uninitialized, lp := Filter.unset, hp := Filter.unset, run := rest }) ∧
  (∀ s : State, exec .rst s = .next { s with
    engine := .uninitialized, lp := Filter.unset, hp := Filter.unset
    responses := s.responses ++ [responseOf .ok .uninitialized Lanes.zero] }) ∧
  (∀ s : State, s.run = [] → step s = .next s)

/-- R28, R129: what reset leaves: `STATE` is 0 and all eighteen datapath registers are `UNSET`. -/
def Obligations.ResetStateIsUninitializedAndUnset : Prop :=
  State.reset.engine.code = 0 ∧ State.reset.datapath = List.replicate 18 Reg.unset

/-- R31, R35, R44: the handing-over of buffers changes the platform's buffers alone, and an input or output sample
is then the last one the platform listed for its address, +0 where it listed none; where the two share their storage
(R46) both are the input's. Handing buffers over as an event is the model's choice (log entry 7), and so is what
shared storage then holds (log entry 9). -/
def Obligations.HandOverPlacesTheSamplesOfBothBuffers : Prop :=
  ∀ (s : State) (n : Nat) (p : Bool) (inp out : List (Addr × Word)) (rest : List HostEvent),
    s.run = .handOver n p inp out :: rest →
    ∃ t, step s = .next t ∧
      t = { s with run := rest, frames := n, inPlace := p, input := t.input, output := t.output } ∧
      (∀ a, t.input.get a = (((inp.reverse.find? fun e => e.1 = a).map Prod.snd).getD 0)) ∧
      (∀ a, t.output.get a = ((((if p then inp else out).reverse.find? fun e => e.1 = a).map Prod.snd).getD 0))

/-! ## The commands (R91, R92, R102, R106 to R111) -/

/-- R107: a `SETUP` that passes the check, in any state but Running, loads both filters with the coefficients the
calculator computes, clears both delay lines to +0, enters Ready, and changes nothing else but its response. -/
def Obligations.SetupLoadsCoefficientsAndClearsDelayLines : Prop :=
  ∀ (fc fs : Word) (s : State), s.engine ≠ .running → validFreq fc fs = true →
    exec (.setup fc fs) s = .next { s with
      engine := .ready
      lp := Filter.holding (calcLp fc fs) ⟨0, 0, 0, 0⟩
      hp := Filter.holding (calcHp fc fs) ⟨0, 0, 0, 0⟩
      responses := s.responses ++ [responseOf .ok .ready Lanes.zero] }

/-- R107, R117, R123: a `SETUP` whose check fails, in any state but Running, is answered `InvalidFrequency` and
leaves the engine Uninitialized with all eighteen registers `UNSET`. -/
def Obligations.SetupWithInvalidFrequencyUnsetsTheEngine : Prop :=
  ∀ (fc fs : Word) (s : State), s.engine ≠ .running → validFreq fc fs = false →
    exec (.setup fc fs) s = .next { s with
      engine := .uninitialized, lp := Filter.unset, hp := Filter.unset
      responses := s.responses ++ [⟨0x00000001, 0, 0, 0, 0, 0⟩] }

/-- R118: `SETUP` in Running, `PFRM` and `PBUF` in Uninitialized and Stopped, and `STOP` in Uninitialized are
answered `IllegalState` and change nothing; in every other state none of the four is answered so. -/
def Obligations.IllegalStateExactlyWhereTheStateRefuses : Prop :=
  (∀ (i : Instr) (s : State),
    ((∃ fc fs, i = .setup fc fs) ∧ s.engine = .running) ∨
      (((∃ l r, i = .pfrm l r) ∨ ∃ n, i = .pbuf n) ∧ (s.engine = .uninitialized ∨ s.engine = .stopped)) ∨
      (i = .stop ∧ s.engine = .uninitialized) →
    exec i s = .next { s with
      responses := s.responses ++ [⟨statusWord .illegalState s.engine, 0, 0, 0, 0, 0⟩] }) ∧
  (∀ (i : Instr) (s t : State) (r : Response),
    exec i s = .next t → t.responses = s.responses ++ [r] → r.codeField = Status.illegalState.code →
    ((∃ fc fs, i = .setup fc fs) ∧ s.engine = .running) ∨
      (((∃ l r, i = .pfrm l r) ∨ ∃ n, i = .pbuf n) ∧ (s.engine = .uninitialized ∨ s.engine = .stopped)) ∨
      (i = .stop ∧ s.engine = .uninitialized))

/-- R105, R108: in Ready and Running `PFRM` mixes the two samples, passes the mix through both filters once, answers
both outputs, enters Running, and changes nothing but the delay lines, `STATE` and its response. -/
def Obligations.PfrmProcessesOneFrame : Prop :=
  ∀ (leftIn rightIn : Word) (s : State) (cl ch : Coeffs) (dl dh : Delay),
    s.engine = .ready ∨ s.engine = .running → s.lp = Filter.holding cl dl → s.hp = Filter.holding ch dh →
    exec (.pfrm leftIn rightIn) s = .next { s with
      engine := .running
      lp := Filter.holding cl ⟨mixf leftIn rightIn, dl.x1, bqOutput cl dl (mixf leftIn rightIn), dl.y1⟩
      hp := Filter.holding ch ⟨mixf leftIn rightIn, dh.x1, bqOutput ch dh (mixf leftIn rightIn), dh.y1⟩
      responses := s.responses ++ [responseOf .ok .running
        ⟨bqOutput cl dl (mixf leftIn rightIn), bqOutput ch dh (mixf leftIn rightIn), 0, 0, 0⟩] }

/-- R109, R22: in Ready and Running `PBUF n` over a buffer of at least `n` frames ends with `OK`; it passes the `n`
mixed samples through both filters in order, keeps every coefficient, enters Running (also when `n` is 0), and
leaves `FRAME_IDX` at `n`. The value of `FRAME_IDX` after the command is log entry 1. -/
def Obligations.PbufProcessesEveryFrameOfItsBuffer : Prop :=
  ∀ (n : FrameIndex) (s : State) (cl ch : Coeffs) (dl dh : Delay),
    s.engine = .ready ∨ s.engine = .running → s.lp = Filter.holding cl dl → s.hp = Filter.holding ch dh →
    n.toNat ≤ s.frames →
    ∃ t, exec (.pbuf n) s = .next t ∧
      t.engine = .running ∧
      t.lp = Filter.holding cl (delayAfter cl dl (s.monos n.toNat)) ∧
      t.hp = Filter.holding ch (delayAfter ch dh (s.monos n.toNat)) ∧
      t.frameIdx = n ∧
      t.responses = s.responses ++ [⟨0x00000200, 0, 0, 0, 0, 0⟩] ∧
      t.frames = s.frames ∧ t.inPlace = s.inPlace ∧ t.run = s.run

/-- R37, R38: such a `PBUF n` performs, for each frame index below `n` in increasing order, exactly the four
accesses read (i, 0), read (i, 1), write (i, 0) of the low output, write (i, 1) of the high output, each once,
and no other access. -/
def Obligations.PbufAccessesEachSampleOnceInOrder : Prop :=
  ∀ (n : FrameIndex) (s t : State) (cl ch : Coeffs) (dl dh : Delay),
    s.engine = .ready ∨ s.engine = .running → s.lp = Filter.holding cl dl → s.hp = Filter.holding ch dh →
    exec (.pbuf n) s = .next t →
    ∃ low high : Nat → Word,
      (List.range n.toNat).map low = filterOutputs cl dl (s.monos n.toNat) ∧
      (List.range n.toNat).map high = filterOutputs ch dh (s.monos n.toNat) ∧
      t.accesses = s.accesses ++ (List.range n.toNat).flatMap fun i =>
        frameAccesses (BitVec.ofNat 24 i) (s.inputFrame i).1 (s.inputFrame i).2 (low i) (high i)

/-- R33, R35, R109: after such a `PBUF n` the output sample of frame `i < n` is the low output on channel 0 and the
high output on channel 1; every other output sample is as before, and so is every input sample, but where the
platform has an output sample share the storage of the input sample at its address (R46): there the input sample is
the output sample written. -/
def Obligations.PbufWritesItsOutputSamplesAndNoOther : Prop :=
  ∀ (n : FrameIndex) (s t : State) (cl ch : Coeffs) (dl dh : Delay),
    s.engine = .ready ∨ s.engine = .running → s.lp = Filter.holding cl dl → s.hp = Filter.holding ch dh →
    exec (.pbuf n) s = .next t →
    (∀ (i : Nat), i < n.toNat →
      (filterOutputs cl dl (s.monos n.toNat))[i]? = some (t.output.get ⟨BitVec.ofNat 24 i, 0⟩) ∧
      (filterOutputs ch dh (s.monos n.toNat))[i]? = some (t.output.get ⟨BitVec.ofNat 24 i, 1⟩)) ∧
    (∀ a : Addr, ¬ (a.frame < n ∧ a.channel < 2) →
      t.output.get a = s.output.get a ∧ t.input.get a = s.input.get a) ∧
    (s.inPlace = false → ∀ a : Addr, t.input.get a = s.input.get a) ∧
    (s.inPlace = true → ∀ a : Addr, a.frame < n → a.channel < 2 → t.input.get a = t.output.get a)

/-- U6 of spec/93, R44: the model stops a `PBUF n` whose buffer holds fewer than `n` frames, by name; the spec gives
that case no meaning. -/
def Obligations.PbufBeyondTheBufferStops : Prop :=
  ∀ (n : FrameIndex) (s : State) (cl ch : Coeffs) (dl dh : Delay),
    s.engine = .ready ∨ s.engine = .running → s.lp = Filter.holding cl dl → s.hp = Filter.holding ch dh →
    s.frames < n.toNat → exec (.pbuf n) s = .fault .noInputSample

/-- R110: in Ready, Running and Stopped `STOP` sets `STATE` to Stopped and changes nothing else but its response. -/
def Obligations.StopWritesTheStateOnly : Prop :=
  ∀ s : State, s.engine ≠ .uninitialized →
    exec .stop s = .next { s with
      engine := .stopped, responses := s.responses ++ [⟨0x00000300, 0, 0, 0, 0, 0⟩] }

/-- R102, R111: in every state `STAT` and `MIX` answer `OK` with the state, `MIX` the mean of its operands, the sum
first and the halving then, in `R0`; neither changes anything else. -/
def Obligations.StatAndMixOnlyAnswer : Prop :=
  (∀ s : State, exec .stat s = .next { s with
    responses := s.responses ++ [responseOf .ok s.engine ⟨0, 0, 0, 0, 0⟩] }) ∧
  (∀ (left right : Word) (s : State), exec (.mix left right) s = .next { s with
    responses := s.responses ++ [responseOf .ok s.engine ⟨fdiv (fadd left right) TWO, 0, 0, 0, 0⟩] })

/-- R91, R92, R117: in every state `CLP` and `CHP` answer the five coefficients the calculator computes where the
check passes and `InvalidFrequency` with zero lanes where it fails; neither changes anything else. -/
def Obligations.ClpAndChpOnlyAnswer : Prop :=
  (∀ (fc fs : Word) (s : State), validFreq fc fs = true →
    exec (.clp fc fs) s = .next { s with responses := s.responses ++ [responseOf .ok s.engine
      ⟨(calcLp fc fs).a0, (calcLp fc fs).a1, (calcLp fc fs).a2, (calcLp fc fs).b1, (calcLp fc fs).b2⟩] } ∧
    exec (.chp fc fs) s = .next { s with responses := s.responses ++ [responseOf .ok s.engine
      ⟨(calcHp fc fs).a0, (calcHp fc fs).a1, (calcHp fc fs).a2, (calcHp fc fs).b1, (calcHp fc fs).b2⟩] }) ∧
  (∀ (fc fs : Word) (s : State), validFreq fc fs = false →
    exec (.clp fc fs) s = .next { s with
      responses := s.responses ++ [responseOf .invalidFrequency s.engine ⟨0, 0, 0, 0, 0⟩] } ∧
    exec (.chp fc fs) s = .next { s with
      responses := s.responses ++ [responseOf .invalidFrequency s.engine ⟨0, 0, 0, 0, 0⟩] })

/-! ## The whole machine -/

/-- R103: every command that ends makes the transition of its cell of the table and answers the cell's status. -/
def Obligations.EveryCommandFollowsTheTransitionTable : Prop :=
  ∀ (i : Instr) (s t : State), exec i s = .next t →
    t.engine = (transition i s.engine).1 ∧
    ∃ r, t.responses = s.responses ++ [r] ∧ r.codeField = (transition i s.engine).2.code

/-- R121: the checks of a beat in their order: an illegal encoding answers `IllegalCommand` whatever the state and
the operands; a `SETUP` with a failing check answers `IllegalState` in Running, changing nothing, and
`InvalidFrequency` in every other state. -/
def Obligations.ChecksReportTheFirstFailure : Prop :=
  ∀ (s : State) (b : Beat) (rest : List HostEvent), s.run = .command b :: rest →
    (fieldsWellFormed (cwOPC (cmdCW b)) (cwIMM24 (cmdCW b)) = false →
      step s = .next (raiseStatus .illegalCommand { s with run := rest })) ∧
    (∀ fc fs, decode b = .ok (.setup fc fs) → validFreq fc fs = false →
      (s.engine = .running → step s = .next (raiseStatus .illegalState { s with run := rest })) ∧
      (s.engine ≠ .running →
        step s = .next (raiseStatus .invalidFrequency (resetEngine { s with run := rest }))))

/-- R123: errors are precise. A `SETUP` that answers `InvalidFrequency` leaves the engine Uninitialized with its
registers `UNSET` and changes nothing else; every other answer but `OK` changes nothing but the response; so
does the `IllegalCommand` of a beat that is no command. -/
def Obligations.ErrorsArePrecise : Prop :=
  (∀ (i : Instr) (s t : State) (r : Response), exec i s = .next t → t.responses = s.responses ++ [r] →
    r.codeField ≠ Status.ok.code →
    ((r.codeField = Status.invalidFrequency.code ∧ ∃ fc fs, i = .setup fc fs) →
      t = { s with
        engine := .uninitialized, lp := Filter.unset, hp := Filter.unset, responses := s.responses ++ [r] }) ∧
    (¬ (r.codeField = Status.invalidFrequency.code ∧ ∃ fc fs, i = .setup fc fs) →
      t = { s with responses := s.responses ++ [r] })) ∧
  (∀ (s : State) (b : Beat) (rest : List HostEvent) (e : Illegal), s.run = .command b :: rest →
    decode b = .error e →
    step s = .next { s with
      run := rest, responses := s.responses ++ [⟨statusWord .illegalCommand s.engine, 0, 0, 0, 0, 0⟩] })

/-- R36: only `PBUF` reaches the sample spaces: every other command leaves both of them, what the platform provides
and the record of accesses as they were. That it leaves `FRAME_IDX` too is the model's choice (log entry 1). -/
def Obligations.OnlyPbufReachesTheSampleSpaces : Prop :=
  ∀ (i : Instr) (s t : State), (∀ n, i ≠ .pbuf n) → exec i s = .next t →
    t.accesses = s.accesses ∧ t.input = s.input ∧ t.output = s.output ∧ t.frames = s.frames ∧
    t.inPlace = s.inPlace ∧ t.frameIdx = s.frameIdx

/-- R19: the ten coefficient registers are changed by `SETUP` and `RST` alone. -/
def Obligations.OnlySetupAndRstChangeCoefficients : Prop :=
  ∀ (i : Instr) (s t : State), i ≠ .rst → (∀ fc fs, i ≠ .setup fc fs) → exec i s = .next t →
    t.lp.a0 = s.lp.a0 ∧ t.lp.a1 = s.lp.a1 ∧ t.lp.a2 = s.lp.a2 ∧ t.lp.b1 = s.lp.b1 ∧ t.lp.b2 = s.lp.b2 ∧
    t.hp.a0 = s.hp.a0 ∧ t.hp.a1 = s.hp.a1 ∧ t.hp.a2 = s.hp.a2 ∧ t.hp.b1 = s.hp.b1 ∧ t.hp.b2 = s.hp.b2

/-- R30 d: while the engine is Stopped, every command but `SETUP` and `RST` leaves all eighteen datapath registers
and `STATE` as they were. -/
def Obligations.StoppedIsInert : Prop :=
  ∀ (i : Instr) (s t : State), s.engine = .stopped → i ≠ .rst → (∀ fc fs, i ≠ .setup fc fs) →
    exec i s = .next t → t.datapath = s.datapath ∧ t.engine = .stopped

/-- R30: reset meets the invariant. -/
def Obligations.ResetMeetsTheInvariant : Prop := State.reset.Inv

/-- R30, R52, with the canonical form of the sample spaces, which is the model's (log entry 7), and the one content of
shared storage, which at a hand-over is the model's (log entry 9): from every state
that meets the invariant, whether or not a run reaches it, a step leads to a state that meets it. -/
def Obligations.EveryStepKeepsTheInvariant : Prop :=
  ∀ s t : State, s.Inv → step s = .next t → t.Inv

/-- R30 a: in a state that meets the invariant, `STATE` is Uninitialized if and only if all eighteen datapath
registers are `UNSET`, and otherwise none of them is. -/
def Obligations.RegistersAreUnsetExactlyInUninitialized : Prop :=
  ∀ s : State, s.Inv →
    (s.engine = .uninitialized ↔ ∀ r ∈ s.datapath, r = Reg.unset) ∧
    (s.engine ≠ .uninitialized → ∀ r ∈ s.datapath, r ≠ Reg.unset)

/-- R141: in a state that meets the invariant every command, given a platform that provides the frames it processes,
ends with a response. R20: no step from such a state, whatever the host does next and whatever the platform
provides, reads a register that is `UNSET`; and where one is read all the same, in a state that breaks the invariant,
that is the fault of the model that the rule asks for. -/
def Obligations.EveryCommandEndsWithAResponse : Prop :=
  (∀ (i : Instr) (s : State), s.Inv → s.Launchable i →
    ∃ t r, exec i s = .next t ∧ t.responses = s.responses ++ [r]) ∧
  (∀ s : State, s.Inv → step s ≠ .fault .unsetRead) ∧
  (∀ (leftIn rightIn : Word) (s : State), s.engine = .ready ∨ s.engine = .running → Reg.unset ∈ s.datapath →
    exec (.pfrm leftIn rightIn) s = .fault .unsetRead)

/-- R79: the state after a command, the registers and the response are a function of the command, the engine's
registers and the input samples: two states that agree on those end alike, whatever else differs. -/
def Obligations.CommandsDependOnRegistersAndInputAlone : Prop :=
  ∀ (i : Instr) (s u t v : State) (r q : Response),
    s.engine = u.engine → s.lp = u.lp → s.hp = u.hp → s.input = u.input →
    exec i s = .next t → exec i u = .next v →
    t.responses = s.responses ++ [r] → v.responses = u.responses ++ [q] →
    t.engine = v.engine ∧ t.lp = v.lp ∧ t.hp = v.hp ∧ r = q

/-- R21: the low filter's registers and outputs do not depend on the high filter's registers, nor the reverse. The
outputs are `R0` and `R1` of a `PFRM` and the output samples on channel 0 and channel 1 of a `PBUF`. -/
def Obligations.TheTwoFiltersDoNotShareState : Prop :=
  ∀ (i : Instr) (s t v : State) (f : Filter) (r q : Response),
    exec i s = .next t → t.responses = s.responses ++ [r] →
    (exec i { s with hp := f } = .next v → v.responses = s.responses ++ [q] →
      t.lp = v.lp ∧ r.r0 = q.r0 ∧ ∀ n : FrameIndex, t.output.get ⟨n, 0⟩ = v.output.get ⟨n, 0⟩) ∧
    (exec i { s with lp := f } = .next v → v.responses = s.responses ++ [q] →
      t.hp = v.hp ∧ r.r1 = q.r1 ∧ ∀ n : FrameIndex, t.output.get ⟨n, 1⟩ = v.output.get ⟨n, 1⟩)

/-- R23: no command but `PFRM` and `PBUF` answers anything of the content of a datapath register. -/
def Obligations.NoCommandReadsARegisterBack : Prop :=
  ∀ (i : Instr) (s t v : State) (f g : Filter),
    (∀ a b, i ≠ .pfrm a b) → (∀ n, i ≠ .pbuf n) →
    exec i s = .next t → exec i { s with lp := f, hp := g } = .next v → t.responses = v.responses

/-! ## Buffers and continuity (R46, R109, R115) -/

/-- R109: `PBUF n` has exactly the effect on the registers, and produces exactly the output samples, of `n` `PFRM`
commands fed the same input frames in the same order; `STATE` agrees too unless `n` is 0, which enters Running. -/
def Obligations.PbufEqualsAsManyPfrms : Prop :=
  ∀ (n : FrameIndex) (s t : State) (cl ch : Coeffs) (dl dh : Delay),
    s.engine = .ready ∨ s.engine = .running → s.lp = Filter.holding cl dl → s.hp = Filter.holding ch dh →
    exec (.pbuf n) s = .next t →
    ∃ u, execAll ((s.inputFrames n.toNat).map fun p => .pfrm p.1 p.2) s = .next u ∧
      u.lp = t.lp ∧ u.hp = t.hp ∧ (n ≠ 0 → u.engine = t.engine) ∧
      u.responses = s.responses ++ (List.range n.toNat).map fun i =>
        responseOf .ok .running
          ⟨t.output.get ⟨BitVec.ofNat 24 i, 0⟩, t.output.get ⟨BitVec.ofNat 24 i, 1⟩, 0, 0, 0⟩

/-- R115: processing `n` frames in one `PBUF` and the following `m` in a later one, whatever happened to the buffers
and the records in between, gives the registers and the output samples of one `PBUF` of all `n + m` frames. -/
def Obligations.CuttingABufferInTwoChangesNothing : Prop :=
  ∀ (n m : FrameIndex) (s t u w : State) (cl ch : Coeffs) (dl dh : Delay),
    s.engine = .ready ∨ s.engine = .running → s.lp = Filter.holding cl dl → s.hp = Filter.holding ch dh →
    n.toNat + m.toNat < 2 ^ 24 →
    exec (.pbuf n) s = .next t → exec (.pbuf (n + m)) s = .next w →
    u.engine = t.engine → u.lp = t.lp → u.hp = t.hp → m.toNat ≤ u.frames →
    (∀ i, i < m.toNat → u.inputFrame i = s.inputFrame (n.toNat + i)) →
    ∃ v, exec (.pbuf m) u = .next v ∧
      v.engine = w.engine ∧ v.lp = w.lp ∧ v.hp = w.hp ∧
      (∀ i, i < n.toNat → ∀ c, c < 2 →
        w.output.get ⟨BitVec.ofNat 24 i, c⟩ = t.output.get ⟨BitVec.ofNat 24 i, c⟩) ∧
      (∀ i, i < m.toNat → ∀ c, c < 2 →
        w.output.get ⟨BitVec.ofNat 24 (n.toNat + i), c⟩ = v.output.get ⟨BitVec.ofNat 24 i, c⟩)

/-- R46: a platform that maps each output sample onto the storage of the input sample at its address gets the same
registers, output samples, accesses and response as with distinct buffers. -/
def Obligations.InPlaceBuffersGiveTheSameResult : Prop :=
  ∀ (n : FrameIndex) (s t : State), exec (.pbuf n) { s with inPlace := false } = .next t →
    ∃ u, exec (.pbuf n) { s with inPlace := true } = .next u ∧
      u.engine = t.engine ∧ u.lp = t.lp ∧ u.hp = t.hp ∧ u.output = t.output ∧
      u.accesses = t.accesses ∧ u.responses = t.responses

/-! ## The filter (42_biquad_iir_filter.md) -/

/-- R95: on registers that hold values, `BQ_PROCESS` returns the two sums and two differences of the five rounded
products, taken from left to right and each operation rounded, and the four delay-line registers shift; the
worked example of the rule, its products and partial sums included. -/
def Obligations.BqProcessFollowsTheRecurrence : Prop :=
  (∀ (a0 a1 a2 b1 b2 x1 x2 y1 y2 x y : Word),
    y = fsub (fsub (fadd (fadd (fmul a0 x) (fmul a1 x1)) (fmul a2 x2)) (fmul b1 y1)) (fmul b2 y2) →
    bqProcess (Filter.holding ⟨a0, a1, a2, b1, b2⟩ ⟨x1, x2, y1, y2⟩) x =
      .ok (y, Filter.holding ⟨a0, a1, a2, b1, b2⟩ ⟨x, x1, y, y1⟩)) ∧
  fmul 0x3B96DD24 0x3F000000 = 0x3B16DD24 ∧ fmul 0x3C16DD24 0x00000000 = 0x00000000 ∧
  fmul 0x3B96DD24 0x3F800000 = 0x3B96DD24 ∧ fmul 0xBFE648CC 0x3C8F495C = 0xBD00E4A7 ∧
  fmul 0x3F514880 0x3B96DD24 = 0x3B76AA88 ∧ fadd 0x3B16DD24 0x00000000 = 0x3B16DD24 ∧
  fadd 0x3B16DD24 0x3B96DD24 = 0x3BE24BB6 ∧ fsub 0x3BE24BB6 0xBD00E4A7 = 0x3D1D2E1E ∧
  fsub 0x3D1D2E1E 0x3B76AA88 = 0x3D0DC376 ∧
  bqProcess (Filter.holding ⟨0x3B96DD24, 0x3C16DD24, 0x3B96DD24, 0xBFE648CC, 0x3F514880⟩
      ⟨0x00000000, 0x3F800000, 0x3C8F495C, 0x3B96DD24⟩) 0x3F000000 =
    .ok (0x3D0DC376, Filter.holding ⟨0x3B96DD24, 0x3C16DD24, 0x3B96DD24, 0xBFE648CC, 0x3F514880⟩
      ⟨0x3F000000, 0x00000000, 0x3D0DC376, 0x3C8F495C⟩)

/-- R96: of two consecutive calls, the first returns the recurrence of the state before it and the second the
recurrence of the state captured before its own update, `(x, x1, y, y1)`, and that is what the first leaves. -/
def Obligations.TwoCallsFollowTheUpdateOrder : Prop :=
  ∀ (c : Coeffs) (x1 x2 y1 y2 x x' y y' : Word) (f f' : Filter),
    bqProcess (Filter.holding c ⟨x1, x2, y1, y2⟩) x = .ok (y, f) → bqProcess f x' = .ok (y', f') →
    y = fsub (fsub (fadd (fadd (fmul c.a0 x) (fmul c.a1 x1)) (fmul c.a2 x2)) (fmul c.b1 y1)) (fmul c.b2 y2) ∧
    y' = fsub (fsub (fadd (fadd (fmul c.a0 x') (fmul c.a1 x)) (fmul c.a2 x1)) (fmul c.b1 y)) (fmul c.b2 y1) ∧
    f = Filter.holding c ⟨x, x1, y, y1⟩ ∧ f' = Filter.holding c ⟨x', x, y', y⟩

/-- R98, R137: once `Y1` of a filter is non-finite every later output is non-finite; a non-finite sample, an infinity
too, makes its own output and every later one non-finite, and a NaN sample makes them NaNs, whatever the samples and
the coefficients. -/
def Obligations.NonFiniteOutputsPersist : Prop :=
  (∀ (c : Coeffs) (d : Delay) (xs : List Word), isFinite d.y1 = false →
    ∀ y ∈ filterOutputs c d xs, isFinite y = false) ∧
  (∀ (c : Coeffs) (d : Delay) (x : Word) (xs : List Word), isFinite x = false →
    ∀ y ∈ filterOutputs c d (x :: xs), isFinite y = false) ∧
  (∀ (c : Coeffs) (d : Delay) (x : Word) (xs : List Word), isNaN x = true →
    ∀ y ∈ filterOutputs c d (x :: xs), isNaN y = true)

/-- R99: with finite coefficients and a delay line of zeros, a zero sample of either sign gives a zero and leaves
the delay line all zeros, so a whole sequence of zeros gives zeros; if `A0` has sign bit 0 and the sample is +0
the result is +0; with any of the five coefficients infinite or a NaN the result is a NaN. -/
def Obligations.SilenceIsPreserved : Prop :=
  (∀ (c : Coeffs) (d : Delay),
    isFinite c.a0 = true → isFinite c.a1 = true → isFinite c.a2 = true → isFinite c.b1 = true →
    isFinite c.b2 = true → isZero d.x1 = true → isZero d.x2 = true → isZero d.y1 = true → isZero d.y2 = true →
    (∀ x : Word, isZero x = true →
      isZero (bqOutput c d x) = true ∧
      (isZero (nextDelay c d x).x1 = true ∧ isZero (nextDelay c d x).x2 = true ∧
        isZero (nextDelay c d x).y1 = true ∧ isZero (nextDelay c d x).y2 = true) ∧
      (signBit c.a0 = false → x = PZERO → bqOutput c d x = PZERO)) ∧
    (∀ xs : List Word, (∀ x ∈ xs, isZero x = true) → ∀ y ∈ filterOutputs c d xs, isZero y = true)) ∧
  (∀ (c : Coeffs) (d : Delay) (x : Word), isZero x = true →
    isZero d.x1 = true → isZero d.x2 = true → isZero d.y1 = true → isZero d.y2 = true →
    isFinite c.a0 = false ∨ isFinite c.a1 = false ∨ isFinite c.a2 = false ∨ isFinite c.b1 = false ∨
      isFinite c.b2 = false →
    isNaN (bqOutput c d x) = true) ∧
  (∀ (c : Coeffs) (d : Delay) (x : Word), isInf c.a0 = true → isZero x = true → isNaN (bqOutput c d x) = true)

/-- R100: the impulse response. With finite coefficients, `A0`, `A1`, `A2` not zero and a cleared delay line, the
outputs for the samples 1, +0, +0 are `A0`, `A1 − B1·y[0]` and `(A2 − B1·y[1]) − B2·y[0]`, provided `y[1]` is
not zero; and the outputs for the two coefficient sets the rule names. -/
def Obligations.ImpulseResponseIsTheCoefficients : Prop :=
  (∀ (c : Coeffs) (y1 y2 : Word),
    isFinite c.a0 = true → isFinite c.a1 = true → isFinite c.a2 = true → isFinite c.b1 = true →
    isFinite c.b2 = true → isZero c.a0 = false → isZero c.a1 = false → isZero c.a2 = false →
    y1 = fsub c.a1 (fmul c.b1 c.a0) → isZero y1 = false →
    y2 = fsub (fsub c.a2 (fmul c.b1 y1)) (fmul c.b2 c.a0) →
    filterOutputs c Delay.zero [ONE, PZERO, PZERO] = [c.a0, y1, y2]) ∧
  filterOutputs ⟨0x3B96DD24, 0x3C16DD24, 0x3B96DD24, 0xBFE648CC, 0x3F514880⟩ Delay.zero [ONE, PZERO, PZERO] =
    [0x3B96DD24, 0x3C8F495C, 0x3D0455A4] ∧
  filterOutputs ⟨0x3F677686, 0xBFE77686, 0x3F677686, 0xBFE648CB, 0x3F514880⟩ Delay.zero [ONE, PZERO, PZERO] =
    [0x3F677686, 0xBE3A01C8, 0xBE25B024]

/-! ## The arithmetic (40_float_arithmetic.md) -/

/-- R64: the exact value of a finite word, the largest value, the smallest positive normal value and the smallest
positive one; both zeros have value 0. -/
def Obligations.ValueOfAFiniteWord : Prop :=
  (∀ w : Word, expField w = 0 →
    val w = (-1 : ℚ) ^ (if signBit w then 1 else 0) * fracField w * 2 ^ (-149 : ℤ)) ∧
  (∀ w : Word, 1 ≤ expField w → expField w ≤ 254 →
    val w = (-1 : ℚ) ^ (if signBit w then 1 else 0) * (2 ^ 23 + fracField w) * 2 ^ ((expField w : ℤ) - 150)) ∧
  val 0x7F7FFFFF = (2 - 2 ^ (-23 : ℤ)) * 2 ^ 127 ∧
  (∀ w : Word, isFinite w = true → val w ≤ val 0x7F7FFFFF) ∧
  val 0x00800000 = 2 ^ (-126 : ℤ) ∧
  (∀ w : Word, 1 ≤ expField w → expField w ≤ 254 → 0 < val w → val 0x00800000 ≤ val w) ∧
  val 0x00000001 = 2 ^ (-149 : ℤ) ∧
  (∀ w : Word, isFinite w = true → 0 < val w → val 0x00000001 ≤ val w) ∧
  val 0x00000000 = 0 ∧ val 0x80000000 = 0

/-- R65: the rounding. A zero result takes the sign asked for; from the overflow bound on the result is the infinity
of its sign; below it the result is finite, no finite word is nearer, of two equally near the one with an even
fraction is taken, and a non-zero result keeps its sign even where it rounds to zero. -/
def Obligations.RoundingIsToNearestTiesToEven : Prop :=
  (∀ zs : Bool, rn32 0 zs = zeroOf zs) ∧
  (∀ (q : ℚ) (zs : Bool), (2 - 2 ^ (-24 : ℤ)) * 2 ^ 127 ≤ |q| → rn32 q zs = infOf (decide (q < 0))) ∧
  (∀ (q : ℚ) (zs : Bool), q ≠ 0 → |q| < (2 - 2 ^ (-24 : ℤ)) * 2 ^ 127 →
    isFinite (rn32 q zs) = true ∧
    signBit (rn32 q zs) = decide (q < 0) ∧
    (∀ w : Word, isFinite w = true → |q - val (rn32 q zs)| ≤ |q - val w|) ∧
    (∀ w : Word, isFinite w = true → val w ≠ val (rn32 q zs) → |q - val w| = |q - val (rn32 q zs)| →
      fracField (rn32 q zs) % 2 = 0))

/-- R65: rounding loses nothing of a value that is a word's: every finite word but the zeros is the rounding of its
own value. -/
def Obligations.RoundingIsExactOnWords : Prop :=
  ∀ (w : Word) (zs : Bool), isFinite w = true → isZero w = false → rn32 (val w) zs = w

/-- R66, R68: addition by its five cases and multiplication by its five, each in their order and with the one
rounding of the exact sum or product at the end, the examples of the rules, and both commutative for results that are
no NaN. No case stops anything. -/
def Obligations.AdditionAndMultiplicationFollowTheirCases : Prop :=
  (∀ a b : Word,
    (isNaN a = true ∨ isNaN b = true → isNaN (fadd a b) = true) ∧
    (isInf a = true → isInf b = true → signBit a = signBit b → fadd a b = a) ∧
    (isInf a = true → isInf b = true → signBit a ≠ signBit b → isNaN (fadd a b) = true) ∧
    (isInf a = true → isFinite b = true → fadd a b = a ∧ fadd b a = a) ∧
    (isZero a = true → isZero b = true → fadd a b = if signBit a = signBit b then a else PZERO) ∧
    (isFinite a = true → isFinite b = true → ¬(isZero a = true ∧ isZero b = true) →
      fadd a b = rn32 (val a + val b) false ∧ (val a + val b = 0 → fadd a b = PZERO)) ∧
    (isNaN (fadd a b) = false → fadd a b = fadd b a)) ∧
  (∀ a b : Word,
    (isNaN a = true ∨ isNaN b = true → isNaN (fmul a b) = true) ∧
    (isInf a = true → isZero b = true → isNaN (fmul a b) = true ∧ isNaN (fmul b a) = true) ∧
    (isInf a = true → isNaN b = false → isZero b = false →
      fmul a b = infOf (signBit a ^^ signBit b) ∧ fmul b a = infOf (signBit a ^^ signBit b)) ∧
    (isZero a = true → isFinite b = true →
      fmul a b = zeroOf (signBit a ^^ signBit b) ∧ fmul b a = zeroOf (signBit a ^^ signBit b)) ∧
    (isFinite a = true → isZero a = false → isFinite b = true → isZero b = false →
      fmul a b = rn32 (val a * val b) (signBit a ^^ signBit b)) ∧
    (isNaN (fmul a b) = false → fmul a b = fmul b a)) ∧
  fadd 0x3F800000 0x33800000 = 0x3F800000 ∧ fadd 0x3F800001 0x33800000 = 0x3F800002 ∧
  fadd 0x7F7FFFFF 0x73000000 = 0x7F800000 ∧ fadd 0x7F7FFFFF 0x72FFFFFF = 0x7F7FFFFF ∧
  fadd 0x80000000 0x00000000 = 0x00000000 ∧
  fmul 0x40400000 0x3DCCCCCD = 0x3E99999A ∧ fmul 0x00800001 0x3F000000 = 0x00400000 ∧
  fmul 0x00800003 0x3F000000 = 0x00400002 ∧ fmul 0x7F7FFFFF 0x40000000 = 0x7F800000 ∧
  fmul 0xC0000000 0x00000000 = 0x80000000

/-- R67: a NaN operand gives a NaN, and the subtraction of two words that are no NaN is the addition of the negated
second one; so a finite word minus itself is +0. -/
def Obligations.SubtractionIsAdditionOfTheNegated : Prop :=
  (∀ a b : Word, isNaN a = true ∨ isNaN b = true → isNaN (fsub a b) = true) ∧
  (∀ x : Word, isFinite x = true → fsub x x = PZERO) ∧
  (∀ a b : Word, isNaN a = false → isNaN b = false → fsub a b = fadd a (fneg b)) ∧
  fsub 0x80000000 0x00000000 = 0x80000000 ∧ isNaN (fsub 0x7F800000 0x7F800000) = true

/-- R69: division by its seven cases in their order, and the examples of the rule. No case stops anything. -/
def Obligations.DivisionFollowsItsCases : Prop :=
  (∀ a b : Word,
    (isNaN a = true ∨ isNaN b = true → isNaN (fdiv a b) = true) ∧
    (isInf a = true → isInf b = true → isNaN (fdiv a b) = true) ∧
    (isZero a = true → isZero b = true → isNaN (fdiv a b) = true) ∧
    (isInf a = true → isFinite b = true → fdiv a b = infOf (signBit a ^^ signBit b)) ∧
    (isFinite a = true → isInf b = true → fdiv a b = zeroOf (signBit a ^^ signBit b)) ∧
    (isFinite a = true → isZero a = false → isZero b = true → fdiv a b = infOf (signBit a ^^ signBit b)) ∧
    (isZero a = true → isFinite b = true → isZero b = false → fdiv a b = zeroOf (signBit a ^^ signBit b)) ∧
    (isFinite a = true → isZero a = false → isFinite b = true → isZero b = false →
      fdiv a b = rn32 (val a / val b) (signBit a ^^ signBit b))) ∧
  fdiv 0x3F800000 0x40400000 = 0x3EAAAAAB ∧ fdiv 0x3F800000 0x00000000 = 0x7F800000 ∧
  fdiv 0x3F800000 0x80000000 = 0xFF800000 ∧ fdiv 0x3F800000 0x7F800000 = 0x00000000 ∧
  fdiv 0x00000003 0x40000000 = 0x00000002 ∧ fdiv 0x00000001 0x40000000 = 0x00000000

/-- R71: the comparison: false on a NaN, −∞ below and +∞ above every finite value, finite values by their value, so
that the two zeros are equal. -/
def Obligations.ComparisonOrdersValuesAndInfinities : Prop :=
  (∀ a b : Word, isNaN a = true ∨ isNaN b = true → flt a b = false) ∧
  (∀ a b : Word, isFinite a = true → isFinite b = true → (flt a b = true ↔ val a < val b)) ∧
  (∀ a : Word, isFinite a = true →
    flt 0xFF800000 a = true ∧ flt a 0x7F800000 = true ∧ flt a 0xFF800000 = false ∧ flt 0x7F800000 a = false) ∧
  flt 0xFF800000 0x7F800000 = true ∧ flt 0x7F800000 0xFF800000 = false ∧
  flt 0xFF800000 0xFF800000 = false ∧ flt 0x7F800000 0x7F800000 = false ∧
  flt 0x80000000 0x00000000 = false ∧ flt 0x00000000 0x80000000 = false

/-- R74: an operation on a NaN operand gives a NaN, and every NaN that an operation gives is quiet. This holds for
every value of the parameter `NAN_RESULT`. -/
def Obligations.ProducedNaNsAreQuiet : Prop :=
  ∀ a b : Word,
    (isNaN a = true ∨ isNaN b = true →
      isNaN (fadd a b) = true ∧ isNaN (fsub a b) = true ∧ isNaN (fmul a b) = true ∧ isNaN (fdiv a b) = true) ∧
    (isNaN (fadd a b) = true → isQuietNaN (fadd a b) = true) ∧
    (isNaN (fsub a b) = true → isQuietNaN (fsub a b) = true) ∧
    (isNaN (fmul a b) = true → isQuietNaN (fmul a b) = true) ∧
    (isNaN (fdiv a b) = true → isQuietNaN (fdiv a b) = true)

/-- R80 (E1 to E6): the exact facts the other files use. -/
def Obligations.ExactFactsOfTheArithmetic : Prop :=
  (∀ a : Word, isFinite a = true → |val a| < 2 ^ 127 →
    isFinite (fmul TWO a) = true ∧ val (fmul TWO a) = 2 * val a) ∧
  (∀ a : Word, isFinite a = true → (2 : ℚ) ^ 127 ≤ |val a| → fmul TWO a = infOf (signBit a)) ∧
  (∀ a : Word, 2 ≤ expField a → expField a ≤ 254 → val (fdiv a TWO) = val a / 2) ∧
  (∀ x : Word, isNaN x = false → x ≠ 0x80000000 → fadd PZERO x = x) ∧ fadd PZERO 0x80000000 = PZERO ∧
  (∀ x : Word, isNaN x = false → fsub x PZERO = x) ∧
  (∀ x : Word, isNaN x = false → x ≠ 0x80000000 → fsub x 0x80000000 = x) ∧ fsub 0x80000000 0x80000000 = PZERO ∧
  (∀ a z : Word, isFinite a = true → isZero z = true → isZero (fmul a z) = true) ∧
  (∀ a : Word, isNaN a = false → fmul a ONE = a) ∧
  (∀ a : Word, isNaN a = false → fdiv a TWO = fmul a 0x3F000000)

/-! ## The mixer and the calculator (41, 43) -/

/-- R101: the mixdown is symmetric for results that are no NaN, a NaN operand gives a NaN, and the corner cases (a)
to (f) of the rule. -/
def Obligations.MixdownIsSymmetric : Prop :=
  (∀ a b : Word, isNaN (mixf a b) = false → mixf a b = mixf b a) ∧
  (∀ a b : Word, isNaN a = true ∨ isNaN b = true → isNaN (mixf a b) = true) ∧
  mixf 0x7F7FFFFF 0x7F7FFFFF = 0x7F800000 ∧ mixf 0x7F000000 0x7F000000 = 0x7F800000 ∧
  mixf 0x3F800000 0xBF800000 = 0x00000000 ∧ mixf 0x80000000 0x80000000 = 0x80000000 ∧
  mixf 0x80000000 0x00000000 = 0x00000000 ∧ mixf 0x00000001 0x00000000 = 0x00000000 ∧
  mixf 0x00000001 0x00000002 = 0x00000002 ∧ mixf 0x00800001 0x00000000 = 0x00400000 ∧
  isNaN (mixf 0x7F800000 0xFF800000) = true ∧ mixf 0x7F800000 0x3F800000 = 0x7F800000 ∧
  mixf 0x3DCCCCCD 0x3E4CCCCD = 0x3E19999A ∧ mixf 0x3F800000 0x3F800000 = 0x3F800000

/-- R82: for all operands the frequency check is the two strict comparisons in binary32; so it means `0 < fc < fs/2`
on the exact values where `fs` is large enough for its half to be exact (biased exponent 2 or more); it is false when `fc` or `fs` is a NaN, when `fc` is a zero, negative or +∞, when `fs` is a zero or
negative; it is true for `fs` = +∞ and any finite positive `fc`. -/
def Obligations.FrequencyCheckMeansStrictlyInsideTheRange : Prop :=
  (∀ fc fs : Word, validFreq fc fs = true ↔ flt PZERO fc = true ∧ flt fc (fdiv fs TWO) = true) ∧
  (∀ fc fs : Word, isFinite fc = true → 2 ≤ expField fs → expField fs ≤ 254 →
    (validFreq fc fs = true ↔ 0 < val fc ∧ val fc < val fs / 2)) ∧
  (∀ fc fs : Word, isNaN fc = true ∨ isNaN fs = true ∨ isZero fc = true ∨ signBit fc = true ∨ isInf fc = true ∨
    isZero fs = true ∨ signBit fs = true → validFreq fc fs = false) ∧
  (∀ fc : Word, isFinite fc = true → isZero fc = false → signBit fc = false →
    validFreq fc 0x7F800000 = true)

/-- R84 to R87, R89 (P1, P2, P5): both coefficient sets are those of the one tangent `TAN32(fdiv(fmul(PI32, fc), fs))`,
line by line as the rules write them, the two forms of `b1` included; so, whatever the tangent is, `a2` is the word
`a0`, the lowpass `a1` is `2·a0` and the highpass `a1` its negation, and the coefficients depend on the operands
through `w` alone. -/
def Obligations.CoefficientsHaveTheStructureOfTheRule : Prop :=
  (∀ fc fs : Word,
    calcLp fc fs = lowpassOf (Config.tan32 (fdiv (fmul PI32 fc) fs)) ∧
    calcHp fc fs = highpassOf (Config.tan32 (fdiv (fmul PI32 fc) fs))) ∧
  (∀ t c a0 : Word, c = fdiv ONE t →
    a0 = fdiv ONE (fadd (fadd ONE (fmul SQRT2_32 c)) (fmul c c)) →
    lowpassOf t = ⟨a0, fmul TWO a0, a0, fmul (fmul TWO a0) (fsub ONE (fmul c c)),
      fmul a0 (fadd (fsub ONE (fmul SQRT2_32 c)) (fmul c c))⟩) ∧
  (∀ t a0 : Word, a0 = fdiv ONE (fadd (fadd ONE (fmul SQRT2_32 t)) (fmul t t)) →
    highpassOf t = ⟨a0, fneg (fmul TWO a0), a0, fmul (fmul TWO a0) (fsub (fmul t t) ONE),
      fmul a0 (fadd (fsub ONE (fmul SQRT2_32 t)) (fmul t t))⟩) ∧
  (∀ t : Word, (lowpassOf t).a2 = (lowpassOf t).a0 ∧ (lowpassOf t).a1 = fmul TWO (lowpassOf t).a0 ∧
    (highpassOf t).a2 = (highpassOf t).a0 ∧ (highpassOf t).a1 = fneg (fmul TWO (highpassOf t).a0)) ∧
  (∀ fc fs fc' fs' : Word, calcW fc fs = calcW fc' fs' →
    calcLp fc fs = calcLp fc' fs' ∧ calcHp fc fs = calcHp fc' fs') ∧
  (∀ t : Word, isFinite (lowpassOf t).a0 = true → |val (lowpassOf t).a0| < 2 ^ 127 →
    val (lowpassOf t).a1 = 2 * val (lowpassOf t).a0) ∧
  (∀ t : Word, isFinite (highpassOf t).a0 = true → |val (highpassOf t).a0| < 2 ^ 127 →
    val (highpassOf t).a1 = -2 * val (highpassOf t).a0)

/-- R89 (P3): for every finite positive tangent, `a0` of both filters lies in [+0, 1] and is never negative. -/
def Obligations.GainCoefficientLiesBetweenZeroAndOne : Prop :=
  ∀ t : Word, isFinite t = true → isZero t = false → signBit t = false →
    (isFinite (lowpassOf t).a0 = true ∧ signBit (lowpassOf t).a0 = false ∧ val (lowpassOf t).a0 ≤ 1) ∧
    (isFinite (highpassOf t).a0 = true ∧ signBit (highpassOf t).a0 = false ∧ val (highpassOf t).a0 ≤ 1)

/-- R78, R84, R85, R86: the reference tangent and the worked examples. The rounding of a real number, in which the
reference tangent is put, is the model's own rounding on rational numbers. Every word has a reference tangent, and no
second one but where the rule leaves open which quiet NaN it is; the rule's two examples; at (1000, 44100) the argument
of the tangent, the coefficients the rules print for its reference tangent, and the calculator's own coefficients
where the parameter `TAN32` is the reference instance. That some instance is one is the second clause. -/
def Obligations.ReferenceTangentAndWorkedCoefficients : Prop :=
  (∀ (q : ℚ) (zs : Bool), IsRN32 (q : ℝ) zs (rn32 q zs)) ∧
  (∀ t : Word, ∃ r : Word, IsTan32ref t r) ∧
  (∀ t r r' : Word, IsTan32ref t r → IsTan32ref t r' →
    r = r' ∨ (isFinite t = false ∧ isQuietNaN r = true ∧ isQuietNaN r' = true)) ∧
  (∀ r : Word, IsTan32ref 0x3D91E531 r ↔ r = 0x3D922480) ∧
  (∀ r : Word, IsTan32ref 0x3EC90FDB r ↔ r = 0x3ED413CD) ∧
  calcW 0x447A0000 0x472C4400 = 0x3D91E531 ∧
  (∀ t : Word, IsTan32ref (calcW 0x447A0000 0x472C4400) t →
    lowpassOf t = ⟨0x3B96DD24, 0x3C16DD24, 0x3B96DD24, 0xBFE648CC, 0x3F514880⟩ ∧
    highpassOf t = ⟨0x3F677686, 0xBFE77686, 0x3F677686, 0xBFE648CB, 0x3F514880⟩) ∧
  (TangentIsReference →
    calcLp 0x447A0000 0x472C4400 = ⟨0x3B96DD24, 0x3C16DD24, 0x3B96DD24, 0xBFE648CC, 0x3F514880⟩ ∧
    calcHp 0x447A0000 0x472C4400 = ⟨0x3F677686, 0xBFE77686, 0x3F677686, 0xBFE648CB, 0x3F514880⟩)

/-- R88: the source's tolerance. Any tangent within 4e-4 relative of 0.0713586809 gives a lowpass `a0` within 1e-3
relative of 0.0046039985 at (1000, 44100). -/
def Obligations.LowpassGainMeetsTheTolerance : Prop :=
  ∀ t : Word, isFinite t = true → |val t - 0.0713586809| ≤ 0.0004 * 0.0713586809 →
    isFinite (lowpassOf t).a0 = true ∧ |val (lowpassOf t).a0 - 0.0046039985| ≤ 0.001 * 0.0046039985

/-! ## The script language (R60 to R62) -/

/-- R60, R61: the assembler on five lines: the two example lines of R60; a line with a comment, a decimal negative
zero and a bit pattern; and two lines that do not assemble, a frame count beyond 16777215 and a literal beyond the
largest finite word. Only the first two are examples of the rules. That a blank may stand before a comment, and that
a frame count out of range is an error, each error under a name of its own, is the model's choice (log entry 14). -/
def Obligations.ScriptExamplesAssemble : Prop :=
  assemble "SETUP 1000.0, 44100.0".toList = .ok [0x02000000447A0000472C4400] ∧
  assemble "PBUF 4".toList = .ok [0x040000040000000000000000] ∧
  assemble "MIX -0.0, 0x7FC00000 # a comment".toList = .ok [0x10000000800000007FC00000] ∧
  assemble "PBUF 16777216".toList = .error .badFrameCount ∧
  assemble "MIX 1, 4e38".toList = .error .floatOverflow

/-- R62: with operands that pass the check `NEW fc, fs` and `RECONF fc, fs` work from every state, the `STOP` of the
second being refused in Uninitialized: both end Ready with the new coefficients and cleared delay lines. -/
def Obligations.PseudoCommandsSetUpAnew : Prop :=
  ∀ (fc fs : Word) (s : State), validFreq fc fs = true →
    (∃ t, execAll (expandLine (.new fc fs)) s = .next t ∧ t.engine = .ready ∧
      t.lp = Filter.holding (calcLp fc fs) Delay.zero ∧ t.hp = Filter.holding (calcHp fc fs) Delay.zero ∧
      t.responses = s.responses ++
        [responseOf .ok .uninitialized Lanes.zero, responseOf .ok .ready Lanes.zero]) ∧
    (∃ t, execAll (expandLine (.reconf fc fs)) s = .next t ∧ t.engine = .ready ∧
      t.lp = Filter.holding (calcLp fc fs) Delay.zero ∧ t.hp = Filter.holding (calcHp fc fs) Delay.zero ∧
      t.responses = s.responses ++
        [if s.engine = .uninitialized then responseOf .illegalState .uninitialized Lanes.zero
          else responseOf .ok .stopped Lanes.zero,
         responseOf .ok .ready Lanes.zero])
end

