-- ==== Sys2Proof/Laws/Decode.lean ====
section
/-! SUPPORT. The fields of a beat made of three words, and what the decoder does with a command word. -/

namespace Sys2Proof

/-- The bits of a beat made of three words (R48). -/
theorem getLsbD_beatOf (cw opa opb : Word) (i : Nat) : (beatOf cw opa opb).getLsbD i =
    if i < 32 then opb.getLsbD i else if i < 64 then opa.getLsbD (i - 32) else cw.getLsbD (i - 64) := by
  have h1 := @BitVec.getLsbD_append 32 (32 + 32) i cw (opa ++ opb)
  have h2 := @BitVec.getLsbD_append 32 32 i opa opb
  unfold beatOf
  rw [h1, h2]
  split_ifs <;> first | rfl | omega

@[simp] theorem cmdCW_beatOf (cw opa opb : Word) : cmdCW (beatOf cw opa opb) = cw := by
  apply BitVec.eq_of_getLsbD_eq
  intro i hi
  simp [cmdCW, getLsbD_beatOf, hi, show ¬ 64 + i < 32 by omega]

@[simp] theorem cmdOPA_beatOf (cw opa opb : Word) : cmdOPA (beatOf cw opa opb) = opa := by
  apply BitVec.eq_of_getLsbD_eq
  intro i hi
  simp [cmdOPA, getLsbD_beatOf, hi, show 32 + i < 64 by omega]

@[simp] theorem cmdOPB_beatOf (cw opa opb : Word) : cmdOPB (beatOf cw opa opb) = opb := by
  apply BitVec.eq_of_getLsbD_eq
  intro i hi
  simp [cmdOPB, getLsbD_beatOf, hi]

/-- A beat is its three words (R48). -/
theorem beatOf_fields (b : Beat) : beatOf (cmdCW b) (cmdOPA b) (cmdOPB b) = b := by
  apply BitVec.eq_of_getLsbD_eq
  intro i hi
  simp only [getLsbD_beatOf, cmdCW, cmdOPA, cmdOPB, BitVec.getLsbD_extractLsb']
  split_ifs
  · simp_all
  · simp only [show i - 32 < 32 by omega, decide_true, Bool.true_and]; congr 1; omega
  · simp only [show i - 64 < 32 by omega, decide_true, Bool.true_and]; congr 1; omega

/-- The fields of a command word determine it (R49). -/
theorem cw_ext {cw cw' : Word} (ho : cwOPC cw = cwOPC cw') (hi : cwIMM24 cw = cwIMM24 cw') : cw = cw' := by
  apply BitVec.eq_of_getLsbD_eq
  intro i h
  by_cases hlt : i < 24
  · have := congrArg (fun v => v.getLsbD i) hi
    simpa [cwIMM24, hlt] using this
  · have := congrArg (fun v => v.getLsbD (i - 24)) ho
    simpa [cwOPC, show i - 24 < 8 by omega, show 24 + (i - 24) = i by omega] using this

/-- A row that leaves no bit free accepts its pattern alone (R53). -/
theorem rowAccepts_full (cw p : Word) (op : Opcode) : rowAccepts cw ⟨op, p, 0xFFFFFFFF⟩ = decide (cw = p) := by
  have h : cw &&& 0xFFFFFFFF#32 = cw := BitVec.and_allOnes
  simp only [rowAccepts]
  rw [show (0xFFFFFFFF : Word) = 0xFFFFFFFF#32 from rfl, h]
  rfl

theorem mask_opcode_bits (i : Nat) (h : i < 32) : (0xFF000000#32).getLsbD i = decide (24 ≤ i) := by
  interval_cases i <;> decide

theorem pbuf_pattern_bits (i : Nat) (h : i < 32) : (0x04000000#32).getLsbD i = decide (i = 26) := by
  interval_cases i <;> decide

/-- The row of `PBUF` accepts by the opcode alone (R53). -/
theorem rowAccepts_pbuf (cw : Word) : rowAccepts cw ⟨.pbuf, 0x04000000, 0xFF000000⟩ = decide (cwOPC cw = 0x04) := by
  simp only [rowAccepts, Bool.beq_eq_decide_eq, decide_eq_decide]
  constructor
  · intro h
    apply BitVec.eq_of_getLsbD_eq
    intro i hi
    have h2 := congrArg (fun v : Word => v.getLsbD (24 + i)) h
    simp only [BitVec.getLsbD_and] at h2
    rw [show (0xFF000000 : Word) = 0xFF000000#32 from rfl, mask_opcode_bits _ (by omega)] at h2
    simp only [show 24 ≤ 24 + i by omega, decide_true, Bool.and_true] at h2
    simp only [cwOPC, BitVec.getLsbD_extractLsb', hi, decide_true, Bool.true_and, h2]
    interval_cases i <;> decide
  · intro h
    apply BitVec.eq_of_getLsbD_eq
    intro i hi
    rw [BitVec.getLsbD_and, show (0xFF000000 : Word) = 0xFF000000#32 from rfl, mask_opcode_bits _ hi,
      show (0x04000000 : Word) = 0x04000000#32 from rfl, pbuf_pattern_bits _ hi]
    by_cases h24 : 24 ≤ i
    · have h2 := congrArg (fun v => v.getLsbD (i - 24)) h
      simp only [cwOPC, BitVec.getLsbD_extractLsb', show i - 24 < 8 by omega, decide_true, Bool.true_and,
        show 24 + (i - 24) = i by omega] at h2
      simp only [h2, h24, decide_true, Bool.and_true]
      interval_cases i <;> decide
    · simp [h24]; omega

/-- The decoder by cases: which command words each row takes (R53). -/
theorem decodeCW_eq (cw : Word) : decodeCW cw =
    if cw = 0x01000000 then some .rst else if cw = 0x02000000 then some .setup
    else if cw = 0x03000000 then some .pfrm else if cwOPC cw = 0x04 then some .pbuf
    else if cw = 0x05000000 then some .stop else if cw = 0x06000000 then some .stat
    else if cw = 0x10000000 then some .mix else if cw = 0x11000000 then some .clp
    else if cw = 0x12000000 then some .chp else none := by
  unfold decodeCW opcodeMap
  simp only [List.find?_cons, List.find?_nil, rowAccepts_full, rowAccepts_pbuf]
  by_cases h1 : cw = 0x01000000 <;> simp only [h1, decide_true, decide_false, if_true, if_false, Option.map_some]
  by_cases h2 : cw = 0x02000000 <;> simp only [h2, decide_true, decide_false, if_true, if_false, Option.map_some]
  by_cases h3 : cw = 0x03000000 <;> simp only [h3, decide_true, decide_false, if_true, if_false, Option.map_some]
  by_cases h4 : cwOPC cw = 0x04 <;> simp only [h4, decide_true, decide_false, if_true, if_false, Option.map_some]
  by_cases h5 : cw = 0x05000000 <;> simp only [h5, decide_true, decide_false, if_true, if_false, Option.map_some]
  by_cases h6 : cw = 0x06000000 <;> simp only [h6, decide_true, decide_false, if_true, if_false, Option.map_some]
  by_cases h7 : cw = 0x10000000 <;> simp only [h7, decide_true, decide_false, if_true, if_false, Option.map_some]
  by_cases h8 : cw = 0x11000000 <;> simp only [h8, decide_true, decide_false, if_true, if_false, Option.map_some]
  by_cases h9 : cw = 0x12000000 <;>
    simp only [h9, decide_true, decide_false, if_true, if_false, Option.map_some, Option.map_none]

@[simp] theorem cwOPC_pbuf (n : FrameIndex) : cwOPC (0x04000000 ||| n.setWidth 32) = 0x04 := by
  apply BitVec.eq_of_getLsbD_eq
  intro i hi
  rw [cwOPC, BitVec.getLsbD_extractLsb', BitVec.getLsbD_or, BitVec.getLsbD_setWidth,
    BitVec.getLsbD_of_ge n _ (by omega), show (0x04000000 : Word) = 0x04000000#32 from rfl,
    pbuf_pattern_bits _ (by omega)]
  interval_cases i <;> decide

@[simp] theorem cwIMM24_pbuf (n : FrameIndex) : cwIMM24 (0x04000000 ||| n.setWidth 32) = n := by
  apply BitVec.eq_of_getLsbD_eq
  intro i hi
  rw [cwIMM24, BitVec.getLsbD_extractLsb', BitVec.getLsbD_or, BitVec.getLsbD_setWidth,
    show (0x04000000 : Word) = 0x04000000#32 from rfl, pbuf_pattern_bits _ (by omega)]
  simp [hi, show ¬ i = 26 by omega]
  omega

/-- What a beat encodes, by the command word alone (R58). -/
theorem decode_beatOf (cw opa opb : Word) : decode (beatOf cw opa opb) =
    match decodeCW cw with
    | some op => .ok (withOperands (beatOf cw opa opb) op)
    | none => .error (illegalReason cw) := by
  cases h : decodeCW cw <;> simp only [decode, cmdCW_beatOf, h]

end Sys2Proof
end

