-- ==== Sys2Proof/Laws/Memory.lean ====
section
/-! SUPPORT. The laws of the sample memory: a read after a write, and the canonical form, which every operation
keeps. The first hold of every list, whether or not it has the canonical form. -/

namespace Sys2Proof.Machine

/-- Two addresses with the same key are the same address (R34). -/
theorem Addr.key_inj {a b : Addr} (h : a.key = b.key) : a = b := by
  obtain ⟨f, c⟩ := a
  obtain ⟨g, d⟩ := b
  simp only [Addr.key] at h
  have hf : f.toNat < 2 ^ 24 := f.isLt
  have hg : g.toNat < 2 ^ 24 := g.isLt
  have hc : c = d := by omega
  have hfg : f = g := BitVec.eq_of_toNat_eq (by omega)
  rw [hc, hfg]

/-! ## Read after write -/

theorem Memory.get_erase_same (m : Memory) (a : Addr) : (m.erase a).get a = 0 := by
  induction m with
  | nil => rfl
  | cons p m ih =>
    obtain ⟨b, w⟩ := p
    by_cases h : b = a
    · simpa [Memory.erase, h] using ih
    · simpa [Memory.erase, h, Memory.get] using ih

theorem Memory.get_erase_ne (m : Memory) {a b : Addr} (hab : a ≠ b) : (m.erase a).get b = m.get b := by
  induction m with
  | nil => rfl
  | cons p m ih =>
    obtain ⟨c, w⟩ := p
    by_cases h : c = a
    · have hcb : c ≠ b := h ▸ hab
      simpa [Memory.erase, Memory.get, h, hab] using ih
    · by_cases hcb : c = b
      · simp [Memory.erase, Memory.get, hcb, hab.symm]
      · simpa [Memory.erase, Memory.get, h, hcb] using ih

theorem Memory.get_insert_ne (m : Memory) {a b : Addr} (v : Word) (hab : a ≠ b) :
    (m.insert a v).get b = m.get b := by
  induction m with
  | nil => simp [Memory.insert, Memory.get, hab]
  | cons p m ih =>
    obtain ⟨c, w⟩ := p
    by_cases h : a.key < c.key
    · simp [Memory.insert, Memory.get, h, hab]
    · simp only [Memory.insert, h, if_false, Memory.get, ih]

theorem Memory.get_insert_same (m : Memory) (a : Addr) (v : Word) (h : ∀ p ∈ m, p.1 ≠ a) :
    (m.insert a v).get a = v := by
  induction m with
  | nil => simp [Memory.insert, Memory.get]
  | cons p m ih =>
    obtain ⟨c, w⟩ := p
    have hca : c ≠ a := h (c, w) (by simp)
    have ih := ih fun q hq => h q (List.mem_cons_of_mem _ hq)
    by_cases hk : a.key < c.key <;> simp [Memory.insert, Memory.get, hk, hca, ih]

theorem Memory.ne_of_mem_erase {m : Memory} {a : Addr} {p : Addr × Word} (h : p ∈ m.erase a) : p.1 ≠ a := by
  simpa using (List.mem_filter.1 h).2

/-- The sample written is the sample read (R33). -/
@[simp] theorem Memory.get_set_same (m : Memory) (a : Addr) (v : Word) : (m.set a v).get a = v := by
  unfold Memory.set
  split
  · next h => rw [Memory.get_erase_same, h]
  · exact Memory.get_insert_same _ _ _ fun p hp => Memory.ne_of_mem_erase hp

/-- A write leaves every other sample alone (R33). -/
theorem Memory.get_set_ne (m : Memory) {a b : Addr} (v : Word) (hab : a ≠ b) : (m.set a v).get b = m.get b := by
  unfold Memory.set
  split
  · exact Memory.get_erase_ne m hab
  · rw [Memory.get_insert_ne _ _ hab, Memory.get_erase_ne m hab]

/-! ## The canonical form -/

/-- Two memories that agree at an address, but perhaps where both are written, agree there after the write. -/
theorem Memory.get_set_congr {m n : Memory} (a : Addr) (v : Word) {b : Addr} (h : a ≠ b → m.get b = n.get b) :
    (m.set a v).get b = (n.set a v).get b := by
  by_cases hab : a = b
  · subst hab
    rw [Memory.get_set_same, Memory.get_set_same]
  · rw [Memory.get_set_ne _ _ hab, Memory.get_set_ne _ _ hab, h hab]

theorem Memory.wf_nil : Memory.wf [] := by decide

theorem Memory.wf_erase {m : Memory} (h : Memory.wf m) (a : Addr) : Memory.wf (m.erase a) :=
  ⟨h.1.filter _, fun p hp => h.2 p (List.mem_filter.1 hp).1⟩

theorem Memory.mem_insert {m : Memory} {a : Addr} {v : Word} {p : Addr × Word} (h : p ∈ m.insert a v) :
    p = (a, v) ∨ p ∈ m := by
  induction m with
  | nil => simpa [Memory.insert] using h
  | cons q m ih =>
    by_cases hk : a.key < q.1.key
    · simpa [Memory.insert, hk] using h
    · simp only [Memory.insert, hk, if_false, List.mem_cons] at h
      rcases h with rfl | h
      · simp
      · rcases ih h with h | h <;> simp [h]

theorem Memory.wf_insert {m : Memory} (h : Memory.wf m) {a : Addr} {v : Word} (hv : v ≠ 0)
    (ha : ∀ p ∈ m, p.1 ≠ a) : Memory.wf (m.insert a v) := by
  refine ⟨?_, ?_⟩
  · obtain ⟨hs, hz⟩ := h
    induction m with
    | nil => simp [Memory.insert]
    | cons q m ih =>
      rw [List.pairwise_cons] at hs
      by_cases hk : a.key < q.1.key
      · simp only [Memory.insert, hk, if_true, List.pairwise_cons]
        refine ⟨?_, hs⟩
        intro p hp
        rcases List.mem_cons.1 hp with rfl | hp
        · exact hk
        · exact lt_trans hk (hs.1 p hp)
      · simp only [Memory.insert, hk, if_false, List.pairwise_cons]
        refine ⟨?_, ih (fun p hp => ha p (List.mem_cons_of_mem _ hp)) hs.2
          fun p hp => hz p (List.mem_cons_of_mem _ hp)⟩
        intro p hp
        rcases Memory.mem_insert hp with rfl | hp
        · have hne : q.1.key ≠ a.key := fun he => ha q (by simp) (Addr.key_inj he)
          have : ¬ a.key < q.1.key := hk
          simp only
          omega
        · exact hs.1 p hp
  · intro p hp
    rcases Memory.mem_insert hp with rfl | hp
    · exact hv
    · exact h.2 p hp

/-- A write keeps the canonical form. -/
theorem Memory.wf_set {m : Memory} (h : Memory.wf m) (a : Addr) (v : Word) : Memory.wf (m.set a v) := by
  unfold Memory.set
  split
  · exact Memory.wf_erase h a
  · next hv => exact Memory.wf_insert (Memory.wf_erase h a) hv fun p hp => Memory.ne_of_mem_erase hp

theorem Memory.wf_foldl_set (l : List (Addr × Word)) {m : Memory} (h : Memory.wf m) :
    Memory.wf (l.foldl (fun m p => m.set p.1 p.2) m) := by
  induction l generalizing m with
  | nil => exact h
  | cons p l ih => exact ih (Memory.wf_set h p.1 p.2)

/-- A sample space made from a list has the canonical form. -/
theorem Memory.wf_ofList (l : List (Addr × Word)) : Memory.wf (Memory.ofList l) :=
  Memory.wf_foldl_set l Memory.wf_nil

theorem State.reset_memory_wf : Memory.wf State.reset.input ∧ Memory.wf State.reset.output := by decide

end Sys2Proof.Machine
end

