-- ==== Sys2Proof/Laws/State.lean ====
section
/-! SUPPORT. One lemma for each field and each writer of `State`, so that no proof unfolds a record update. -/

namespace Sys2Proof.Machine

variable (s : State)

@[simp] theorem State.setEngine_engine (e : EngineState) : (s.setEngine e).engine = e := rfl
@[simp] theorem State.setEngine_lp (e : EngineState) : (s.setEngine e).lp = s.lp := rfl
@[simp] theorem State.setEngine_hp (e : EngineState) : (s.setEngine e).hp = s.hp := rfl
@[simp] theorem State.setEngine_frameIdx (e : EngineState) : (s.setEngine e).frameIdx = s.frameIdx := rfl
@[simp] theorem State.setEngine_frames (e : EngineState) : (s.setEngine e).frames = s.frames := rfl
@[simp] theorem State.setEngine_input (e : EngineState) : (s.setEngine e).input = s.input := rfl
@[simp] theorem State.setEngine_output (e : EngineState) : (s.setEngine e).output = s.output := rfl
@[simp] theorem State.setEngine_inPlace (e : EngineState) : (s.setEngine e).inPlace = s.inPlace := rfl
@[simp] theorem State.setEngine_accesses (e : EngineState) : (s.setEngine e).accesses = s.accesses := rfl
@[simp] theorem State.setEngine_responses (e : EngineState) : (s.setEngine e).responses = s.responses := rfl
@[simp] theorem State.setEngine_run (e : EngineState) : (s.setEngine e).run = s.run := rfl

@[simp] theorem State.setLp_engine (f : Filter) : (s.setLp f).engine = s.engine := rfl
@[simp] theorem State.setLp_lp (f : Filter) : (s.setLp f).lp = f := rfl
@[simp] theorem State.setLp_hp (f : Filter) : (s.setLp f).hp = s.hp := rfl
@[simp] theorem State.setLp_frameIdx (f : Filter) : (s.setLp f).frameIdx = s.frameIdx := rfl
@[simp] theorem State.setLp_frames (f : Filter) : (s.setLp f).frames = s.frames := rfl
@[simp] theorem State.setLp_input (f : Filter) : (s.setLp f).input = s.input := rfl
@[simp] theorem State.setLp_output (f : Filter) : (s.setLp f).output = s.output := rfl
@[simp] theorem State.setLp_inPlace (f : Filter) : (s.setLp f).inPlace = s.inPlace := rfl
@[simp] theorem State.setLp_accesses (f : Filter) : (s.setLp f).accesses = s.accesses := rfl
@[simp] theorem State.setLp_responses (f : Filter) : (s.setLp f).responses = s.responses := rfl
@[simp] theorem State.setLp_run (f : Filter) : (s.setLp f).run = s.run := rfl

@[simp] theorem State.setHp_engine (f : Filter) : (s.setHp f).engine = s.engine := rfl
@[simp] theorem State.setHp_lp (f : Filter) : (s.setHp f).lp = s.lp := rfl
@[simp] theorem State.setHp_hp (f : Filter) : (s.setHp f).hp = f := rfl
@[simp] theorem State.setHp_frameIdx (f : Filter) : (s.setHp f).frameIdx = s.frameIdx := rfl
@[simp] theorem State.setHp_frames (f : Filter) : (s.setHp f).frames = s.frames := rfl
@[simp] theorem State.setHp_input (f : Filter) : (s.setHp f).input = s.input := rfl
@[simp] theorem State.setHp_output (f : Filter) : (s.setHp f).output = s.output := rfl
@[simp] theorem State.setHp_inPlace (f : Filter) : (s.setHp f).inPlace = s.inPlace := rfl
@[simp] theorem State.setHp_accesses (f : Filter) : (s.setHp f).accesses = s.accesses := rfl
@[simp] theorem State.setHp_responses (f : Filter) : (s.setHp f).responses = s.responses := rfl
@[simp] theorem State.setHp_run (f : Filter) : (s.setHp f).run = s.run := rfl

@[simp] theorem State.setFrameIdx_engine (i : FrameIndex) : (s.setFrameIdx i).engine = s.engine := rfl
@[simp] theorem State.setFrameIdx_lp (i : FrameIndex) : (s.setFrameIdx i).lp = s.lp := rfl
@[simp] theorem State.setFrameIdx_hp (i : FrameIndex) : (s.setFrameIdx i).hp = s.hp := rfl
@[simp] theorem State.setFrameIdx_frameIdx (i : FrameIndex) : (s.setFrameIdx i).frameIdx = i := rfl
@[simp] theorem State.setFrameIdx_frames (i : FrameIndex) : (s.setFrameIdx i).frames = s.frames := rfl
@[simp] theorem State.setFrameIdx_input (i : FrameIndex) : (s.setFrameIdx i).input = s.input := rfl
@[simp] theorem State.setFrameIdx_output (i : FrameIndex) : (s.setFrameIdx i).output = s.output := rfl
@[simp] theorem State.setFrameIdx_inPlace (i : FrameIndex) : (s.setFrameIdx i).inPlace = s.inPlace := rfl
@[simp] theorem State.setFrameIdx_accesses (i : FrameIndex) : (s.setFrameIdx i).accesses = s.accesses := rfl
@[simp] theorem State.setFrameIdx_responses (i : FrameIndex) : (s.setFrameIdx i).responses = s.responses := rfl
@[simp] theorem State.setFrameIdx_run (i : FrameIndex) : (s.setFrameIdx i).run = s.run := rfl

@[simp] theorem State.logAccess_engine (a : Access) : (s.logAccess a).engine = s.engine := rfl
@[simp] theorem State.logAccess_lp (a : Access) : (s.logAccess a).lp = s.lp := rfl
@[simp] theorem State.logAccess_hp (a : Access) : (s.logAccess a).hp = s.hp := rfl
@[simp] theorem State.logAccess_frameIdx (a : Access) : (s.logAccess a).frameIdx = s.frameIdx := rfl
@[simp] theorem State.logAccess_frames (a : Access) : (s.logAccess a).frames = s.frames := rfl
@[simp] theorem State.logAccess_input (a : Access) : (s.logAccess a).input = s.input := rfl
@[simp] theorem State.logAccess_output (a : Access) : (s.logAccess a).output = s.output := rfl
@[simp] theorem State.logAccess_inPlace (a : Access) : (s.logAccess a).inPlace = s.inPlace := rfl
@[simp] theorem State.logAccess_accesses (a : Access) : (s.logAccess a).accesses = s.accesses ++ [a] := rfl
@[simp] theorem State.logAccess_responses (a : Access) : (s.logAccess a).responses = s.responses := rfl
@[simp] theorem State.logAccess_run (a : Access) : (s.logAccess a).run = s.run := rfl

@[simp] theorem State.deliver_engine (r : Response) : (s.deliver r).engine = s.engine := rfl
@[simp] theorem State.deliver_lp (r : Response) : (s.deliver r).lp = s.lp := rfl
@[simp] theorem State.deliver_hp (r : Response) : (s.deliver r).hp = s.hp := rfl
@[simp] theorem State.deliver_frameIdx (r : Response) : (s.deliver r).frameIdx = s.frameIdx := rfl
@[simp] theorem State.deliver_frames (r : Response) : (s.deliver r).frames = s.frames := rfl
@[simp] theorem State.deliver_input (r : Response) : (s.deliver r).input = s.input := rfl
@[simp] theorem State.deliver_output (r : Response) : (s.deliver r).output = s.output := rfl
@[simp] theorem State.deliver_inPlace (r : Response) : (s.deliver r).inPlace = s.inPlace := rfl
@[simp] theorem State.deliver_accesses (r : Response) : (s.deliver r).accesses = s.accesses := rfl
@[simp] theorem State.deliver_responses (r : Response) : (s.deliver r).responses = s.responses ++ [r] := rfl
@[simp] theorem State.deliver_run (r : Response) : (s.deliver r).run = s.run := rfl

@[simp] theorem State.setRun_engine (es : List HostEvent) : (s.setRun es).engine = s.engine := rfl
@[simp] theorem State.setRun_lp (es : List HostEvent) : (s.setRun es).lp = s.lp := rfl
@[simp] theorem State.setRun_hp (es : List HostEvent) : (s.setRun es).hp = s.hp := rfl
@[simp] theorem State.setRun_frameIdx (es : List HostEvent) : (s.setRun es).frameIdx = s.frameIdx := rfl
@[simp] theorem State.setRun_frames (es : List HostEvent) : (s.setRun es).frames = s.frames := rfl
@[simp] theorem State.setRun_input (es : List HostEvent) : (s.setRun es).input = s.input := rfl
@[simp] theorem State.setRun_output (es : List HostEvent) : (s.setRun es).output = s.output := rfl
@[simp] theorem State.setRun_inPlace (es : List HostEvent) : (s.setRun es).inPlace = s.inPlace := rfl
@[simp] theorem State.setRun_accesses (es : List HostEvent) : (s.setRun es).accesses = s.accesses := rfl
@[simp] theorem State.setRun_responses (es : List HostEvent) : (s.setRun es).responses = s.responses := rfl
@[simp] theorem State.setRun_run (es : List HostEvent) : (s.setRun es).run = es := rfl

@[simp] theorem State.storeSample_engine (a : Addr) (v : Word) : (s.storeSample a v).engine = s.engine := rfl
@[simp] theorem State.storeSample_lp (a : Addr) (v : Word) : (s.storeSample a v).lp = s.lp := rfl
@[simp] theorem State.storeSample_hp (a : Addr) (v : Word) : (s.storeSample a v).hp = s.hp := rfl
@[simp] theorem State.storeSample_frameIdx (a : Addr) (v : Word) : (s.storeSample a v).frameIdx = s.frameIdx := rfl
@[simp] theorem State.storeSample_frames (a : Addr) (v : Word) : (s.storeSample a v).frames = s.frames := rfl
@[simp] theorem State.storeSample_input (a : Addr) (v : Word) : (s.storeSample a v).input = if s.inPlace then s.input.set a v else s.input := rfl
@[simp] theorem State.storeSample_output (a : Addr) (v : Word) : (s.storeSample a v).output = s.output.set a v := rfl
@[simp] theorem State.storeSample_inPlace (a : Addr) (v : Word) : (s.storeSample a v).inPlace = s.inPlace := rfl
@[simp] theorem State.storeSample_accesses (a : Addr) (v : Word) : (s.storeSample a v).accesses = s.accesses := rfl
@[simp] theorem State.storeSample_responses (a : Addr) (v : Word) : (s.storeSample a v).responses = s.responses := rfl
@[simp] theorem State.storeSample_run (a : Addr) (v : Word) : (s.storeSample a v).run = s.run := rfl

@[simp] theorem State.takeBuffers_engine (n : Nat) (p : Bool) (i o : List (Addr × Word)) : (s.takeBuffers n p i o).engine = s.engine := rfl
@[simp] theorem State.takeBuffers_lp (n : Nat) (p : Bool) (i o : List (Addr × Word)) : (s.takeBuffers n p i o).lp = s.lp := rfl
@[simp] theorem State.takeBuffers_hp (n : Nat) (p : Bool) (i o : List (Addr × Word)) : (s.takeBuffers n p i o).hp = s.hp := rfl
@[simp] theorem State.takeBuffers_frameIdx (n : Nat) (p : Bool) (i o : List (Addr × Word)) : (s.takeBuffers n p i o).frameIdx = s.frameIdx := rfl
@[simp] theorem State.takeBuffers_frames (n : Nat) (p : Bool) (i o : List (Addr × Word)) : (s.takeBuffers n p i o).frames = n := rfl
@[simp] theorem State.takeBuffers_input (n : Nat) (p : Bool) (i o : List (Addr × Word)) : (s.takeBuffers n p i o).input = Memory.ofList i := rfl
@[simp] theorem State.takeBuffers_output (n : Nat) (p : Bool) (i o : List (Addr × Word)) : (s.takeBuffers n p i o).output = Memory.ofList (if p then i else o) := rfl
@[simp] theorem State.takeBuffers_inPlace (n : Nat) (p : Bool) (i o : List (Addr × Word)) : (s.takeBuffers n p i o).inPlace = p := rfl
@[simp] theorem State.takeBuffers_accesses (n : Nat) (p : Bool) (i o : List (Addr × Word)) : (s.takeBuffers n p i o).accesses = s.accesses := rfl
@[simp] theorem State.takeBuffers_responses (n : Nat) (p : Bool) (i o : List (Addr × Word)) : (s.takeBuffers n p i o).responses = s.responses := rfl
@[simp] theorem State.takeBuffers_run (n : Nat) (p : Bool) (i o : List (Addr × Word)) : (s.takeBuffers n p i o).run = s.run := rfl

@[simp] theorem respondOk_engine (l : Lanes) : (respondOk l s).engine = s.engine := rfl
@[simp] theorem respondOk_lp (l : Lanes) : (respondOk l s).lp = s.lp := rfl
@[simp] theorem respondOk_hp (l : Lanes) : (respondOk l s).hp = s.hp := rfl
@[simp] theorem respondOk_frameIdx (l : Lanes) : (respondOk l s).frameIdx = s.frameIdx := rfl
@[simp] theorem respondOk_frames (l : Lanes) : (respondOk l s).frames = s.frames := rfl
@[simp] theorem respondOk_input (l : Lanes) : (respondOk l s).input = s.input := rfl
@[simp] theorem respondOk_output (l : Lanes) : (respondOk l s).output = s.output := rfl
@[simp] theorem respondOk_inPlace (l : Lanes) : (respondOk l s).inPlace = s.inPlace := rfl
@[simp] theorem respondOk_accesses (l : Lanes) : (respondOk l s).accesses = s.accesses := rfl
@[simp] theorem respondOk_responses (l : Lanes) : (respondOk l s).responses = s.responses ++ [responseOf .ok s.engine l] := rfl
@[simp] theorem respondOk_run (l : Lanes) : (respondOk l s).run = s.run := rfl

@[simp] theorem raiseStatus_engine (c : Status) : (raiseStatus c s).engine = s.engine := rfl
@[simp] theorem raiseStatus_lp (c : Status) : (raiseStatus c s).lp = s.lp := rfl
@[simp] theorem raiseStatus_hp (c : Status) : (raiseStatus c s).hp = s.hp := rfl
@[simp] theorem raiseStatus_frameIdx (c : Status) : (raiseStatus c s).frameIdx = s.frameIdx := rfl
@[simp] theorem raiseStatus_frames (c : Status) : (raiseStatus c s).frames = s.frames := rfl
@[simp] theorem raiseStatus_input (c : Status) : (raiseStatus c s).input = s.input := rfl
@[simp] theorem raiseStatus_output (c : Status) : (raiseStatus c s).output = s.output := rfl
@[simp] theorem raiseStatus_inPlace (c : Status) : (raiseStatus c s).inPlace = s.inPlace := rfl
@[simp] theorem raiseStatus_accesses (c : Status) : (raiseStatus c s).accesses = s.accesses := rfl
@[simp] theorem raiseStatus_responses (c : Status) : (raiseStatus c s).responses = s.responses ++ [responseOf c s.engine Lanes.zero] := rfl
@[simp] theorem raiseStatus_run (c : Status) : (raiseStatus c s).run = s.run := rfl

@[simp] theorem resetEngine_engine : (resetEngine s).engine = .uninitialized := rfl
@[simp] theorem resetEngine_lp : (resetEngine s).lp = Filter.unset := rfl
@[simp] theorem resetEngine_hp : (resetEngine s).hp = Filter.unset := rfl
@[simp] theorem resetEngine_frameIdx : (resetEngine s).frameIdx = s.frameIdx := rfl
@[simp] theorem resetEngine_frames : (resetEngine s).frames = s.frames := rfl
@[simp] theorem resetEngine_input : (resetEngine s).input = s.input := rfl
@[simp] theorem resetEngine_output : (resetEngine s).output = s.output := rfl
@[simp] theorem resetEngine_inPlace : (resetEngine s).inPlace = s.inPlace := rfl
@[simp] theorem resetEngine_accesses : (resetEngine s).accesses = s.accesses := rfl
@[simp] theorem resetEngine_responses : (resetEngine s).responses = s.responses := rfl
@[simp] theorem resetEngine_run : (resetEngine s).run = s.run := rfl

end Sys2Proof.Machine
end

