-- ==== Sys2Proof/Laws/Engine.lean ====
section
/-! SUPPORT. What each shared operation of the engine can do, said once: the register reads, the filter, the frame,
the loop of `PBUF`. A proof cites these and unfolds none of the operations. -/

namespace Sys2Proof.Machine

/-! ## Registers -/

theorem readReg_eq_ok {r : Reg} {w : Word} : readReg r = .ok w ↔ r = .word w := by
  cases r <;> simp [readReg]

theorem Filter.holding_inj {c c' : Coeffs} {d d' : Delay} :
    Filter.holding c d = Filter.holding c' d' ↔ c = c' ∧ d = d' := by
  obtain ⟨a0, a1, a2, b1, b2⟩ := c
  obtain ⟨a0', a1', a2', b1', b2'⟩ := c'
  obtain ⟨x1, x2, y1, y2⟩ := d
  obtain ⟨x1', x2', y1', y2'⟩ := d'
  simp only [Filter.holding, Filter.mk.injEq, Reg.word.injEq, Coeffs.mk.injEq, Delay.mk.injEq]
  tauto

theorem Filter.holding_ne_unset (c : Coeffs) (d : Delay) : Filter.holding c d ≠ Filter.unset := by
  simp [Filter.holding, Filter.unset]

/-- No register of a filter that holds words is `UNSET`. -/
theorem Filter.ne_unset_of_mem_holding {c : Coeffs} {d : Delay} {r : Reg} (h : r ∈ (Filter.holding c d).regs) :
    r ≠ .unset := by
  simp only [Filter.regs, Filter.holding, List.mem_cons, List.not_mem_nil, or_false] at h
  rcases h with h | h | h | h | h | h | h | h | h <;> simp [h]

/-! ## The filter (R93 to R96) -/

/-- What `BQ_PROCESS` can do: it ends just on a filter whose nine registers hold words (R20, R95). -/
theorem bqProcess_eq_ok {f f' : Filter} {x y : Word} : bqProcess f x = .ok (y, f') ↔
    ∃ c d, f = Filter.holding c d ∧ y = bqOutput c d x ∧ f' = Filter.holding c (nextDelay c d x) := by
  constructor
  · intro h
    obtain ⟨a0, a1, a2, b1, b2, x1, x2, y1, y2⟩ := f
    cases a0 with
    | unset => cases h
    | word a0 =>
    cases a1 with
    | unset => cases h
    | word a1 =>
    cases a2 with
    | unset => cases h
    | word a2 =>
    cases b1 with
    | unset => cases h
    | word b1 =>
    cases b2 with
    | unset => cases h
    | word b2 =>
    cases x1 with
    | unset => cases h
    | word x1 =>
    cases x2 with
    | unset => cases h
    | word x2 =>
    cases y1 with
    | unset => cases h
    | word y1 =>
    cases y2 with
    | unset => cases h
    | word y2 =>
    cases h
    exact ⟨⟨a0, a1, a2, b1, b2⟩, ⟨x1, x2, y1, y2⟩, rfl, rfl, rfl⟩
  · rintro ⟨c, d, rfl, rfl, rfl⟩
    rfl

/-- The only way for `BQ_PROCESS` to stop is a register that is `UNSET` (R20). -/
theorem bqProcess_eq_error {f : Filter} {x : Word} {e : Fault} (h : bqProcess f x = .error e) : e = .unsetRead := by
  cases e with
  | unsetRead => rfl
  | noInputSample =>
    exfalso
    obtain ⟨a0, a1, a2, b1, b2, x1, x2, y1, y2⟩ := f
    revert h
    cases a0 <;> cases a1 <;> cases a2 <;> cases b1 <;> cases b2 <;> cases x1 <;> cases x2 <;> cases y1 <;>
      cases y2 <;> (intro h; cases h)
  | noOutputSample =>
    exfalso
    obtain ⟨a0, a1, a2, b1, b2, x1, x2, y1, y2⟩ := f
    revert h
    cases a0 <;> cases a1 <;> cases a2 <;> cases b1 <;> cases b2 <;> cases x1 <;> cases x2 <;> cases y1 <;>
      cases y2 <;> (intro h; cases h)

/-! ## Lists of samples -/

theorem delayAfter_append (c : Coeffs) (d : Delay) (xs ys : List Word) :
    delayAfter c d (xs ++ ys) = delayAfter c (delayAfter c d xs) ys := by
  induction xs generalizing d with
  | nil => rfl
  | cons x xs ih => exact ih _

theorem filterOutputs_append (c : Coeffs) (d : Delay) (xs ys : List Word) :
    filterOutputs c d (xs ++ ys) = filterOutputs c d xs ++ filterOutputs c (delayAfter c d xs) ys := by
  induction xs generalizing d with
  | nil => rfl
  | cons x xs ih => exact congrArg _ (ih _)

theorem length_filterOutputs (c : Coeffs) (d : Delay) (xs : List Word) :
    (filterOutputs c d xs).length = xs.length := by
  induction xs generalizing d with
  | nil => rfl
  | cons x xs ih => exact congrArg (· + 1) (ih _)

/-- The mixed sample of one frame of the input buffer (R105). -/
def State.mono (s : State) (i : Nat) : Word := mixf (s.inputFrame i).1 (s.inputFrame i).2

theorem State.monos_eq (s : State) (n : Nat) : s.monos n = (List.range n).map s.mono := by
  simp only [State.monos, State.inputFrames, List.map_map]
  rfl

theorem State.monos_succ (s : State) (n : Nat) : s.monos (n + 1) = s.monos n ++ [s.mono n] := by
  simp [State.monos_eq, List.range_succ]

/-- The output of a filter for frame `i` of the input buffer, the delay line being `d` at frame 0. -/
def State.outputAt (s : State) (c : Coeffs) (d : Delay) (i : Nat) : Word :=
  bqOutput c (delayAfter c d (s.monos i)) (s.mono i)

theorem State.filterOutputs_monos (s : State) (c : Coeffs) (d : Delay) (n : Nat) :
    filterOutputs c d (s.monos n) = (List.range n).map (s.outputAt c d) := by
  induction n with
  | zero => rfl
  | succ n ih =>
    rw [State.monos_succ, filterOutputs_append, ih, List.range_succ, List.map_append]
    rfl

theorem State.delayAfter_monos_succ (s : State) (c : Coeffs) (d : Delay) (n : Nat) :
    delayAfter c d (s.monos (n + 1)) = nextDelay c (delayAfter c d (s.monos n)) (s.mono n) := by
  rw [State.monos_succ, delayAfter_append]
  rfl

/-! ## One frame (R105) -/

/-- What the per-frame function can do: both filters must hold words; it answers both outputs of the mix. -/
theorem frame_eq_ok {l r low high : Word} {s t : State} : frame l r s = .ok (low, high, t) ↔
    ∃ cl dl ch dh, s.lp = Filter.holding cl dl ∧ s.hp = Filter.holding ch dh ∧
      low = bqOutput cl dl (mixf l r) ∧ high = bqOutput ch dh (mixf l r) ∧
      t = (s.setLp (Filter.holding cl (nextDelay cl dl (mixf l r)))).setHp
        (Filter.holding ch (nextDelay ch dh (mixf l r))) := by
  constructor
  · intro h
    rcases hl : bqProcess s.lp (mixf l r) with e | ⟨y, f⟩
    · simp only [frame, hl] at h
      cases h
    · rcases hh : bqProcess s.hp (mixf l r) with e | ⟨z, g⟩
      · have hh' : bqProcess (s.setLp f).hp (mixf l r) = .error e := hh
        simp only [frame, hl, bind, Except.bind, hh'] at h
        cases h
      · have hh' : bqProcess (s.setLp f).hp (mixf l r) = .ok (z, g) := hh
        simp only [frame, hl, bind, Except.bind, hh'] at h
        cases h
        obtain ⟨cl, dl, h1, h2, h3⟩ := bqProcess_eq_ok.1 hl
        obtain ⟨ch, dh, h4, h5, h6⟩ := bqProcess_eq_ok.1 hh
        exact ⟨cl, dl, ch, dh, h1, h4, h2, h5, by rw [h3, h6]⟩
  · rintro ⟨cl, dl, ch, dh, h1, h2, rfl, rfl, rfl⟩
    have hl : bqProcess s.lp (mixf l r) = .ok (_, _) := bqProcess_eq_ok.2 ⟨cl, dl, h1, rfl, rfl⟩
    have hh : bqProcess (s.setLp (Filter.holding cl (nextDelay cl dl (mixf l r)))).hp (mixf l r) = .ok (_, _) :=
      bqProcess_eq_ok.2 ⟨ch, dh, h2, rfl, rfl⟩
    simp only [frame, hl, bind, Except.bind, hh]
    rfl

/-- The only way for the per-frame function to stop is a register that is `UNSET` (R20). -/
theorem frame_eq_error {l r : Word} {s : State} {e : Fault} (h : frame l r s = .error e) : e = .unsetRead := by
  rcases hl : bqProcess s.lp (mixf l r) with e' | ⟨y, f⟩
  · simp only [frame, hl] at h
    cases h
    exact bqProcess_eq_error hl
  · rcases hh : bqProcess (s.setLp f).hp (mixf l r) with e' | ⟨z, g⟩
    · simp only [frame, hl, bind, Except.bind, hh] at h
      cases h
      exact bqProcess_eq_error hh
    · simp only [frame, hl, bind, Except.bind, hh] at h
      cases h

/-! ## One iteration of the loop (R37, R109) -/

/-- The state after one iteration at frame `FRAME_IDX` that gave the two outputs and the two filters. -/
def State.framed (s : State) (lp hp : Filter) (low high : Word) : State :=
  let s1 := s.logAccess (.read ⟨s.frameIdx, 0⟩ (s.input.get ⟨s.frameIdx, 0⟩))
  let s2 := s1.logAccess (.read ⟨s.frameIdx, 1⟩ (s.input.get ⟨s.frameIdx, 1⟩))
  let s3 := (s2.setLp lp).setHp hp
  let s4 := (s3.storeSample ⟨s.frameIdx, 0⟩ low).logAccess (.write ⟨s.frameIdx, 0⟩ low)
  let s5 := (s4.storeSample ⟨s.frameIdx, 1⟩ high).logAccess (.write ⟨s.frameIdx, 1⟩ high)
  s5.setFrameIdx (s.frameIdx + 1)

theorem State.framed_output (s : State) (lp hp : Filter) (low high : Word) :
    (s.framed lp hp low high).output =
      (s.output.set ⟨s.frameIdx, 0⟩ low).set ⟨s.frameIdx, 1⟩ high := rfl

theorem State.framed_input (s : State) (lp hp : Filter) (low high : Word) :
    (s.framed lp hp low high).input =
      if s.inPlace then (s.input.set ⟨s.frameIdx, 0⟩ low).set ⟨s.frameIdx, 1⟩ high else s.input := by
  cases h : s.inPlace <;> simp [State.framed, State.storeSample, h]

/-- What one iteration can do. Channels 0 and 1 exist on every platform (R44), so the frame index alone decides
whether the samples do. -/
theorem pbufFrame_eq {s : State} {cl ch : Coeffs} {dl dh : Delay} {l r : Word}
    (hl : s.lp = Filter.holding cl dl) (hh : s.hp = Filter.holding ch dh)
    (hr0 : s.input.get ⟨s.frameIdx, 0⟩ = l) (hr1 : s.input.get ⟨s.frameIdx, 1⟩ = r) :
    pbufFrame s =
      if s.frameIdx.toNat < s.frames then
        .ok (s.framed (Filter.holding cl (nextDelay cl dl (mixf l r)))
          (Filter.holding ch (nextDelay ch dh (mixf l r)))
          (bqOutput cl dl (mixf l r)) (bqOutput ch dh (mixf l r)))
      else .error .noInputSample := by
  split
  · next hlt =>
    have hin : ∀ c < 2, ∀ t : State, t.frames = s.frames → t.providesInput ⟨s.frameIdx, c⟩ = true := by
      intro c hc t ht
      have : c < Config.nin := by unfold Config.nin; omega
      simp [State.providesInput, ht, hlt, this]
    have hout : ∀ c < 2, ∀ t : State, t.frames = s.frames → t.providesOutput ⟨s.frameIdx, c⟩ = true := by
      intro c hc t ht
      have : c < Config.nout := by unfold Config.nout; omega
      simp [State.providesOutput, ht, hlt, this]
    have hframe : ∀ t : State, t.lp = s.lp → t.hp = s.hp → frame l r t = .ok (_, _, _) := fun t h1 h2 =>
      frame_eq_ok.2 ⟨cl, dl, ch, dh, h1.trans hl, h2.trans hh, rfl, rfl, rfl⟩
    simp only [pbufFrame, readSample, writeSample, bind, Except.bind, pure, Except.pure]
    rw [if_pos (hin 0 (by omega) _ rfl)]
    simp only
    rw [if_pos (hin 1 (by omega) _ (by simp))]
    simp only [State.logAccess_input, hr0, hr1]
    rw [hframe _ (by simp) (by simp)]
    simp only
    rw [if_pos (hout 0 (by omega) _ (by simp))]
    simp only
    rw [if_pos (hout 1 (by omega) _ (by simp [State.storeSample]))]
    simp only [State.framed, hr0, hr1]
  · next hge =>
    have : s.providesInput ⟨s.frameIdx, 0⟩ = false := by simp [State.providesInput, hge]
    simp only [pbufFrame, readSample, this]
    rfl

/-! ## The loop (R109) -/

/-- `t` is the state after the first `k` frames of the buffers of `s`, from `FRAME_IDX` 0 (R35, R37, R105). -/
structure State.Processed (s : State) (cl : Coeffs) (dl : Delay) (ch : Coeffs) (dh : Delay) (k : Nat)
    (t : State) : Prop where
  engine : t.engine = s.engine
  lp : t.lp = Filter.holding cl (delayAfter cl dl (s.monos k))
  hp : t.hp = Filter.holding ch (delayAfter ch dh (s.monos k))
  frameIdx : t.frameIdx = BitVec.ofNat 24 k
  frames : t.frames = s.frames
  inPlace : t.inPlace = s.inPlace
  responses : t.responses = s.responses
  run : t.run = s.run
  accesses : t.accesses = s.accesses ++ (List.range k).flatMap fun i =>
    frameAccesses (BitVec.ofNat 24 i) (s.inputFrame i).1 (s.inputFrame i).2 (s.outputAt cl dl i) (s.outputAt ch dh i)
  low : ∀ i < k, t.output.get ⟨BitVec.ofNat 24 i, 0⟩ = s.outputAt cl dl i
  high : ∀ i < k, t.output.get ⟨BitVec.ofNat 24 i, 1⟩ = s.outputAt ch dh i
  output : ∀ a : Addr, ¬ (a.frame.toNat < k ∧ a.channel < 2) → t.output.get a = s.output.get a
  input : ∀ a : Addr, ¬ (a.frame.toNat < k ∧ a.channel < 2) → t.input.get a = s.input.get a
  distinct : s.inPlace = false → t.input = s.input
  shared : s.inPlace = true → ∀ a : Addr, a.frame.toNat < k → a.channel < 2 → t.input.get a = t.output.get a
  oneContent : s.inPlace = true → s.input = s.output → t.input = t.output
  inputWf : s.input.wf → t.input.wf
  outputWf : s.output.wf → t.output.wf

theorem State.processed_zero {s : State} {cl ch : Coeffs} {dl dh : Delay} (hl : s.lp = Filter.holding cl dl)
    (hh : s.hp = Filter.holding ch dh) (hi : s.frameIdx = 0) : s.Processed cl dl ch dh 0 s where
  engine := rfl
  lp := hl
  hp := hh
  frameIdx := hi
  frames := rfl
  inPlace := rfl
  responses := rfl
  run := rfl
  accesses := by simp
  low := by simp
  high := by simp
  output := fun _ _ => rfl
  input := fun _ _ => rfl
  distinct := fun _ => rfl
  shared := fun _ _ h => absurd h (Nat.not_lt_zero _)
  oneContent := fun _ h => h
  inputWf := id
  outputWf := id

/-- One more frame. -/
theorem State.Processed.succ {s t : State} {cl ch : Coeffs} {dl dh : Delay} {k : Nat}
    (h : s.Processed cl dl ch dh k t) (hk : k + 1 < 2 ^ 24) (hf : k < s.frames) :
    ∃ t', pbufFrame t = .ok t' ∧ s.Processed cl dl ch dh (k + 1) t' := by
  have hidx : t.frameIdx.toNat = k := by rw [h.frameIdx, BitVec.toNat_ofNat, Nat.mod_eq_of_lt (by omega)]
  have hin : ∀ c, t.input.get ⟨t.frameIdx, c⟩ = s.input.get ⟨BitVec.ofNat 24 k, c⟩ := fun c => by
    rw [h.input _ (by simp [hidx]), h.frameIdx]
  have hstep := pbufFrame_eq h.lp h.hp (hin 0) (hin 1)
  rw [if_pos (by rw [hidx, h.frames]; exact hf)] at hstep
  refine ⟨_, hstep, ?_⟩
  have hmono : mixf (s.input.get ⟨BitVec.ofNat 24 k, 0⟩) (s.input.get ⟨BitVec.ofNat 24 k, 1⟩) = s.mono k := rfl
  rw [hmono]
  have hne : ∀ a : Addr, ¬ (a.frame.toNat < k + 1 ∧ a.channel < 2) →
      (⟨t.frameIdx, 0⟩ : Addr) ≠ a ∧ (⟨t.frameIdx, 1⟩ : Addr) ≠ a := by
    intro a ha
    constructor <;> (rintro rfl; exact ha ⟨by simp only [hidx]; omega, by simp⟩)
  have hold : ∀ a : Addr, ¬ (a.frame.toNat < k + 1 ∧ a.channel < 2) → ¬ (a.frame.toNat < k ∧ a.channel < 2) :=
    fun a ha hb => ha ⟨by omega, hb.2⟩
  have h01 : (⟨t.frameIdx, 1⟩ : Addr) ≠ ⟨t.frameIdx, 0⟩ := by simp
  have hprev : ∀ i < k, ∀ c c', (⟨t.frameIdx, c⟩ : Addr) ≠ ⟨BitVec.ofNat 24 i, c'⟩ := by
    intro i hi c c' he
    have := congrArg (fun a : Addr => a.frame.toNat) he
    simp only [hidx, BitVec.toNat_ofNat] at this
    omega
  refine ⟨h.engine, ?_, ?_, ?_, h.frames, h.inPlace, h.responses, h.run, ?_, ?_, ?_, ?_, ?_, ?_, ?_, ?_, ?_, ?_⟩
  · simp only [State.framed, State.delayAfter_monos_succ]
    rfl
  · simp only [State.framed, State.delayAfter_monos_succ]
    rfl
  · simp only [State.framed, State.setFrameIdx_frameIdx, h.frameIdx]
    exact (BitVec.ofNat_add k 1).symm
  · have : (t.framed (Filter.holding cl (nextDelay cl (delayAfter cl dl (s.monos k)) (s.mono k)))
        (Filter.holding ch (nextDelay ch (delayAfter ch dh (s.monos k)) (s.mono k)))
        (bqOutput cl (delayAfter cl dl (s.monos k)) (s.mono k))
        (bqOutput ch (delayAfter ch dh (s.monos k)) (s.mono k))).accesses =
        t.accesses ++ frameAccesses t.frameIdx (t.input.get ⟨t.frameIdx, 0⟩) (t.input.get ⟨t.frameIdx, 1⟩)
          (bqOutput cl (delayAfter cl dl (s.monos k)) (s.mono k))
          (bqOutput ch (delayAfter ch dh (s.monos k)) (s.mono k)) := by
      simp [State.framed, frameAccesses, State.storeSample]
    rw [this, h.accesses, hin 0, hin 1, h.frameIdx, List.range_succ, List.flatMap_append, List.append_assoc]
    simp only [List.flatMap_cons, List.flatMap_nil, List.append_nil]
    rfl
  · intro i hi
    rcases Nat.lt_succ_iff_lt_or_eq.1 hi with hi | rfl
    · rw [State.framed_output, Memory.get_set_ne _ _ (hprev i hi 1 0), Memory.get_set_ne _ _ (hprev i hi 0 0), h.low i hi]
    · rw [State.framed_output, ← h.frameIdx, Memory.get_set_ne _ _ h01, Memory.get_set_same]
      rfl
  · intro i hi
    rcases Nat.lt_succ_iff_lt_or_eq.1 hi with hi | rfl
    · rw [State.framed_output, Memory.get_set_ne _ _ (hprev i hi 1 1), Memory.get_set_ne _ _ (hprev i hi 0 1), h.high i hi]
    · rw [State.framed_output, ← h.frameIdx, Memory.get_set_same]
      rfl
  · intro a ha
    rw [State.framed_output, Memory.get_set_ne _ _ (hne a ha).2, Memory.get_set_ne _ _ (hne a ha).1, h.output a (hold a ha)]
  · intro a ha
    rw [State.framed_input, ← h.input a (hold a ha)]
    split
    · rw [Memory.get_set_ne _ _ (hne a ha).2, Memory.get_set_ne _ _ (hne a ha).1]
    · rfl
  · intro hp
    rw [State.framed_input, if_neg (by simp [h.inPlace, hp]), h.distinct hp]
  · intro hp a hf hc
    rw [State.framed_input, if_pos (by rw [h.inPlace, hp]), State.framed_output]
    refine Memory.get_set_congr _ _ (fun h1 => Memory.get_set_congr _ _ fun h0 => h.shared hp a ?_ hc)
    have hch : a.channel = 0 ∨ a.channel = 1 := by omega
    have hne : a.frame ≠ t.frameIdx := by
      rintro he
      rcases hch with hch | hch
      · exact h0 (by rw [← he, ← hch])
      · exact h1 (by rw [← he, ← hch])
    have : a.frame.toNat ≠ k := fun he => hne (BitVec.eq_of_toNat_eq (he.trans hidx.symm))
    omega
  · intro hp he
    rw [State.framed_input, if_pos (by rw [h.inPlace, hp]), State.framed_output, h.oneContent hp he]
  · intro hw
    rw [State.framed_input]
    split
    · exact Memory.wf_set (Memory.wf_set (h.inputWf hw) _ _) _ _
    · exact h.inputWf hw
  · intro hw
    rw [State.framed_output]
    exact Memory.wf_set (Memory.wf_set (h.outputWf hw) _ _) _ _

/-- The loop from any frame of its run. -/
theorem State.Processed.loop {s : State} {cl ch : Coeffs} {dl dh : Delay} (n : FrameIndex) :
    ∀ (j k : Nat) {t : State}, s.Processed cl dl ch dh k t → k + j = n.toNat →
      if n.toNat ≤ s.frames ∨ j = 0 then
        ∃ t', pbufLoop j n t = .ok t' ∧ s.Processed cl dl ch dh n.toNat t'
      else pbufLoop j n t = .error .noInputSample := by
  have hn : n.toNat < 2 ^ 24 := n.isLt
  intro j
  induction j with
  | zero =>
    intro k t h hk
    rw [if_pos (Or.inr rfl)]
    exact ⟨t, rfl, by rw [← hk]; exact h⟩
  | succ j ih =>
    intro k t h hk
    have hidx : t.frameIdx.toNat = k := by rw [h.frameIdx, BitVec.toNat_ofNat, Nat.mod_eq_of_lt (by omega)]
    have hlt : t.frameIdx < n := by rw [BitVec.lt_def, hidx]; omega
    simp only [pbufLoop, if_pos hlt]
    by_cases hf : k < s.frames
    · obtain ⟨t', ht', hp⟩ := h.succ (by omega) hf
      rw [ht']
      have := ih (k + 1) hp (by omega)
      by_cases hj : n.toNat ≤ s.frames
      · rw [if_pos (Or.inl hj)] at this
        rw [if_pos (Or.inl hj)]
        exact this
      · rw [if_neg (by omega)] at this
        rw [if_neg (by omega)]
        exact this
    · rw [if_neg (by omega)]
      rw [pbufFrame_eq h.lp h.hp rfl rfl, if_neg (by rw [hidx, h.frames]; exact hf)]

/-- What the loop of `PBUF n` can do on filters that hold words: it processes its `n` frames where the buffers have
them, and else stops at the first frame they lack (R44, R109). -/
theorem pbufLoop_spec {s : State} {cl ch : Coeffs} {dl dh : Delay} (n : FrameIndex)
    (hl : s.lp = Filter.holding cl dl) (hh : s.hp = Filter.holding ch dh) (hi : s.frameIdx = 0) :
    if n.toNat ≤ s.frames then
      ∃ t, pbufLoop n.toNat n s = .ok t ∧ s.Processed cl dl ch dh n.toNat t
    else pbufLoop n.toNat n s = .error .noInputSample := by
  have h := (State.processed_zero hl hh hi).loop n n.toNat 0 (by omega)
  split
  · next hn => rw [if_pos (Or.inl hn)] at h; exact h
  · next hn => rw [if_neg (by omega)] at h; exact h

end Sys2Proof.Machine
end

