-- ==== Sys2Proof/Laws/Float.lean ====
section
/-! SUPPORT. Binary32 words through their 31 low bits, the magnitude: the fields and classes, the exact value, the
rounding of a magnitude, and the produced NaN. -/

namespace Sys2Proof.Machine

/-! ## A word by its sign and magnitude -/

/-- The 31 low bits of a word as a number. -/
def magOf (w : Word) : Nat := w.toNat % 2 ^ 31

theorem magOf_lt (w : Word) : magOf w < 2 ^ 31 := Nat.mod_lt _ (by norm_num)

theorem signBit_eq (w : Word) : signBit w = decide (2 ^ 31 ≤ w.toNat) := by
  have h : w.toNat < 2 ^ 32 := w.isLt
  unfold signBit
  rw [BitVec.getLsbD, Nat.testBit_eq_decide_div_mod_eq, decide_eq_decide]
  omega

theorem toNat_eq (w : Word) : w.toNat = (if signBit w then 2 ^ 31 else 0) + magOf w := by
  have h : w.toNat < 2 ^ 32 := w.isLt
  rw [signBit_eq, magOf]
  simp only [decide_eq_true_eq]
  split <;> omega

/-- The sign and the magnitude determine a word. -/
theorem word_ext {v w : Word} (hs : signBit v = signBit w) (hm : magOf v = magOf w) : v = w := by
  apply BitVec.eq_of_toNat_eq
  rw [toNat_eq v, toNat_eq w, hs, hm]

theorem expField_eq (w : Word) : expField w = magOf w / 2 ^ 23 := by
  simp only [expField, magOf, BitVec.extractLsb'_toNat, Nat.shiftRight_eq_div_pow]
  omega

theorem fracField_eq (w : Word) : fracField w = magOf w % 2 ^ 23 := by
  simp only [fracField, magOf, BitVec.extractLsb'_toNat, Nat.shiftRight_eq_div_pow]
  omega

theorem isZero_iff (w : Word) : isZero w = true ↔ magOf w = 0 := by
  simp only [isZero, beq_iff_eq, magOf]
  constructor
  · intro h
    have := congrArg BitVec.toNat h
    simpa [BitVec.extractLsb'_toNat] using this
  · intro h
    apply BitVec.eq_of_toNat_eq
    simpa [BitVec.extractLsb'_toNat] using h

theorem isFinite_iff (w : Word) : isFinite w = true ↔ magOf w < 0x7F800000 := by
  have := magOf_lt w
  simp only [isFinite, expField_eq, bne_iff_ne]
  omega

theorem isInf_iff (w : Word) : isInf w = true ↔ magOf w = 0x7F800000 := by
  have := magOf_lt w
  simp only [isInf, expField_eq, fracField_eq, Bool.and_eq_true, beq_iff_eq]
  omega

theorem isNaN_iff (w : Word) : isNaN w = true ↔ 0x7F800000 < magOf w := by
  have := magOf_lt w
  simp only [isNaN, expField_eq, fracField_eq, Bool.and_eq_true, beq_iff_eq, bne_iff_ne]
  omega

theorem withSign_toNat (s : Bool) (m : BitVec 31) :
    (withSign s m).toNat = (if s then 2 ^ 31 else 0) + m.toNat := by
  have h : m.toNat < 2 ^ 31 := m.isLt
  refine Eq.trans (BitVec.toNat_append (BitVec.ofBool s) m) ?_
  rw [Nat.shiftLeft_eq, Nat.mul_comm, ← Nat.two_pow_add_eq_or_of_lt h]
  cases s <;> simp

@[simp] theorem signBit_withSign (s : Bool) (m : BitVec 31) : signBit (withSign s m) = s := by
  have h : m.toNat < 2 ^ 31 := m.isLt
  rw [signBit_eq, withSign_toNat]
  cases s
  · simp only [Bool.false_eq_true, if_false, decide_eq_false_iff_not]; omega
  · simp only [if_true, decide_eq_true_eq]; omega

@[simp] theorem magOf_withSign (s : Bool) (m : BitVec 31) : magOf (withSign s m) = m.toNat := by
  have h : m.toNat < 2 ^ 31 := m.isLt
  rw [magOf, withSign_toNat]
  split <;> omega

/-! ## Zeros, infinities, negation and the produced NaN -/

@[simp] theorem signBit_zeroOf (s : Bool) : signBit (zeroOf s) = s := signBit_withSign s _
@[simp] theorem signBit_infOf (s : Bool) : signBit (infOf s) = s := signBit_withSign s _
@[simp] theorem magOf_zeroOf (s : Bool) : magOf (zeroOf s) = 0 := magOf_withSign s _
@[simp] theorem magOf_infOf (s : Bool) : magOf (infOf s) = 0x7F800000 := magOf_withSign s _

/-- A zero is the zero of its sign (R63). -/
theorem eq_zeroOf {w : Word} (h : isZero w = true) : w = zeroOf (signBit w) :=
  word_ext (by simp) (by simpa using (isZero_iff w).1 h)

/-- An infinity is the infinity of its sign (R63). -/
theorem eq_infOf {w : Word} (h : isInf w = true) : w = infOf (signBit w) :=
  word_ext (by simp) (by simpa using (isInf_iff w).1 h)

/-- Every word is exactly one of a NaN, an infinity and a finite word (R63). -/
theorem class_cases (w : Word) :
    (isNaN w = true ∧ isInf w = false ∧ isFinite w = false) ∨
    (isNaN w = false ∧ isInf w = true ∧ isFinite w = false) ∨
    (isNaN w = false ∧ isInf w = false ∧ isFinite w = true) := by
  simp only [← Bool.not_eq_true, isNaN_iff, isInf_iff, isFinite_iff]
  omega

/-- A zero is finite (R63). -/
theorem isFinite_of_isZero {w : Word} (h : isZero w = true) : isFinite w = true := by
  rw [isZero_iff] at h
  rw [isFinite_iff, h]
  norm_num

theorem toNat_fneg (a : Word) : (fneg a).toNat = if signBit a then a.toNat - 2 ^ 31 else a.toNat + 2 ^ 31 := by
  have h : a.toNat < 2 ^ 32 := a.isLt
  have hx : (fneg a).toNat = a.toNat ^^^ 2 ^ 31 := BitVec.toNat_xor ..
  simp only [hx, signBit_eq, decide_eq_true_eq]
  split
  · next hw =>
    obtain ⟨m, hm⟩ : ∃ m, a.toNat = 2 ^ 31 + m := ⟨a.toNat - 2 ^ 31, by omega⟩
    have hlt : m < 2 ^ 31 := by omega
    have hor := Nat.two_pow_add_eq_or_of_lt hlt 1
    rw [Nat.mul_one] at hor
    rw [hm, Nat.add_sub_cancel_left]
    apply Nat.eq_of_testBit_eq
    intro i
    rw [hor]
    by_cases hi : i = 31
    · subst hi
      simp [Nat.testBit_lt_two_pow hlt]
    · simp only [Nat.testBit_xor, Nat.testBit_or, Nat.testBit_two_pow_of_ne (Ne.symm hi)]
      simp
  · next hw =>
    have hlt : a.toNat < 2 ^ 31 := by omega
    have hor := Nat.two_pow_add_eq_or_of_lt hlt 1
    rw [Nat.mul_one] at hor
    rw [Nat.add_comm, hor]
    apply Nat.eq_of_testBit_eq
    intro i
    by_cases hi : i = 31
    · subst hi
      simp [Nat.testBit_lt_two_pow hlt]
    · simp only [Nat.testBit_xor, Nat.testBit_or, Nat.testBit_two_pow_of_ne (Ne.symm hi)]
      simp

/-- Negation inverts the sign and keeps the magnitude (R70). -/
@[simp] theorem signBit_fneg (a : Word) : signBit (fneg a) = !signBit a := by
  have h : a.toNat < 2 ^ 32 := a.isLt
  rw [signBit_eq (fneg a), toNat_fneg]
  cases hs : signBit a <;> (rw [signBit_eq] at hs; simp at hs ⊢; try omega)

@[simp] theorem magOf_fneg (a : Word) : magOf (fneg a) = magOf a := by
  have h : a.toNat < 2 ^ 32 := a.isLt
  rw [magOf, magOf, toNat_fneg]
  cases hs : signBit a <;> (rw [signBit_eq] at hs; simp at hs ⊢; try omega)

theorem nanResult_top (op : FloatOp) (a b : Word) : (nanResult op a b).extractLsb' 22 9 = 0x1FF := by
  apply BitVec.eq_of_getLsbD_eq
  intro i hi
  have h1 := @BitVec.getLsbD_append 1 (9 + 22) (22 + i) (Config.nanSign op a b)
    ((0x1FF : BitVec 9) ++ Config.nanPayload op a b)
  have h2 := @BitVec.getLsbD_append 9 22 (22 + i) (0x1FF : BitVec 9) (Config.nanPayload op a b)
  rw [BitVec.getLsbD_extractLsb']
  unfold nanResult
  rw [h1, h2, if_pos (by omega), if_neg (by omega), Nat.add_sub_cancel_left]
  simp [hi]

/-- A produced NaN is a quiet NaN, whatever its sign and payload (R74). -/
@[simp] theorem isQuietNaN_nanResult (op : FloatOp) (a b : Word) : isQuietNaN (nanResult op a b) = true := by
  rw [isQuietNaN, nanResult_top]
  rfl

theorem isNaN_of_isQuietNaN {w : Word} (h : isQuietNaN w = true) : isNaN w = true := by
  have h2 : (w.extractLsb' 22 9).toNat = 0x1FF := by
    rw [isQuietNaN, beq_iff_eq] at h
    rw [h]
    rfl
  rw [BitVec.extractLsb'_toNat, Nat.shiftRight_eq_div_pow] at h2
  rw [isNaN_iff, magOf]
  omega

@[simp] theorem isNaN_nanResult (op : FloatOp) (a b : Word) : isNaN (nanResult op a b) = true :=
  isNaN_of_isQuietNaN (isQuietNaN_nanResult op a b)

/-! ## The exact value by magnitude (R64) -/

/-- The value of a magnitude in units of 2^(−149) (R64). -/
def magUnits (m : Nat) : Nat := if m / 2 ^ 23 = 0 then m % 2 ^ 23 else (2 ^ 23 + m % 2 ^ 23) * 2 ^ (m / 2 ^ 23 - 1)

theorem unitsOf_eq (w : Word) : unitsOf w = magUnits (magOf w) := by
  rw [unitsOf, magUnits, expField_eq, fracField_eq]

theorem magUnits_small {m : Nat} (h : m < 2 ^ 23) : magUnits m = m := by
  rw [magUnits, if_pos (by omega)]
  omega

/-- A magnitude of the binade `sh` above the first, with significand `n` (R64); also at the upper end of it. -/
theorem magUnits_binade {n sh : Nat} (h1 : 2 ^ 23 ≤ n) (h2 : n ≤ 2 ^ 24) :
    magUnits (n + sh * 2 ^ 23) = n * 2 ^ sh := by
  rcases Nat.lt_or_ge n (2 ^ 24) with h | h
  · have hd : (n + sh * 2 ^ 23) / 2 ^ 23 = sh + 1 := by omega
    have hm : (n + sh * 2 ^ 23) % 2 ^ 23 = n - 2 ^ 23 := by omega
    rw [magUnits, hd, hm, if_neg (by omega), Nat.add_sub_cancel, Nat.add_sub_cancel' h1]
  · have hn : n = 2 ^ 24 := le_antisymm h2 h
    have hd : (n + sh * 2 ^ 23) / 2 ^ 23 = sh + 2 := by omega
    have hm : (n + sh * 2 ^ 23) % 2 ^ 23 = 0 := by omega
    rw [magUnits, hd, hm, if_neg (by omega), hn, show sh + 2 - 1 = sh + 1 by omega, pow_succ]
    ring

/-- Every magnitude is a significand of 24 bits in its binade, or below the first normal one. -/
theorem magUnits_eq (m : Nat) : ∃ n sh, m = n + sh * 2 ^ 23 ∧ magUnits m = n * 2 ^ sh ∧ n < 2 ^ 24 ∧
    (sh = 0 ∨ 2 ^ 23 ≤ n) := by
  by_cases h : m < 2 ^ 24
  · refine ⟨m, 0, by omega, ?_, h, Or.inl rfl⟩
    by_cases h' : m < 2 ^ 23
    · rw [magUnits_small h', pow_zero, Nat.mul_one]
    · exact magUnits_binade (sh := 0) (by omega) (by omega)
  · refine ⟨2 ^ 23 + m % 2 ^ 23, m / 2 ^ 23 - 1, by omega, ?_, by omega, Or.inr (by omega)⟩
    rw [← magUnits_binade (by omega) (by omega)]
    congr 1
    omega

/-- A larger magnitude has a larger value (R64). -/
theorem magUnits_strictMono : StrictMono magUnits := by
  apply strictMono_nat_of_lt_succ
  intro m
  obtain ⟨n, sh, hm, hu, hn, hsh⟩ := magUnits_eq m
  rw [hu]
  by_cases h : 2 ^ 23 ≤ n + 1
  · have := magUnits_binade (n := n + 1) (sh := sh) h (by omega)
    rw [show m + 1 = n + 1 + sh * 2 ^ 23 by omega, this]
    exact Nat.mul_lt_mul_of_pos_right (by omega) (by positivity)
  · have h0 : sh = 0 := by omega
    subst h0
    rw [show m + 1 = n + 1 by omega, magUnits_small (by omega), pow_zero]
    omega

/-! ## Rounding a magnitude (R65) -/

/-- `nearestEven` is nearest, and even where another integer is as near (R65 c): both sides are multiplied by the
denominator. -/
theorem nearestEven_spec (a b : Nat) (hb : 0 < b) (j : Int) :
    |(a : Int) - nearestEven a b * b| ≤ |(a : Int) - j * b| ∧
    (|(a : Int) - j * b| = |(a : Int) - nearestEven a b * b| → j ≠ nearestEven a b → nearestEven a b % 2 = 0) := by
  obtain ⟨k, hk⟩ : ∃ k, k = a / b := ⟨_, rfl⟩
  obtain ⟨r, hr⟩ : ∃ r, r = a % b := ⟨_, rfl⟩
  have hrb : r < b := hr ▸ Nat.mod_lt a hb
  have ha : (a : Int) = k * b + r := by
    rw [hk, hr]
    exact_mod_cast (Nat.div_add_mod' a b).symm
  have hj : (a : Int) - j * b = r - (j - k) * b := by rw [ha]; ring
  have h0 : (a : Int) - (k : Int) * b = r := by rw [ha]; ring
  have h1 : (a : Int) - ((k : Int) + 1) * b = r - b := by rw [ha]; ring
  have hi : j - k ≤ -1 ∧ (j - k) * (b : Int) ≤ -b ∨ j = k ∨ j = k + 1 ∨ 2 ≤ j - k ∧ 2 * (b : Int) ≤ (j - k) * b := by
    rcases lt_trichotomy j k with h | h | h
    · exact Or.inl ⟨by omega, by linarith [mul_le_mul_of_nonneg_right (show j - k ≤ -1 by omega) (Int.natCast_nonneg b)]⟩
    · exact Or.inr (Or.inl h)
    · by_cases h' : j = k + 1
      · exact Or.inr (Or.inr (Or.inl h'))
      · exact Or.inr (Or.inr (Or.inr
          ⟨by omega, mul_le_mul_of_nonneg_right (show 2 ≤ j - k by omega) (Int.natCast_nonneg b)⟩))
  have hn : (nearestEven a b = k ∧ (2 * r < b ∨ 2 * r = b ∧ k % 2 = 0)) ∨
      (nearestEven a b = k + 1 ∧ (b < 2 * r ∨ 2 * r = b ∧ k % 2 = 1)) := by
    simp only [nearestEven, ← hk, ← hr]
    split_ifs <;> omega
  rw [hj]
  rcases hn with ⟨he, hc⟩ | ⟨he, hc⟩
  · rw [he, h0]
    rcases hi with ⟨h, h'⟩ | h | h | ⟨h, h'⟩
    · rw [abs_of_nonneg (by omega), abs_of_nonneg (by omega)]; omega
    · subst h; simp
    · subst h
      rw [show (r : Int) - ((k : Int) + 1 - k) * b = r - b by ring, abs_of_nonneg (by omega),
        abs_of_nonpos (by omega)]
      omega
    · rw [abs_of_nonneg (by omega), abs_of_nonpos (by omega)]; omega
  · rw [he, Nat.cast_add, Nat.cast_one, h1, abs_of_nonpos (by omega : (r : Int) - b ≤ 0)]
    rcases hi with ⟨h, h'⟩ | h | h | ⟨h, h'⟩
    · rw [abs_of_nonneg (by omega)]; omega
    · subst h
      rw [show (r : Int) - ((k : Int) - k) * b = r by ring, abs_of_nonneg (by omega)]
      omega
    · subst h
      rw [show (r : Int) - ((k : Int) + 1 - k) * b = r - b by ring, abs_of_nonpos (by omega)]
      omega
    · rw [abs_of_nonpos (by omega)]; omega

theorem nearestEven_bounds (a b : Nat) : a / b ≤ nearestEven a b ∧ nearestEven a b ≤ a / b + 1 := by
  simp only [nearestEven]
  split_ifs <;> omega

/-- The scale of a rounding: `sh` is 0 below the second normal binade, and otherwise the integer part `k` of the
number has `sh + 24` binary digits. -/
theorem log2_scale (k : Nat) : (Nat.log2 k - 23 = 0 ∧ k < 2 ^ 24) ∨
    (2 ^ (Nat.log2 k - 23 + 23) ≤ k ∧ k < 2 ^ (Nat.log2 k - 23 + 24)) := by
  by_cases hk : k = 0
  · left; subst hk; decide
  · have h1 := Nat.log2_self_le hk
    have h2 : k < 2 ^ (Nat.log2 k + 1) := (Nat.log2_lt hk).1 (Nat.lt_succ_self _)
    by_cases h : Nat.log2 k < 24
    · left
      exact ⟨by omega, lt_of_lt_of_le h2 (Nat.pow_le_pow_right (by norm_num) (by omega))⟩
    · right
      rw [show Nat.log2 k - 23 + 23 = Nat.log2 k by omega, show Nat.log2 k - 23 + 24 = Nat.log2 k + 1 by omega]
      exact ⟨h1, h2⟩

/-- The shape of a rounded magnitude: a significand `n` in a binade `sh`, with its value, and the number to be
rounded not below the binade. -/
theorem roundMagnitude_shape (num den : Nat) (hd : 0 < den) : ∃ n sh,
    roundMagnitude num den = n + sh * 2 ^ 23 ∧ n = nearestEven (num * 2 ^ 149) (den * 2 ^ sh) ∧
    magUnits (roundMagnitude num den) = n * 2 ^ sh ∧ n ≤ 2 ^ 24 ∧
    (sh = 0 ∨ 2 ^ 23 * (den * 2 ^ sh) ≤ num * 2 ^ 149) ∧
    (sh = 0 ∨ 2 ^ (sh + 23) ≤ num * 2 ^ 149 / den) := by
  obtain ⟨u, hu⟩ : ∃ u, u = num * 2 ^ 149 := ⟨_, rfl⟩
  obtain ⟨sh, hsh⟩ : ∃ sh, sh = Nat.log2 (u / den) - 23 := ⟨_, rfl⟩
  obtain ⟨n, hn⟩ : ∃ n, n = nearestEven u (den * 2 ^ sh) := ⟨_, rfl⟩
  have hr : roundMagnitude num den = n + sh * 2 ^ 23 := by
    rw [hn, hsh, hu]; rfl
  have hb : 0 < den * 2 ^ sh := by positivity
  obtain ⟨hn1, hn2⟩ := nearestEven_bounds u (den * 2 ^ sh)
  rw [← hn] at hn1 hn2
  rw [← Nat.div_div_eq_div_mul] at hn1 hn2
  have hlog := log2_scale (u / den)
  rw [← hsh] at hlog
  refine ⟨n, sh, hr, hu ▸ hn, ?_, ?_, ?_, ?_⟩
  · rw [hr]
    rcases hlog with ⟨h0, hk⟩ | ⟨hlo, hhi⟩
    · subst h0
      by_cases h : n < 2 ^ 23
      · simpa using magUnits_small h
      · have : u / den / 2 ^ 0 = u / den := by simp
        exact magUnits_binade (by omega) (by omega)
    · refine magUnits_binade (le_trans ?_ hn1) (le_trans hn2 ?_)
      · rw [Nat.le_div_iff_mul_le (by positivity), ← pow_add, Nat.add_comm 23]
        exact hlo
      · have : u / den / 2 ^ sh < 2 ^ 24 := by
          rw [Nat.div_lt_iff_lt_mul (by positivity), ← pow_add, Nat.add_comm 24]
          exact hhi
        omega
  · refine le_trans hn2 ?_
    have : u / den / 2 ^ sh < 2 ^ 24 := by
      rw [Nat.div_lt_iff_lt_mul (by positivity), ← pow_add, Nat.add_comm 24]
      rcases hlog with ⟨h0, hk⟩ | ⟨hlo, hhi⟩
      · rw [h0]; exact hk
      · exact hhi
    omega
  · rw [← hu]
    rcases hlog with ⟨h0, hk⟩ | ⟨hlo, hhi⟩
    · exact Or.inl h0
    · right
      rw [Nat.le_div_iff_mul_le hd] at hlo
      calc 2 ^ 23 * (den * 2 ^ sh) = 2 ^ (sh + 23) * den := by rw [pow_add]; ring
        _ ≤ u := hlo
  · rw [← hu]
    rcases hlog with ⟨h0, hk⟩ | ⟨hlo, hhi⟩
    · exact Or.inl h0
    · exact Or.inr hlo

/-- No magnitude is nearer than the rounded one, and of two equally near the rounded one is even (R65 c); the
number to be rounded is `num / den`, and both sides are multiplied by the denominator. -/
theorem roundMagnitude_spec (num den : Nat) (hd : 0 < den) (m : Nat) :
    |((num * 2 ^ 149 : Nat) : Int) - magUnits (roundMagnitude num den) * den| ≤
      |((num * 2 ^ 149 : Nat) : Int) - magUnits m * den| ∧
    (|((num * 2 ^ 149 : Nat) : Int) - magUnits m * den| =
        |((num * 2 ^ 149 : Nat) : Int) - magUnits (roundMagnitude num den) * den| →
      magUnits m ≠ magUnits (roundMagnitude num den) → roundMagnitude num den % 2 = 0) := by
  obtain ⟨n, sh, hr, hn, hu, -, hlo, -⟩ := roundMagnitude_shape num den hd
  obtain ⟨n', sh', hm, hu', hn', hsh'⟩ := magUnits_eq m
  have hb : 0 < den * 2 ^ sh := by positivity
  have heven : roundMagnitude num den % 2 = n % 2 := by omega
  rw [heven, hu]
  have hnb : ((n * 2 ^ sh : Nat) : Int) * den = n * ((den * 2 ^ sh : Nat) : Int) := by push_cast; ring
  rw [hnb]
  by_cases hs : sh ≤ sh'
  · have hj : magUnits m = n' * 2 ^ (sh' - sh) * 2 ^ sh := by
      rw [hu', Nat.mul_assoc, ← pow_add, Nat.sub_add_cancel hs]
    have hjb : ((magUnits m : Nat) : Int) * den =
        ((n' * 2 ^ (sh' - sh) : Nat) : Int) * ((den * 2 ^ sh : Nat) : Int) := by rw [hj]; push_cast; ring
    rw [hjb]
    have hspec := nearestEven_spec (num * 2 ^ 149) (den * 2 ^ sh) hb ((n' * 2 ^ (sh' - sh) : Nat) : Int)
    rw [← hn] at hspec
    refine ⟨hspec.1, fun he hne => hspec.2 he fun h => hne ?_⟩
    rw [hj, show n' * 2 ^ (sh' - sh) = n by exact_mod_cast h]
  · have hspec := (nearestEven_spec (num * 2 ^ 149) (den * 2 ^ sh) hb ((2 ^ 23 : Nat) : Int)).1
    rw [← hn] at hspec
    have hlo : 2 ^ 23 * (den * 2 ^ sh) ≤ num * 2 ^ 149 := by
      rcases hlo with h | h
      · omega
      · exact h
    have hlt : magUnits m * den < 2 ^ 23 * (den * 2 ^ sh) := by
      have h1 : n' * 2 ^ sh' < 2 ^ 23 * 2 ^ sh := by
        calc n' * 2 ^ sh' < 2 ^ 24 * 2 ^ sh' := Nat.mul_lt_mul_of_pos_right hn' (by positivity)
          _ = 2 ^ 23 * 2 ^ (sh' + 1) := by rw [pow_succ 2 sh']; ring
          _ ≤ 2 ^ 23 * 2 ^ sh := Nat.mul_le_mul_left _ (Nat.pow_le_pow_right (by norm_num) (by omega))
      rw [hu']
      calc n' * 2 ^ sh' * den < 2 ^ 23 * 2 ^ sh * den := Nat.mul_lt_mul_of_pos_right h1 hd
        _ = 2 ^ 23 * (den * 2 ^ sh) := by ring
    have hlo' : ((2 ^ 23 : Nat) : Int) * ((den * 2 ^ sh : Nat) : Int) ≤ ((num * 2 ^ 149 : Nat) : Int) := by
      exact_mod_cast hlo
    have hlt' : ((magUnits m : Nat) : Int) * den < ((2 ^ 23 : Nat) : Int) * ((den * 2 ^ sh : Nat) : Int) := by
      exact_mod_cast hlt
    rw [abs_of_nonneg (sub_nonneg.2 hlo')] at hspec
    rw [abs_of_nonneg (by linarith : (0 : Int) ≤ ((num * 2 ^ 149 : Nat) : Int) - magUnits m * den)]
    exact ⟨by linarith, fun he => by linarith⟩

theorem nearestEven_ne_top {u b : Nat} (hb : 0 < b) (hx : u * 2 < 33554431 * b) : nearestEven u b ≠ 2 ^ 24 := by
  have hspec := (nearestEven_spec u b hb 16777215).1
  intro he
  rw [he, show ((2 ^ 24 : Nat) : Int) = 16777216 from rfl] at hspec
  rcases abs_cases ((u : Int) - 16777216 * b) with ⟨h1, h2⟩ | ⟨h1, h2⟩ <;>
    rcases abs_cases ((u : Int) - 16777215 * b) with ⟨h3, h4⟩ | ⟨h3, h4⟩ <;> omega

/-- Below the overflow bound the rounded magnitude is that of a finite word (R65 b, c). -/
theorem roundMagnitude_lt (num den : Nat) (hd : 0 < den) (h : num < overflowBound * den) :
    roundMagnitude num den < 0x7F800000 := by
  obtain ⟨n, sh, hr, hn, -, hn24, -, hlo⟩ := roundMagnitude_shape num den hd
  rw [hr]
  have hx : num * 2 ^ 149 < (2 ^ 25 - 1) * 2 ^ 252 * den := by
    calc num * 2 ^ 149 < overflowBound * den * 2 ^ 149 := Nat.mul_lt_mul_of_pos_right h (by positivity)
      _ = (2 ^ 25 - 1) * 2 ^ 252 * den := by rw [overflowBound]; ring
  have hk : num * 2 ^ 149 / den < (2 ^ 25 - 1) * 2 ^ 252 := (Nat.div_lt_iff_lt_mul hd).2 hx
  have hsh : sh ≤ 253 := by
    rcases hlo with h0 | h0
    · omega
    · have hc : (2 ^ 25 - 1) * 2 ^ 252 < 2 ^ 277 := by
        rw [show 277 = 25 + 252 from rfl, pow_add]
        exact Nat.mul_lt_mul_of_pos_right (by norm_num) (by positivity)
      have : 2 ^ (sh + 23) < 2 ^ 277 := lt_of_le_of_lt h0 (lt_trans hk hc)
      have := (Nat.pow_lt_pow_iff_right (by norm_num : 1 < 2)).1 this
      omega
  by_cases h253 : sh = 253
  · subst h253
    have hx' : num * 2 ^ 149 * 2 < 33554431 * (den * 2 ^ 253) := by
      calc num * 2 ^ 149 * 2 < (2 ^ 25 - 1) * 2 ^ 252 * den * 2 := by linarith
        _ = 33554431 * (den * 2 ^ 253) := by ring
    have hlt := nearestEven_ne_top (by positivity) hx'
    rw [← hn] at hlt
    omega
  · omega

/-! ## The rounding of an exact result (R65) -/

/-- The value of a word by its sign and magnitude (R64). -/
theorem val_eq (w : Word) : val w = (if signBit w then -1 else 1) * (magUnits (magOf w) : ℚ) / 2 ^ 149 := by
  rw [val, Rat.mkRat_eq_div, scaledVal, unitsOf_eq]
  split <;> push_cast <;> ring

/-- What `rn32` can answer: the zero asked for, an infinity, or the rounded magnitude, which is finite. -/
theorem rn32_cases (q : ℚ) (zs : Bool) :
    (q = 0 ∧ rn32 q zs = zeroOf zs) ∨
    (q ≠ 0 ∧ overflowBound * q.den ≤ q.num.natAbs ∧ rn32 q zs = infOf (decide (q < 0))) ∨
    (q ≠ 0 ∧ q.num.natAbs < overflowBound * q.den ∧ signBit (rn32 q zs) = decide (q < 0) ∧
      magOf (rn32 q zs) = roundMagnitude q.num.natAbs q.den ∧
      roundMagnitude q.num.natAbs q.den < 0x7F800000) := by
  have hs : decide (q.num < 0) = decide (q < 0) := by simp [Rat.num_neg]
  unfold rn32
  rw [hs]
  by_cases h0 : q.num = 0
  · left
    exact ⟨Rat.num_eq_zero.1 h0, by simp [h0]⟩
  · right
    have hq : q ≠ 0 := fun h => h0 (Rat.num_eq_zero.2 h)
    by_cases hb : overflowBound * q.den ≤ q.num.natAbs
    · left
      exact ⟨hq, hb, by simp [h0, hb]⟩
    · right
      have hlt := roundMagnitude_lt q.num.natAbs q.den q.den_pos (by omega)
      refine ⟨hq, by omega, ?_, ?_, hlt⟩
      · simp [h0, hb]
      · simp only [h0, hb, if_false, magOf_withSign, BitVec.toNat_ofNat]
        omega

theorem isNaN_rn32 (q : ℚ) (zs : Bool) : isNaN (rn32 q zs) = false := by
  rw [← Bool.not_eq_true, isNaN_iff]
  rcases rn32_cases q zs with ⟨-, h⟩ | ⟨-, -, h⟩ | ⟨-, -, -, h, hlt⟩
  · rw [h, magOf_zeroOf]; omega
  · rw [h, magOf_infOf]; omega
  · rw [h]; omega

/-- A result that is not zero keeps its sign, even where it rounds to zero (R65). -/
theorem signBit_rn32 {q : ℚ} (hq : q ≠ 0) (zs : Bool) : signBit (rn32 q zs) = decide (q < 0) := by
  rcases rn32_cases q zs with ⟨h0, -⟩ | ⟨-, -, h⟩ | ⟨-, -, h, -⟩
  · exact absurd h0 hq
  · rw [h, signBit_infOf]
  · exact h

/-! ## Values and classes, for the operations -/

/-- A NaN operand gives the NaN of the parameter (R66, R74). -/
theorem fadd_nan (a b : Word) (h : isNaN a = true ∨ isNaN b = true) : fadd a b = nanResult .fadd a b := by
  have : (isNaN a || isNaN b) = true := by simpa using h
  simp [fadd, this]

theorem fneg_isNaN (b : Word) : isNaN (fneg b) = isNaN b := by
  rw [Bool.eq_iff_iff, isNaN_iff, isNaN_iff, magOf_fneg]

/-- Both zeros have the value 0 (R64). -/
theorem val_zero_of_isZero {w : Word} (h : isZero w = true) : val w = 0 := by
  rw [val_eq, (isZero_iff w).1 h]; simp [magUnits]

theorem magUnits_eq_zero {m : Nat} : magUnits m = 0 ↔ m = 0 := by
  constructor
  · intro h
    by_contra h0
    have := magUnits_strictMono (Nat.pos_of_ne_zero h0)
    omega
  · rintro rfl; rfl

/-- A word that is no zero has a value that is not 0 (R64). -/
theorem val_ne_zero {w : Word} (h : isZero w = false) : val w ≠ 0 := by
  rw [val_eq]
  have : magOf w ≠ 0 := fun h' => by rw [(isZero_iff w).2 h'] at h; simp at h
  have h1 : magUnits (magOf w) ≠ 0 := mt magUnits_eq_zero.1 this
  have h2 : (magUnits (magOf w) : ℚ) ≠ 0 := by exact_mod_cast h1
  split_ifs <;> simp [h2]

/-- The sign bit is the sign of the value (R63, R64). -/
theorem val_lt_zero_iff {w : Word} (h : isZero w = false) : val w < 0 ↔ signBit w = true := by
  have h0 := val_ne_zero h
  rw [val_eq] at h0 ⊢
  have hU : (0:ℚ) ≤ (magUnits (magOf w) : ℚ) / 2^149 := by positivity
  rw [mul_div_assoc] at h0 ⊢
  cases signBit w <;> simp only [if_true, Bool.false_eq_true, if_false, one_mul, iff_true, iff_false, not_lt] at *
  · exact hU
  · rcases hU.lt_or_eq with h | h
    · linarith
    · rw [← h] at h0; simp at h0

/-- The magnitude of a value in units of 2^(-149) (R64). -/
theorem abs_val (w : Word) : |val w| = (magUnits (magOf w) : ℚ) / 2^149 := by
  rw [val_eq]
  have hU : (0:ℚ) ≤ (magUnits (magOf w) : ℚ) / 2^149 := by positivity
  rw [mul_div_assoc, abs_mul, abs_of_nonneg hU]
  split_ifs <;> simp

/-- `fneg` keeps the class of a word (R70). -/
theorem fneg_class (a : Word) : isNaN (fneg a) = isNaN a ∧ isInf (fneg a) = isInf a ∧ isZero (fneg a) = isZero a
   ∧ isFinite (fneg a) = isFinite a := by
  refine ⟨?_, ?_, ?_, ?_⟩ <;> rw [Bool.eq_iff_iff]
  · rw [isNaN_iff, isNaN_iff, magOf_fneg]
  · rw [isInf_iff, isInf_iff, magOf_fneg]
  · rw [isZero_iff, isZero_iff, magOf_fneg]
  · rw [isFinite_iff, isFinite_iff, magOf_fneg]

/-- `fneg` negates the value (R70). -/
theorem val_fneg (a : Word) : val (fneg a) = - val a := by
  rw [val_eq, val_eq, signBit_fneg, magOf_fneg]
  cases signBit a <;> simp <;> ring

/-- Values compare as their numbers of units of 2^(-149) (R64). -/
theorem val_lt_iff (a b : Word) : val a < val b ↔ scaledVal a < scaledVal b := by
  rw [val, val, Rat.mkRat_eq_div, Rat.mkRat_eq_div, div_lt_div_iff_of_pos_right (by positivity)]
  exact_mod_cast Iff.rfl

end Sys2Proof.Machine
end

