-- ==== Sys2Proof/Laws/PerInstr.lean ====
section
/-! SUPPORT. Statements for all instructions, one lemma per constructor. `EncodedFields`: the command word that the
encoder writes carries the command's opcode and its immediate, and every command is well formed (R49, R53, R56). -/

namespace Sys2Proof.Laws.EncodedFields

/-- The fields of the encoded command word are those of the command, which is well formed. -/
def Statement (i : Instr) : Prop :=
  cwOPC (encodeCW i) = i.opcode ∧ cwIMM24 (encodeCW i) = i.immediate ∧ i.wellFormed = true

theorem rst : Statement .rst := ⟨by decide, by decide, by decide⟩
theorem setup (fc fs : Word) : Statement (.setup fc fs) :=
  ⟨show cwOPC 0x02000000 = 0x02 by decide, show cwIMM24 0x02000000 = 0 by decide, rfl⟩
theorem pfrm (leftIn rightIn : Word) : Statement (.pfrm leftIn rightIn) :=
  ⟨show cwOPC 0x03000000 = 0x03 by decide, show cwIMM24 0x03000000 = 0 by decide, rfl⟩
theorem pbuf (n : FrameIndex) : Statement (.pbuf n) := ⟨cwOPC_pbuf n, cwIMM24_pbuf n, rfl⟩
theorem stop : Statement .stop := ⟨by decide, by decide, by decide⟩
theorem stat : Statement .stat := ⟨by decide, by decide, by decide⟩
theorem mix (left right : Word) : Statement (.mix left right) :=
  ⟨show cwOPC 0x10000000 = 0x10 by decide, show cwIMM24 0x10000000 = 0 by decide, rfl⟩
theorem clp (fc fs : Word) : Statement (.clp fc fs) :=
  ⟨show cwOPC 0x11000000 = 0x11 by decide, show cwIMM24 0x11000000 = 0 by decide, rfl⟩
theorem chp (fc fs : Word) : Statement (.chp fc fs) :=
  ⟨show cwOPC 0x12000000 = 0x12 by decide, show cwIMM24 0x12000000 = 0 by decide, rfl⟩

end Sys2Proof.Laws.EncodedFields
end

