-- ==== Sys2Proof/Laws/Step.lean ====
section
/-! SUPPORT. What a command and a step can do, said once: the fields of a response, the two commands that
process frames by cases, and the step by its event. -/

namespace Sys2Proof.Machine

/-! ## Response fields (R51, R52) -/

theorem codeField_responseOf (c : Status) (e : EngineState) (l : Lanes) :
    (responseOf c e l).codeField = c.code := by
  show (statusWord c e).extractLsb' 0 8 = c.code
  cases c <;> cases e <;> decide

theorem stateField_responseOf (c : Status) (e : EngineState) (l : Lanes) :
    (responseOf c e l).stateField = e.code := by
  show (statusWord c e).extractLsb' 8 2 = e.code
  cases c <;> cases e <;> decide

theorem reservedField_responseOf (c : Status) (e : EngineState) (l : Lanes) :
    (responseOf c e l).reservedField = 0 := by
  show (statusWord c e).extractLsb' 10 22 = 0
  cases c <;> cases e <;> decide

/-- The four status codes differ (R52). -/
theorem Status.code_inj {c d : Status} : c.code = d.code ↔ c = d := by
  cases c <;> cases d <;> decide

/-! ## The commands that process frames -/

/-- What `PFRM` can do (R105, R108). -/
theorem execPfrm_eq_next {l r : Word} {s t : State} : execPfrm l r s = .next t ↔
    ((s.engine = .uninitialized ∨ s.engine = .stopped) ∧ t = raiseStatus .illegalState s) ∨
    ((s.engine = .ready ∨ s.engine = .running) ∧ ∃ cl dl ch dh,
      s.lp = Filter.holding cl dl ∧ s.hp = Filter.holding ch dh ∧
      t = respondOk ⟨bqOutput cl dl (mixf l r), bqOutput ch dh (mixf l r), 0, 0, 0⟩
        (((s.setEngine .running).setLp (Filter.holding cl (nextDelay cl dl (mixf l r)))).setHp
          (Filter.holding ch (nextDelay ch dh (mixf l r))))) := by
  have hcases : (s.engine = .ready ∨ s.engine = .running) ↔ ¬ (s.engine = .uninitialized ∨ s.engine = .stopped) := by
    cases s.engine <;> simp
  unfold execPfrm
  split
  · next hd =>
    simp only [hd, true_and, hcases, not_true, false_and, or_false, Host.Outcome.next.injEq]
    exact eq_comm
  · next hd =>
    simp only [hd, false_and, false_or, hcases, not_false_iff, true_and]
    constructor
    · split
      · next low high s' hf =>
        obtain ⟨cl, dl, ch, dh, h1, h2, rfl, rfl, rfl⟩ := frame_eq_ok.1 hf
        intro h
        exact ⟨cl, dl, ch, dh, h1, h2, (Host.Outcome.next.inj h).symm⟩
      · intro h
        cases h
    · rintro ⟨cl, dl, ch, dh, h1, h2, rfl⟩
      have : frame l r (s.setEngine .running) = .ok (_, _, _) :=
        frame_eq_ok.2 ⟨cl, dl, ch, dh, h1, h2, rfl, rfl, rfl⟩
      rw [this]

/-- What `PBUF` can do on filters that hold words in a state that runs it (R44, R109). -/
theorem execPbuf_holding {n : FrameIndex} {s : State} {cl ch : Coeffs} {dl dh : Delay}
    (he : s.engine = .ready ∨ s.engine = .running) (hl : s.lp = Filter.holding cl dl)
    (hh : s.hp = Filter.holding ch dh) :
    if n.toNat ≤ s.frames then
      ∃ t, execPbuf n s = .next (respondOk Lanes.zero t) ∧
        ((s.setEngine .running).setFrameIdx 0).Processed cl dl ch dh n.toNat t
    else execPbuf n s = .fault .noInputSample := by
  have hd : ¬ (s.engine = .uninitialized ∨ s.engine = .stopped) := by
    rcases he with he | he <;> simp [he]
  have h := pbufLoop_spec (s := (s.setEngine .running).setFrameIdx 0) n hl hh rfl
  rw [State.setFrameIdx_frames, State.setEngine_frames] at h
  unfold execPbuf
  rw [if_neg hd]
  split
  · next hn =>
    rw [if_pos hn] at h
    obtain ⟨t, ht, hp⟩ := h
    exact ⟨t, by rw [ht], hp⟩
  · next hn =>
    rw [if_neg hn] at h
    rw [h]

/-- A `PBUF` of at least one frame that ends has found words in both filters (R20). -/
theorem holding_of_execPbuf {n : FrameIndex} {s t : State} (he : s.engine = .ready ∨ s.engine = .running)
    (hn : n ≠ 0) (h : execPbuf n s = .next t) :
    ∃ cl dl ch dh, s.lp = Filter.holding cl dl ∧ s.hp = Filter.holding ch dh := by
  have hd : ¬ (s.engine = .uninitialized ∨ s.engine = .stopped) := by
    rcases he with he | he <;> simp [he]
  have hpos : n.toNat ≠ 0 := fun h0 => hn (BitVec.eq_of_toNat_eq h0)
  obtain ⟨k, hk⟩ := Nat.exists_eq_succ_of_ne_zero hpos
  have hlt : ((s.setEngine .running).setFrameIdx 0).frameIdx < n := by
    rw [State.setFrameIdx_frameIdx, BitVec.lt_def]
    simp
    omega
  rw [execPbuf, if_neg hd, hk, pbufLoop, if_pos hlt] at h
  rcases hf : pbufFrame ((s.setEngine .running).setFrameIdx 0) with e | u
  · rw [hf] at h
    cases h
  · simp only [pbufFrame, readSample, bind, Except.bind] at hf
    by_cases h0 : ((s.setEngine .running).setFrameIdx 0).providesInput
        ⟨((s.setEngine .running).setFrameIdx 0).frameIdx, 0⟩ = true
    · rw [if_pos h0] at hf
      simp only at hf
      split at hf
      · cases hf
      · next hr =>
        split at hr
        · cases hr
          split at hf
          · cases hf
          · next hfr =>
            obtain ⟨cl, dl, ch, dh, h1, h2, _⟩ := frame_eq_ok.1 hfr
            exact ⟨cl, dl, ch, dh, h1, h2⟩
        · cases hr
    · rw [if_neg h0] at hf
      cases hf

/-- What `PBUF` can do (R44, R109, R117). -/
theorem execPbuf_eq_next {n : FrameIndex} {s t : State} (h : execPbuf n s = .next t) :
    ((s.engine = .uninitialized ∨ s.engine = .stopped) ∧ t = raiseStatus .illegalState s) ∨
    ((s.engine = .ready ∨ s.engine = .running) ∧
      ((n = 0 ∧ t = respondOk Lanes.zero ((s.setEngine .running).setFrameIdx 0)) ∨
      ∃ cl dl ch dh u, s.lp = Filter.holding cl dl ∧ s.hp = Filter.holding ch dh ∧ n.toNat ≤ s.frames ∧
        ((s.setEngine .running).setFrameIdx 0).Processed cl dl ch dh n.toNat u ∧ t = respondOk Lanes.zero u)) := by
  by_cases hd : s.engine = .uninitialized ∨ s.engine = .stopped
  · rw [execPbuf, if_pos hd] at h
    exact Or.inl ⟨hd, (Host.Outcome.next.inj h).symm⟩
  · have he : s.engine = .ready ∨ s.engine = .running := by
      revert hd
      cases s.engine <;> simp
    refine Or.inr ⟨he, ?_⟩
    by_cases hn : n = 0
    · subst hn
      simp only [execPbuf, if_neg hd] at h
      exact Or.inl ⟨rfl, (Host.Outcome.next.inj h).symm⟩
    · obtain ⟨cl, dl, ch, dh, hl, hh⟩ := holding_of_execPbuf he hn h
      have hp := execPbuf_holding (n := n) he hl hh
      split at hp
      · next hle =>
        obtain ⟨u, hu, hpr⟩ := hp
        rw [h] at hu
        exact Or.inr ⟨cl, dl, ch, dh, u, hl, hh, hle, hpr, Host.Outcome.next.inj hu⟩
      · rw [h] at hp
        cases hp

/-! ## The step by its event (R59, R104, R142) -/

theorem step_nil {s : State} (h : s.run = []) : step s = .next s := by
  rw [step, h]

theorem step_cons {s : State} {e : HostEvent} {rest : List HostEvent} (h : s.run = e :: rest) :
    step s = acceptEvent e (s.setRun rest) := by
  rw [step, h]

/-- What the block does with a beat (R55, R58, R119). -/
theorem acceptBeat_eq (b : Beat) (s : State) :
    (∃ i, decode b = .ok i ∧ acceptBeat b s = exec i s) ∨
    (∃ e, decode b = .error e ∧ acceptBeat b s = .next (raiseStatus .illegalCommand s)) := by
  unfold acceptBeat
  cases h : decode b with
  | ok i => exact Or.inl ⟨i, rfl, rfl⟩
  | error e => exact Or.inr ⟨e, rfl, rfl⟩

end Sys2Proof.Machine
end

