-- ==== Sys2Proof/Laws/Tangent.lean ====
section
/-! SUPPORT. The reference tangent (R78): a word is the rounding of every real number between the midpoints to its
neighbours, and the tangent of a small number lies between any two numbers that a Taylor polynomial separates from
it. -/

namespace Sys2Proof.Machine

/-- A positive word is the rounding of every number strictly between the midpoints to its two neighbours (R65 c). -/
theorem isRN32_of_between {x : ℝ} {w : Word} (zs : Bool) (hs : signBit w = false) (h0 : 0 < magOf w)
    (h1 : magOf w < 0x7F7FFFFF) (hlo : (magUnits (magOf w - 1) + magUnits (magOf w) : ℝ) < x * 2 ^ 150)
    (hhi : x * 2 ^ 150 < (magUnits (magOf w) + magUnits (magOf w + 1) : ℝ)) : IsRN32 x zs w := by
  have hval : ∀ v : Word, ((val v : ℚ) : ℝ) = (if signBit v then -1 else 1) * (magUnits (magOf v) : ℝ) / 2 ^ 149 := by
    intro v
    rw [val_eq]
    push_cast
    split_ifs <;> norm_num
  have hw : ((val w : ℚ) : ℝ) = (magUnits (magOf w) : ℝ) / 2 ^ 149 := by rw [hval, hs]; simp
  have hx : 0 < x := by
    have : (0 : ℝ) ≤ magUnits (magOf w - 1) + magUnits (magOf w) := by positivity
    linarith
  have hmax : (magUnits (magOf w + 1) : ℝ) ≤ 16777215 * 2 ^ 253 := by
    have h : magUnits (magOf w + 1) ≤ magUnits 0x7F7FFFFF := magUnits_strictMono.monotone (by omega)
    rw [show magUnits 0x7F7FFFFF = 16777215 * 2 ^ 253 by rfl] at h
    exact_mod_cast h
  have hlt : (magUnits (magOf w) : ℝ) < magUnits (magOf w + 1) := by
    exact_mod_cast magUnits_strictMono (Nat.lt_succ_self _)
  have key : ∀ v : Word, val v = val w ∨ |x - val w| < |x - val v| := by
    intro v
    have hpow : (2 : ℝ) ^ 150 = 2 ^ 149 * 2 := by rw [← pow_succ]
    rw [hpow] at hlo hhi
    have hb : |x - val w| < |x - val v| ↔
        |x * 2 ^ 149 - magUnits (magOf w)| < |x * 2 ^ 149 - (val v : ℝ) * 2 ^ 149| := by
      rw [← mul_lt_mul_iff_left₀ (show (0 : ℝ) < 2 ^ 149 by positivity), ← abs_of_pos (show (0 : ℝ) < 2 ^ 149 by positivity),
        ← abs_mul, ← abs_mul, sub_mul, sub_mul, hw, abs_of_pos (show (0 : ℝ) < 2 ^ 149 by positivity),
        div_mul_cancel₀ _ (by positivity)]
    rw [hb, hval v, div_mul_cancel₀ _ (by positivity)]
    generalize hX : x * 2 ^ 149 = X at *
    have hXp : 0 < X := by rw [← hX]; positivity
    have hlow : ∀ u : ℝ, u ≤ magUnits (magOf w - 1) → |X - magUnits (magOf w)| < |X - u| := by
      intro u hu
      have hlt' : (magUnits (magOf w - 1) : ℝ) < magUnits (magOf w) := by
        exact_mod_cast magUnits_strictMono (by omega)
      rw [lt_abs]; left
      rw [abs_lt]
      constructor <;> linarith
    rcases Bool.eq_false_or_eq_true (signBit v) with hv | hv
    · right
      refine hlow _ ?_
      rw [hv]
      have : (0 : ℝ) ≤ magUnits (magOf v) := by positivity
      have : (0 : ℝ) ≤ magUnits (magOf w - 1) := by positivity
      simp only [if_true]
      linarith
    · rw [hv]
      simp only [Bool.false_eq_true, if_false, one_mul]
      rcases lt_trichotomy (magOf v) (magOf w) with h | h | h
      · right
        exact hlow _ (by exact_mod_cast magUnits_strictMono.monotone (by omega))
      · left
        rw [val_eq, val_eq, hv, hs, h]
      · right
        have h2 : (magUnits (magOf w + 1) : ℝ) ≤ magUnits (magOf v) := by
          exact_mod_cast magUnits_strictMono.monotone h
        rw [lt_abs]; right
        rw [abs_lt]
        constructor <;> linarith
  refine ⟨fun h => absurd h hx.ne', fun h => ?_, fun _ _ => ⟨(isFinite_iff w).2 (by omega), ?_, ?_, ?_⟩⟩
  · rw [abs_of_pos hx] at h
    exfalso
    have h2 := mul_le_mul_of_nonneg_right h (show (0 : ℝ) ≤ 2 ^ 150 by positivity)
    have h3 : (2 : ℝ) * (16777215 * 2 ^ 253) < (2 - 2 ^ (-24 : ℤ)) * 2 ^ 127 * 2 ^ 150 := by norm_num
    linarith
  · simp [hs, hx.le]
  · intro v _
    rcases key v with h | h
    · rw [h]
    · exact h.le
  · intro v _ hne he
    rcases key v with h | h
    · exact absurd h hne
    · exact absurd he h.ne'

/-- The Taylor polynomial of the cosine of degree 10. -/
def cosPoly (x : ℚ) : ℚ := 1 - x ^ 2 / 2 + x ^ 4 / 24 - x ^ 6 / 720 + x ^ 8 / 40320 - x ^ 10 / 3628800

/-- The Taylor polynomial of the sine of degree 11. -/
def sinPoly (x : ℚ) : ℚ := x - x ^ 3 / 6 + x ^ 5 / 120 - x ^ 7 / 5040 + x ^ 9 / 362880 - x ^ 11 / 39916800

/-- How far the two functions can lie from their polynomials. -/
def taylorError (x : ℚ) : ℚ := x ^ 12 / 400000000

/-- Cosine and sine of a rational number from 0 to 1 lie within the error of their polynomials. -/
theorem cos_sin_near {x : ℚ} (h0 : 0 ≤ x) (h1 : x ≤ 1) :
    |Real.cos x - cosPoly x| ≤ taylorError x ∧ |Real.sin x - sinPoly x| ≤ taylorError x := by
  have h0' : (0 : ℝ) ≤ x := by exact_mod_cast h0
  have h1' : (x : ℝ) ≤ 1 := by exact_mod_cast h1
  obtain ⟨z, hz⟩ : ∃ z : ℂ, z = ((x : ℝ) : ℂ) * Complex.I := ⟨_, rfl⟩
  have hn : ‖z‖ = x := by
    rw [hz, norm_mul, Complex.norm_I, mul_one, Complex.norm_real, Real.norm_eq_abs, abs_of_nonneg h0']
  have hsum : ∑ m ∈ Finset.range 12, z ^ m / (m.factorial : ℂ) =
      ((cosPoly x : ℝ) : ℂ) + ((sinPoly x : ℝ) : ℂ) * Complex.I := by
    have hI : ∀ k, Complex.I ^ (k + 2) = -Complex.I ^ k := fun k => by rw [pow_add, Complex.I_sq]; ring
    simp only [hz, Finset.sum_range_succ, Finset.sum_range_zero, mul_pow, cosPoly, sinPoly, Nat.factorial, hI,
      pow_zero, pow_one]
    push_cast
    ring
  have hb := Complex.exp_bound (x := z) (by rw [hn]; exact h1') (n := 12) (by norm_num)
  have hle : (x : ℝ) ^ 12 * (((12 : ℕ).succ : ℝ) * (((12 : ℕ).factorial : ℝ) * (12 : ℕ))⁻¹) ≤ taylorError x := by
    rw [taylorError]
    push_cast
    rw [div_eq_mul_inv]
    refine mul_le_mul_of_nonneg_left ?_ (by positivity)
    norm_num [Nat.factorial]
  rw [hsum, hn, hz, Complex.exp_mul_I, ← Complex.ofReal_cos, ← Complex.ofReal_sin] at hb
  have he : ((Real.cos x : ℝ) : ℂ) + ((Real.sin x : ℝ) : ℂ) * Complex.I -
      (((cosPoly x : ℝ) : ℂ) + ((sinPoly x : ℝ) : ℂ) * Complex.I) =
      ((Real.cos x - cosPoly x : ℝ) : ℂ) + ((Real.sin x - sinPoly x : ℝ) : ℂ) * Complex.I := by
    push_cast
    ring
  rw [he] at hb
  have hre := le_trans (Complex.abs_re_le_norm _) (le_trans hb hle)
  have him := le_trans (Complex.abs_im_le_norm _) (le_trans hb hle)
  rw [Complex.add_re, Complex.re_ofReal_mul, Complex.I_re, mul_zero, add_zero, Complex.ofReal_re] at hre
  rw [Complex.add_im, Complex.im_ofReal_mul, Complex.I_im, mul_one, Complex.ofReal_im, zero_add] at him
  exact ⟨hre, him⟩

/-- Two bounds of the tangent of a small rational number, from the two polynomials and their error. -/
theorem tan_mem {x lo hi : ℚ} (h0 : 0 ≤ x) (h1 : x ≤ 1) (hlo : 0 ≤ lo) (hhi : 0 ≤ hi)
    (hl : lo * (cosPoly x + taylorError x) < sinPoly x - taylorError x)
    (hh : sinPoly x + taylorError x < hi * (cosPoly x - taylorError x)) :
    (lo : ℝ) < Real.tan x ∧ Real.tan x < hi := by
  obtain ⟨hc, hs⟩ := cos_sin_near h0 h1
  rw [abs_le] at hc hs
  have h0' : (0 : ℝ) ≤ x := by exact_mod_cast h0
  have hlo' : (0 : ℝ) ≤ lo := by exact_mod_cast hlo
  have hhi' : (0 : ℝ) ≤ hi := by exact_mod_cast hhi
  have hl' : (lo : ℝ) * (cosPoly x + taylorError x) < sinPoly x - taylorError x := by exact_mod_cast hl
  have hh' : (sinPoly x : ℝ) + taylorError x < hi * (cosPoly x - taylorError x) := by exact_mod_cast hh
  have hpos : 0 < Real.cos x := Real.cos_pos_of_le_one (by rw [abs_of_nonneg h0']; exact_mod_cast h1)
  rw [Real.tan_eq_sin_div_cos, lt_div_iff₀ hpos, div_lt_iff₀ hpos]
  have hlc := mul_le_mul_of_nonneg_left (show Real.cos x ≤ cosPoly x + taylorError x by linarith) hlo'
  have hhc := mul_le_mul_of_nonneg_left (show (cosPoly x : ℝ) - taylorError x ≤ Real.cos x by linarith) hhi'
  constructor <;> linarith

/-- A positive word is the reference tangent of a word up to 1 where the two polynomials separate the tangent from
the midpoints to the word's neighbours: a check of rational numbers alone. -/
theorem isTan32ref_of_taylor {t r : Word} (ht : isFinite t = true ∧ isZero t = false ∧ 0 ≤ val t ∧ val t ≤ 1)
    (hr : signBit r = false ∧ 0 < magOf r ∧ magOf r < 0x7F7FFFFF)
    (hl : ((magUnits (magOf r - 1) + magUnits (magOf r) : ℚ) / 2 ^ 150) * (cosPoly (val t) + taylorError (val t)) <
      sinPoly (val t) - taylorError (val t))
    (hh : sinPoly (val t) + taylorError (val t) <
      ((magUnits (magOf r) + magUnits (magOf r + 1) : ℚ) / 2 ^ 150) * (cosPoly (val t) - taylorError (val t))) :
    IsTan32ref t r := by
  obtain ⟨hf, hz, h0, h1⟩ := ht
  obtain ⟨hs, hm, hm'⟩ := hr
  obtain ⟨h2, h3⟩ := tan_mem h0 h1 (by positivity) (by positivity) hl hh
  push_cast at h2 h3
  rw [div_lt_iff₀ (by positivity)] at h2
  rw [lt_div_iff₀ (by positivity)] at h3
  exact ⟨fun h => by simp [hf] at h, fun h => by simp [hz] at h, fun _ _ => isRN32_of_between _ hs hm hm' h2 h3⟩

end Sys2Proof.Machine
end

