-- ==== Sys2Proof/Tests/Slice0.lean ====
section
/-! SUPPORT. The model's own tests: each is one decode, one operation or one step. Every expected value is printed
in spec/95_test_vectors.md (section or program named) or in the rule named; none is the model's own answer. The
second half holds, for every statement with hypotheses, a state and operands that meet them all. -/

namespace Sys2Proof.Machine

/-! ## Well-formedness: a term that each check refuses (R53, R55, R56) -/

theorem test_illFormed_opcode :
    opcodeAssigned 0x00 = false ∧ opcodeAssigned 0x07 = false ∧ opcodeAssigned 0x0F = false ∧
    opcodeAssigned 0x13 = false ∧ opcodeAssigned 0x80 = false ∧ opcodeAssigned 0xFF = false := by decide

theorem test_illFormed_immediate :
    immediateAllowed 0x01 1 = false ∧ immediateAllowed 0x03 0x800000 = false ∧
    immediateAllowed 0x12 0xFFFFFF = false ∧ immediateAllowed 0x04 0xFFFFFF = true := by decide

theorem test_illFormed_fields :
    fieldsWellFormed 0x00 0 = false ∧ fieldsWellFormed 0x06 1 = false ∧ fieldsWellFormed 0x04 1 = true ∧
    fieldsWellFormed 0x12 0 = true := by decide

/-! ## Decoding (2.6 and the beats of section 3) -/

theorem test_decode_rst : decode 0x01000000FFFFFFFFFFFFFFFF = .ok .rst := by decide
theorem test_decode_setup : decode 0x02000000447A0000472C4400 = .ok (.setup 0x447A0000 0x472C4400) := by decide
theorem test_decode_pfrm : decode 0x030000003F0000003E800000 = .ok (.pfrm 0x3F000000 0x3E800000) := by decide
theorem test_decode_pbuf : decode 0x04FFFFFF0000000000000000 = .ok (.pbuf 16777215) := by decide
theorem test_decode_pbuf_zero : decode 0x040000000000000000000000 = .ok (.pbuf 0) := by decide
theorem test_decode_stop : decode 0x050000000000000000000000 = .ok .stop := by decide
theorem test_decode_stat : decode 0x06000000DEADBEEF12345678 = .ok .stat := by decide
theorem test_decode_mix : decode 0x100000003F80000040000000 = .ok (.mix 0x3F800000 0x40000000) := by decide
theorem test_decode_clp : decode 0x11000000459C400045FA0000 = .ok (.clp 0x459C4000 0x45FA0000) := by decide
theorem test_decode_chp : decode 0x12000000447A000045FA0000 = .ok (.chp 0x447A0000 0x45FA0000) := by decide

theorem test_decode_reserved :
    decode 0x000000000000000000000000 = .error (.reservedOpcode 0x00) ∧
    decode 0x070000000000000000000000 = .error (.reservedOpcode 0x07) ∧
    decode 0x0F0000000000000000000000 = .error (.reservedOpcode 0x0F) ∧
    decode 0x13000000447A000045FA0000 = .error (.reservedOpcode 0x13) ∧
    decode 0xFF0000003F8000003F800000 = .error (.reservedOpcode 0xFF) := by decide

theorem test_decode_immediate :
    decode 0x010000010000000000000000 = .error (.immediateNotZero 0x01 1) ∧
    decode 0x028000000000000000000000 = .error (.immediateNotZero 0x02 0x800000) ∧
    decode 0x100000013F8000003F800000 = .error (.immediateNotZero 0x10 1) ∧
    decode 0x12FFFFFF0000000000000000 = .error (.immediateNotZero 0x12 0xFFFFFF) := by decide

/-- The numbering of the opcode table: the command word is bits 31..0, the lanes follow (30_encoding.md R54). -/
theorem test_tableWord :
    decodeTableWord 32 0x04000003 = some (.pbuf 3) ∧
    decodeTableWord 96 0x472C4400447A000002000000 = some (.setup 0x447A0000 0x472C4400) ∧
    decodeTableWord 32 0x07000000 = none := by decide

/-! ## The arithmetic (2.1) -/

theorem test_fadd :
    fadd 0x3F800000 0x33800000 = 0x3F800000 ∧ fadd 0x3F800001 0x33800000 = 0x3F800002 ∧
    fadd 0x7F7FFFFF 0x73000000 = 0x7F800000 ∧ fadd 0x7F7FFFFF 0x72FFFFFF = 0x7F7FFFFF ∧
    fadd 0x3F800000 0xBF800000 = 0x00000000 ∧ fadd 0x007FFFFF 0x00000001 = 0x00800000 := by decide +kernel

theorem test_fsub :
    fsub 0x80000000 0x00000000 = 0x80000000 ∧ fsub 0x80000000 0x80000000 = 0x00000000 ∧
    fsub 0x3F800000 0x43446256 = 0xC3436256 ∧ fsub 0xFF7FFFFF 0x7F7FFFFF = 0xFF800000 := by decide +kernel

theorem test_fmul :
    fmul 0x00800001 0x3F000000 = 0x00400000 ∧ fmul 0x00800003 0x3F000000 = 0x00400002 ∧
    fmul 0x00000001 0x3F400000 = 0x00000001 ∧ fmul 0xC0000000 0x00000000 = 0x80000000 ∧
    fmul 0x3FB504F3 0x3FB504F3 = 0x3FFFFFFF := by decide +kernel

theorem test_fdiv :
    fdiv 0x3F800000 0x40400000 = 0x3EAAAAAB ∧ fdiv 0x3F800000 0x80000000 = 0xFF800000 ∧
    fdiv 0x00000003 0x40000000 = 0x00000002 ∧ fdiv 0x4544597C 0x472C4400 = 0x3D91E531 := by decide +kernel

theorem test_flt :
    flt 0x80000000 0x00000000 = false ∧ flt 0xFF800000 0xFF7FFFFF = true ∧ flt 0x7F7FFFFF 0x7F800000 = true ∧
    flt 0xC0000000 0xBF800000 = true ∧ flt 0x7FC00000 0x3F800000 = false := by decide +kernel

/-- The rows whose result is a NaN, whatever the parameter `NAN_RESULT` is. -/
theorem test_invalid_operations :
    isNaN (fadd 0x7F800000 0xFF800000) = true ∧ isNaN (fsub 0x7F800000 0x7F800000) = true ∧
    isNaN (fmul 0x7F800000 0x00000000) = true ∧ isNaN (fdiv 0x00000000 0x00000000) = true ∧
    isNaN (fdiv 0x7F800000 0x7F800000) = true ∧ isNaN (fadd 0x7FC00000 0x3F800000) = true :=
  ⟨isNaN_nanResult _ _ _, isNaN_nanResult _ _ _, isNaN_nanResult _ _ _, isNaN_nanResult _ _ _,
    isNaN_nanResult _ _ _, isNaN_nanResult _ _ _⟩

theorem test_fneg : fneg 0x3FE77686 = 0xBFE77686 ∧ fneg 0x7FC00000 = 0xFFC00000 := by decide

/-! ## The mixdown, the calculator, the filter (2.2 to 2.5, S3) -/

theorem test_mixf :
    mixf 0x3DCCCCCD 0x3E4CCCCD = 0x3E19999A ∧ mixf 0x7F7FFFFF 0x7F7FFFFF = 0x7F800000 ∧
    mixf 0x00000001 0x00000002 = 0x00000002 := by decide +kernel

theorem test_validFreq :
    validFreq 0x46AC4400 0x472C4400 = false ∧ validFreq 0x46AC43FF 0x472C4400 = true ∧
    validFreq 0x459C4000 0x461C4000 = false ∧ validFreq 0x459C4000 0x461C4001 = true ∧
    validFreq 0x00000001 0x00000003 = true ∧ validFreq 0x00000001 0x00000002 = false := by decide +kernel

theorem test_calcW : calcW 0x447A0000 0x45FA0000 = 0x3EC90FDB ∧ calcW 0x41A00000 0x472C4400 = 0x3ABABEF7 := by
  decide +kernel

/-- R78 and the reference tangents of 2.1, for three of the words printed. -/
theorem test_tan32ref_1000_44100 : IsTan32ref 0x3D91E531 0x3D922480 :=
  isTan32ref_of_taylor (by decide +kernel) (by decide +kernel) (by decide +kernel) (by decide +kernel)

theorem test_tan32ref_1000_8000 : IsTan32ref 0x3EC90FDB 0x3ED413CD :=
  isTan32ref_of_taylor (by decide +kernel) (by decide +kernel) (by decide +kernel) (by decide +kernel)

theorem test_tan32ref_quarter : IsTan32ref 0x3F490FDA 0x3F7FFFFF :=
  isTan32ref_of_taylor (by decide +kernel) (by decide +kernel) (by decide +kernel) (by decide +kernel)

theorem test_lowpass_8000 :
    lowpassOf 0x3ED413CD = ⟨0x3DC7F2CE, 0x3E47F2CE, 0x3DC7F2CE, 0xBF715BEE, 0x3EAAAAAA⟩ := by decide +kernel

theorem test_highpass_8000 :
    highpassOf 0x3ED413CD = ⟨0x3F11AC51, 0xBF91AC51, 0x3F11AC51, 0xBF715BEF, 0x3EAAAAAA⟩ := by decide +kernel

/-- The coefficients of (1000, 44100) and of (1000, 8000) as section 2.3 prints them. -/
def low44100 : Coeffs := ⟨0x3B96DD24, 0x3C16DD24, 0x3B96DD24, 0xBFE648CC, 0x3F514880⟩
def high44100 : Coeffs := ⟨0x3F677686, 0xBFE77686, 0x3F677686, 0xBFE648CB, 0x3F514880⟩
def low8000 : Coeffs := ⟨0x3DC7F2CE, 0x3E47F2CE, 0x3DC7F2CE, 0xBF715BEE, 0x3EAAAAAA⟩
def high8000 : Coeffs := ⟨0x3F11AC51, 0xBF91AC51, 0x3F11AC51, 0xBF715BEF, 0x3EAAAAAA⟩

/-- S3: the state captured before each call's update, two calls. -/
theorem test_bqProcess_order :
    nextDelay low44100 ⟨0x00000000, 0x3F800000, 0x3C8F495C, 0x3B96DD24⟩ 0x3F000000 =
      ⟨0x3F000000, 0x00000000, 0x3D0DC376, 0x3C8F495C⟩ ∧
    nextDelay low44100 ⟨0x3F000000, 0x00000000, 0x3D0DC376, 0x3C8F495C⟩ 0xBE800000 =
      ⟨0xBE800000, 0x3F000000, 0x3D529ED8, 0x3D0DC376⟩ := by decide +kernel

theorem test_bqOutput_high :
    bqOutput high44100 ⟨0x00000000, 0x3F800000, 0xBE3A01C8, 0x3F677686⟩ 0x3F000000 = 0x3E949E70 ∧
    bqOutput high44100 ⟨0x3F000000, 0x00000000, 0x3E949E70, 0xBE3A01C8⟩ 0xBE800000 = 0xBEEB3F09 := by
  decide +kernel

/-! ## One step of each command -/

/-- A state of the engine state machine with both filters at the coefficients of (1000, 8000) and a delay line. -/
def engineAt (e : EngineState) (dl dh : Delay) : State :=
  { State.reset with engine := e, lp := Filter.holding low8000 dl, hp := Filter.holding high8000 dh }

/-- The last response of an outcome, as its 192 bits. -/
def answerOf : Host.Outcome State Fault Refusal → Option (BitVec 192)
  | .next s => s.responses.getLast?.map Response.bits
  | .fault _ => none
  | .refused _ => none

/-- The status word of the last response of an outcome. -/
def statusOf : Host.Outcome State Fault Refusal → Option Word
  | .next s => s.responses.getLast?.map Response.st
  | .fault _ => none
  | .refused _ => none

/-- The status words a command gets in the states 0, 1, 2, 3 (2.7). -/
def statusRow (i : Instr) : List (Option Word) :=
  [statusOf (exec i State.reset), statusOf (exec i (engineAt .ready Delay.zero Delay.zero)),
   statusOf (exec i (engineAt .running Delay.zero Delay.zero)),
   statusOf (exec i (engineAt .stopped Delay.zero Delay.zero))]

theorem test_row_rst : statusRow .rst = [some 0x0000, some 0x0000, some 0x0000, some 0x0000] := by decide
theorem test_row_setupv : statusRow (.setup 0x447A0000 0x472C4400) =
    [some 0x0100, some 0x0100, some 0x0202, some 0x0100] := by decide +kernel
theorem test_row_setupx : statusRow (.setup 0x00000000 0x472C4400) =
    [some 0x0001, some 0x0001, some 0x0202, some 0x0001] := by decide +kernel
theorem test_row_pfrm : statusRow (.pfrm 0 0) = [some 0x0002, some 0x0200, some 0x0200, some 0x0302] := by
  decide +kernel
theorem test_row_pbuf : statusRow (.pbuf 0) = [some 0x0002, some 0x0200, some 0x0200, some 0x0302] := by decide
theorem test_row_stop : statusRow .stop = [some 0x0002, some 0x0300, some 0x0300, some 0x0300] := by decide
theorem test_row_stat : statusRow .stat = [some 0x0000, some 0x0100, some 0x0200, some 0x0300] := by decide
theorem test_row_mix : statusRow (.mix 0 0) = [some 0x0000, some 0x0100, some 0x0200, some 0x0300] := by
  decide +kernel
theorem test_row_clp : statusRow (.clp 0x447A0000 0x472C4400) =
    [some 0x0000, some 0x0100, some 0x0200, some 0x0300] := by decide +kernel
theorem test_row_chp : statusRow (.chp 0x00000000 0x472C4400) =
    [some 0x0001, some 0x0101, some 0x0201, some 0x0301] := by decide +kernel

/-- P4, command 14: a reserved opcode in Running. -/
theorem test_step_reserved :
    answerOf (step { engineAt .running Delay.zero Delay.zero with run := [.command 0x13000000447A000045FA0000] }) =
      some 0x000002030000000000000000000000000000000000000000 := by decide

/-- P4, command 11: an illegal encoding is reported before the state and the operands. -/
theorem test_step_priority :
    answerOf (step { engineAt .running Delay.zero Delay.zero with run := [.command 0x020000010000000045FA0000] }) =
      some 0x000002030000000000000000000000000000000000000000 := by decide

/-- P3, command 6: the first frame after a setup answers `a0` of both filters. -/
theorem test_pfrm_first :
    answerOf (exec (.pfrm 0x3F800000 0x3F800000) (engineAt .ready Delay.zero Delay.zero)) =
      some 0x000002003DC7F2CE3F11AC51000000000000000000000000 := by decide +kernel

/-- P3, command 8: the second frame. -/
theorem test_pfrm_second :
    answerOf (exec (.pfrm 0x3F800000 0x3F800000) (engineAt .running ⟨0x3F800000, 0, 0x3DC7F2CE, 0⟩
        ⟨0x3F800000, 0, 0x3F11AC51, 0⟩)) =
      some 0x000002003EC516F2BD054C80000000000000000000000000 := by decide +kernel

/-- P2a, command 4. -/
theorem test_mix :
    answerOf (exec (.mix 0x3F800000 0x40000000) (engineAt .running Delay.zero Delay.zero)) =
      some 0x000002003FC0000000000000000000000000000000000000 := by decide +kernel

/-- The two frames of P2a, command 3, in a platform with two buffers of two frames. -/
def twoFrames : State :=
  { engineAt .ready Delay.zero Delay.zero with
    frames := 2
    input := Memory.ofList [(⟨0, 0⟩, 0x3F000000), (⟨0, 1⟩, 0x3E800000), (⟨1, 0⟩, 0xBF800000), (⟨1, 1⟩, 0x3F000000)] }

/-- The accesses recorded by an outcome. -/
def accessesOf : Host.Outcome State Fault Refusal → Option (List Access)
  | .next s => some s.accesses
  | .fault _ => none
  | .refused _ => none

/-- P2a, command 3: the eight accesses in their order. -/
theorem test_pbuf_accesses : accessesOf (exec (.pbuf 2) twoFrames) = some
    [.read ⟨0, 0⟩ 0x3F000000, .read ⟨0, 1⟩ 0x3E800000, .write ⟨0, 0⟩ 0x3D15F61A, .write ⟨0, 1⟩ 0x3E5A827A,
     .read ⟨1, 0⟩ 0xBF800000, .read ⟨1, 1⟩ 0x3F000000, .write ⟨1, 0⟩ 0x3DAAAAAA, .write ⟨1, 1⟩ 0xBEBC56FC] := by
  decide +kernel

/-- P2a, command 3: the delay lines after it, and the response. -/
theorem test_pbuf_registers :
    (match exec (.pbuf 2) twoFrames with
      | .next t => decide (t.lp = Filter.holding low8000 ⟨0xBE800000, 0x3EC00000, 0x3DAAAAAA, 0x3D15F61A⟩ ∧
          t.hp = Filter.holding high8000 ⟨0xBE800000, 0x3EC00000, 0xBEBC56FC, 0x3E5A827A⟩ ∧
          t.responses.map Response.bits = [0x000002000000000000000000000000000000000000000000])
      | .fault _ => false
      | .refused _ => false) = true := by decide +kernel

/-- A `PBUF` longer than the platform's buffers stops by name (U6 of spec/93_implementation_defined.md). -/
theorem test_pbuf_beyond : exec (.pbuf 3) { twoFrames with frames := 0 } = .fault .noInputSample := by rfl

/-- The reset input answers nothing (R128). -/
theorem test_step_resetPin :
    step { twoFrames with run := [.resetPin] } =
      .next { twoFrames with engine := .uninitialized, lp := Filter.unset, hp := Filter.unset, run := [] } := by rfl

/-- The opcode-table word of a command is the next instruction (R41, R47). -/
theorem test_withFetchWord :
    answerOf (step (State.reset.withFetchWord 32 0x06000000)) = some 0 ∧
    answerOf (step (State.reset.withFetchWord 32 0x05000000)) =
      some 0x000000020000000000000000000000000000000000000000 := by decide

/-! ## The script language (R60 to R62) -/

theorem test_assemble_setup : assemble "SETUP 1000.0, 44100.0".toList = .ok [0x02000000447A0000472C4400] := by
  decide +kernel
theorem test_assemble_pfrm : assemble "PFRM 3e38, 0x7FC00000".toList = .ok [0x030000007F61B1E67FC00000] := by
  decide +kernel
theorem test_assemble_reconf :
    assemble "RECONF 1000, 8000".toList = .ok [0x050000000000000000000000, 0x02000000447A000045FA0000] := by
  decide +kernel

/-! ## Shared storage (R46; log entry 9) -/

/-- Where storage is shared an output sample is the input sample at its address, before a write and after it. -/
theorem test_shared_storage :
    let s := State.reset.takeBuffers 1 true [(⟨0, 0⟩, 7)] [(⟨0, 0⟩, 9)]
    s.output.get ⟨0, 0⟩ = 7 ∧ (s.storeSample ⟨0, 1⟩ 5).input.get ⟨0, 1⟩ = 5 ∧
    (State.reset.takeBuffers 1 false [(⟨0, 0⟩, 7)] [(⟨0, 0⟩, 9)]).output.get ⟨0, 0⟩ = 9 := by decide

/-! ## Witnesses: for each statement with hypotheses, a state and operands that meet them together

Each is named after its statement; where a statement has several clauses, each clause has its own, at the ends of
its range. -/

/-- A state after a `SETUP 1000, 44100`, the tangent being whatever the platform's is. -/
def setUp (e : EngineState) : State :=
  { State.reset with
    engine := e
    lp := Filter.holding (calcLp 0x447A0000 0x472C4400) Delay.zero
    hp := Filter.holding (calcHp 0x447A0000 0x472C4400) Delay.zero }

theorem test_validFreq_1000_44100 : validFreq 0x447A0000 0x472C4400 = true := by decide +kernel
theorem test_validFreq_0_44100 : validFreq 0x00000000 0x472C4400 = false := by decide +kernel

theorem setUp_inv (e : EngineState) (he : e ≠ .uninitialized) : (setUp e).Inv := by
  have h : (setUp e).ReachedBy 0x447A0000 0x472C4400 [] := ⟨test_validFreq_1000_44100, rfl, rfl⟩
  refine ⟨?_, ⟨Memory.wf_nil, Memory.wf_nil⟩, fun _ => rfl, fun r hr => absurd hr List.not_mem_nil⟩
  cases e with
  | uninitialized => exact absurd rfl he
  | ready => exact ⟨_, _, h⟩
  | running => exact ⟨_, _, _, h⟩
  | stopped => exact ⟨_, _, _, h⟩

theorem test_reset_inv : State.reset.Inv :=
  ⟨⟨rfl, rfl⟩, ⟨Memory.wf_nil, Memory.wf_nil⟩, fun _ => rfl, fun _ hr => absurd hr List.not_mem_nil⟩

theorem test_witness_DecoderAcceptsExactlyTheLegalFields :
    (⟨.pbuf, 0x04000000, 0xFF000000⟩ : Row) ∈ opcodeMap ∧
    rowAccepts 0x04FFFFFF ⟨.pbuf, 0x04000000, 0xFF000000⟩ = true := by decide

theorem test_witness_ReservedOpcodesAreAnsweredIllegalCommand :
    ({ State.reset with run := [.command 0x070000000000000000000000] } : State).run =
      .command 0x070000000000000000000000 :: [] ∧
    cwOPC (cmdCW 0x00FFFFFF0000000000000000) ∉ ([0x01, 0x02, 0x03, 0x04, 0x05, 0x06, 0x10, 0x11, 0x12] : List (BitVec 8)) ∧
    cwOPC (cmdCW 0x070000000000000000000000) ∉ ([0x01, 0x02, 0x03, 0x04, 0x05, 0x06, 0x10, 0x11, 0x12] : List (BitVec 8)) ∧
    cwOPC (cmdCW 0x0F0000000000000000000000) ∉ ([0x01, 0x02, 0x03, 0x04, 0x05, 0x06, 0x10, 0x11, 0x12] : List (BitVec 8)) ∧
    cwOPC (cmdCW 0x130000000000000000000000) ∉ ([0x01, 0x02, 0x03, 0x04, 0x05, 0x06, 0x10, 0x11, 0x12] : List (BitVec 8)) ∧
    cwOPC (cmdCW 0xFF0000000000000000000000) ∉ ([0x01, 0x02, 0x03, 0x04, 0x05, 0x06, 0x10, 0x11, 0x12] : List (BitVec 8)) := by decide

theorem test_witness_NonzeroImmediateIsAnsweredIllegalCommand :
    ({ State.reset with run := [.command 0x010000010000000000000000] } : State).run =
      .command 0x010000010000000000000000 :: [] ∧
    cwOPC (cmdCW 0x010000010000000000000000) = 0x01 ∧ cwIMM24 (cmdCW 0x010000010000000000000000) ≠ 0 ∧
    cwOPC (cmdCW 0x02FFFFFF0000000000000000) = 0x02 ∧ cwIMM24 (cmdCW 0x02FFFFFF0000000000000000) ≠ 0 ∧
    cwOPC (cmdCW 0x038000000000000000000000) = 0x03 ∧ cwIMM24 (cmdCW 0x038000000000000000000000) ≠ 0 ∧
    cwOPC (cmdCW 0x050000010000000000000000) = 0x05 ∧ cwIMM24 (cmdCW 0x050000010000000000000000) ≠ 0 ∧
    cwOPC (cmdCW 0x060000010000000000000000) = 0x06 ∧ cwIMM24 (cmdCW 0x060000010000000000000000) ≠ 0 ∧
    cwOPC (cmdCW 0x100000010000000000000000) = 0x10 ∧ cwIMM24 (cmdCW 0x100000010000000000000000) ≠ 0 ∧
    cwOPC (cmdCW 0x110000010000000000000000) = 0x11 ∧ cwIMM24 (cmdCW 0x110000010000000000000000) ≠ 0 ∧
    cwOPC (cmdCW 0x12FFFFFF0000000000000000) = 0x12 ∧ cwIMM24 (cmdCW 0x12FFFFFF0000000000000000) ≠ 0 := by decide

theorem test_witness_UnusedLanesHaveNoEffect :
    cwOPC 0x01000000 = 0x01 ∧
    cwOPC 0x04000000 = 0x04 ∧
    cwOPC 0x04FFFFFF = 0x04 ∧
    cwOPC 0x05000000 = 0x05 ∧
    cwOPC 0x06000001 = 0x06 := by decide

/-- For the statements about every command that ends: one command of each shape does. -/
theorem test_witness_exec_next :
    (∃ t, exec .rst State.reset = .next t) ∧ (∃ t, exec .stop (setUp .ready) = .next t) ∧
    (∃ t, exec (.pfrm 0 0) (setUp .running) = .next t) ∧ (∃ t, exec (.pbuf 0) (setUp .ready) = .next t) ∧
    (∃ t, exec .stat (setUp .stopped) = .next t) ∧ (∃ t, exec (.mix 0 0) State.reset = .next t) :=
  ⟨⟨_, rfl⟩, ⟨_, rfl⟩, ⟨_, rfl⟩, ⟨_, rfl⟩, ⟨_, rfl⟩, ⟨_, rfl⟩⟩

theorem test_witness_EveryCommandDeliversOneWellFormedResponse :
    exec .stat State.reset = .next (respondOk Lanes.zero State.reset) := rfl

theorem test_witness_StepRunsTheDecodedCommand :
    ({ setUp .ready with run := [.command 0x050000000000000000000000] } : State).run =
      .command 0x050000000000000000000000 :: [] ∧
    decode 0x050000000000000000000000 = .ok .stop ∧ Instr.stop.wellFormed = true := by decide

theorem test_witness_ResetUnsetsTheEngineAndNothingElse :
    ({ setUp .running with run := [.resetPin] } : State).run = .resetPin :: [] ∧ State.reset.run = [] := ⟨rfl, rfl⟩

theorem test_witness_HandOverPlacesTheSamplesOfBothBuffers :
    ({ setUp .ready with run := [.handOver 1 true [(⟨0, 0⟩, 1), (⟨0, 0⟩, 2)] []] } : State).run =
      .handOver 1 true [(⟨0, 0⟩, 1), (⟨0, 0⟩, 2)] [] :: [] := rfl

theorem test_witness_SetupLoadsCoefficientsAndClearsDelayLines :
    State.reset.engine ≠ .running ∧ (setUp .ready).engine ≠ .running ∧ (setUp .stopped).engine ≠ .running ∧
    validFreq 0x447A0000 0x472C4400 = true :=
  ⟨by decide, by decide, by decide, test_validFreq_1000_44100⟩

theorem test_witness_SetupWithInvalidFrequencyUnsetsTheEngine :
    State.reset.engine ≠ .running ∧ (setUp .stopped).engine ≠ .running ∧ validFreq 0x00000000 0x472C4400 = false :=
  ⟨by decide, by decide, test_validFreq_0_44100⟩

theorem test_witness_IllegalStateExactlyWhereTheStateRefuses :
    (setUp .running).engine = .running ∧ State.reset.engine = .uninitialized ∧ (setUp .stopped).engine = .stopped ∧
    ∃ t r, exec .stop State.reset = .next t ∧ t.responses = State.reset.responses ++ [r] ∧
      r.codeField = Status.illegalState.code :=
  ⟨rfl, rfl, rfl, _, ⟨0x00000002, 0, 0, 0, 0, 0⟩, rfl, by decide, by decide⟩

/-- For the statements about filters that hold words: `PfrmProcessesOneFrame`, `PbufBeyondTheBufferStops`. -/
theorem test_witness_PfrmProcessesOneFrame :
    (setUp .ready).engine = .ready ∧ (setUp .running).engine = .running ∧
    (setUp .ready).lp = Filter.holding (calcLp 0x447A0000 0x472C4400) Delay.zero ∧
    (setUp .ready).hp = Filter.holding (calcHp 0x447A0000 0x472C4400) Delay.zero := ⟨rfl, rfl, rfl, rfl⟩

theorem twoFrames_holds : twoFrames.engine = .ready ∧ twoFrames.lp = Filter.holding low8000 Delay.zero ∧
    twoFrames.hp = Filter.holding high8000 Delay.zero := ⟨rfl, rfl, rfl⟩

theorem twoFrames_pbuf (n : FrameIndex) (h : n.toNat ≤ 2) : ∃ t, exec (.pbuf n) twoFrames = .next t := by
  have h2 := execPbuf_holding (n := n) (Or.inl twoFrames_holds.1) twoFrames_holds.2.1 twoFrames_holds.2.2
  rw [if_pos (show n.toNat ≤ twoFrames.frames from h)] at h2
  obtain ⟨t, ht, _⟩ := h2
  exact ⟨_, ht⟩

theorem test_witness_PbufProcessesEveryFrameOfItsBuffer :
    twoFrames.engine = .ready ∧ (0 : FrameIndex).toNat ≤ twoFrames.frames ∧
    (2 : FrameIndex).toNat ≤ twoFrames.frames := by decide

theorem test_witness_PbufAccessesEachSampleOnceInOrder : ∃ t, exec (.pbuf 2) twoFrames = .next t :=
  twoFrames_pbuf 2 (by decide)

/-- The last frame written, the first frame not written, and a channel that is not written; the same with shared
storage. -/
theorem test_witness_PbufWritesItsOutputSamplesAndNoOther :
    (∃ t, exec (.pbuf 2) twoFrames = .next t) ∧ 1 < (2 : FrameIndex).toNat ∧ twoFrames.inPlace = false ∧
    (∃ t, exec (.pbuf 1) { twoFrames with inPlace := true } = .next t) ∧
    (∀ a ∈ ([⟨0, 0⟩, ⟨1, 1⟩] : List Addr), a.frame < (2 : FrameIndex) ∧ a.channel < 2) ∧
    ∀ a ∈ ([⟨2, 0⟩, ⟨0xFFFFFF, 1⟩, ⟨0, 2⟩, ⟨1, 5⟩] : List Addr), ¬ (a.frame < (2 : FrameIndex) ∧ a.channel < 2) :=
  ⟨twoFrames_pbuf 2 (by decide), by decide, rfl, ⟨_, rfl⟩, by decide, by decide⟩

theorem test_witness_PbufBeyondTheBufferStops :
    twoFrames.engine = .ready ∧ twoFrames.frames < (3 : FrameIndex).toNat := by decide

theorem test_witness_StopWritesTheStateOnly :
    (setUp .ready).engine ≠ .uninitialized ∧ (setUp .running).engine ≠ .uninitialized ∧
    (setUp .stopped).engine ≠ .uninitialized := by decide

theorem test_witness_ClpAndChpOnlyAnswer :
    validFreq 0x447A0000 0x472C4400 = true ∧ validFreq 0x46AC4400 0x472C4400 = false := by decide +kernel

theorem test_witness_ChecksReportTheFirstFailure :
    ({ setUp .running with run := [.command 0x020000010000000045FA0000] } : State).run =
      .command 0x020000010000000045FA0000 :: [] ∧
    ({ setUp .running with run := [.command 0x0200000000000000472C4400] } : State).run =
      .command 0x0200000000000000472C4400 :: [] ∧
    fieldsWellFormed (cwOPC (cmdCW 0x020000010000000045FA0000)) (cwIMM24 (cmdCW 0x020000010000000045FA0000)) = false ∧
    decode 0x0200000000000000472C4400 = .ok (.setup 0x00000000 0x472C4400) ∧
    (setUp .running).engine = .running ∧ (setUp .ready).engine ≠ .running := by decide

/-- A command that answers a code other than `OK`, one for each case. -/
theorem test_witness_ErrorsArePrecise :
    (∃ t r, exec (.pbuf 1) State.reset = .next t ∧ t.responses = State.reset.responses ++ [r] ∧
      r.codeField ≠ Status.ok.code) ∧
    (∃ t r, exec (.setup 0 0x472C4400) State.reset = .next t ∧ t.responses = State.reset.responses ++ [r] ∧
      r.codeField ≠ Status.ok.code ∧ r.codeField = Status.invalidFrequency.code ∧
      ∃ fc fs, Instr.setup 0 0x472C4400 = .setup fc fs) ∧
    ({ State.reset with run := [.command 0] } : State).run = .command 0 :: [] ∧
    decode 0 = .error (.reservedOpcode 0) := by
  refine ⟨⟨_, ⟨0x00000002, 0, 0, 0, 0, 0⟩, rfl, by decide, by decide⟩,
    ⟨raiseStatus .invalidFrequency (resetEngine State.reset), ⟨0x00000001, 0, 0, 0, 0, 0⟩, ?_, by decide, by decide,
      by decide, _, _, rfl⟩, rfl, by decide⟩
  change execSetup _ _ _ = _
  rw [execSetup, if_neg (by decide), if_neg (by rw [test_validFreq_0_44100]; decide)]

theorem test_witness_OnlyPbufReachesTheSampleSpaces : (∀ n, Instr.pfrm 0 0 ≠ .pbuf n) ∧
    ∃ t, exec (.pfrm 0 0) twoFrames = .next t := ⟨fun _ h => Instr.noConfusion h, ⟨_, rfl⟩⟩

theorem test_witness_OnlySetupAndRstChangeCoefficients :
    Instr.pbuf 2 ≠ .rst ∧ (∀ fc fs, Instr.pbuf 2 ≠ .setup fc fs) ∧ ∃ t, exec (.pbuf 2) twoFrames = .next t :=
  ⟨fun h => Instr.noConfusion h, fun _ _ h => Instr.noConfusion h, twoFrames_pbuf 2 (by decide)⟩

theorem test_witness_StoppedIsInert :
    (setUp .stopped).engine = .stopped ∧ Instr.pfrm 0 0 ≠ .rst ∧ (∀ fc fs, Instr.pfrm 0 0 ≠ .setup fc fs) ∧
    ∃ t, exec (.pfrm 0 0) (setUp .stopped) = .next t :=
  ⟨rfl, fun h => Instr.noConfusion h, fun _ _ h => Instr.noConfusion h, ⟨_, rfl⟩⟩

theorem test_witness_EveryStepKeepsTheInvariant :
    ((setUp .running).withFetchWord 32 0x05000000).Inv ∧ ∃ t, step ((setUp .running).withFetchWord 32 0x05000000) = .next t :=
  ⟨setUp_inv .running (by decide), ⟨_, rfl⟩⟩

theorem test_witness_RegistersAreUnsetExactlyInUninitialized :
    State.reset.Inv ∧ (setUp .ready).Inv ∧ (setUp .ready).engine ≠ .uninitialized :=
  ⟨test_reset_inv, setUp_inv _ (by decide), by decide⟩

theorem test_witness_EveryCommandEndsWithAResponse :
    (setUp .running).Inv ∧ (setUp .running).Launchable (.pbuf 0) ∧
    ({ setUp .running with frames := 3 } : State).Inv ∧
    ({ setUp .running with frames := 3 } : State).Launchable (.pbuf 3) ∧
    Reg.unset ∈ ({ setUp .ready with lp := Filter.unset } : State).datapath ∧
    Reg.unset ∈ ({ setUp .running with hp := { (setUp .running).hp with y2 := .unset } } : State).datapath :=
  ⟨setUp_inv _ (by decide), Nat.le_refl _, setUp_inv .running (by decide), Nat.le_refl _,
    List.mem_append_left _ List.mem_cons_self, List.mem_append_right _ (by simp [Filter.regs])⟩

/-- Another state that agrees with `twoFrames` on the engine's registers and the input samples, and in little else. -/
def twoFramesElsewhere : State :=
  { twoFrames with frames := 7, inPlace := true, accesses := [.read ⟨9, 9⟩ 9], responses := [⟨1, 2, 3, 4, 5, 6⟩] }

theorem test_witness_CommandsDependOnRegistersAndInputAlone :
    twoFrames.engine = twoFramesElsewhere.engine ∧ twoFrames.lp = twoFramesElsewhere.lp ∧
    twoFrames.hp = twoFramesElsewhere.hp ∧ twoFrames.input = twoFramesElsewhere.input ∧
    ∃ t v r q, exec (.pbuf 1) twoFrames = .next t ∧ exec (.pbuf 1) twoFramesElsewhere = .next v ∧
      t.responses = twoFrames.responses ++ [r] ∧ v.responses = twoFramesElsewhere.responses ++ [q] :=
  ⟨rfl, rfl, rfl, rfl, _, _, _, _, rfl, rfl, rfl, rfl⟩

theorem test_witness_TheTwoFiltersDoNotShareState :
    (∃ t r, exec (.pfrm 0 0) twoFrames = .next t ∧ t.responses = twoFrames.responses ++ [r]) ∧
    (∃ v q, exec (.pfrm 0 0) { twoFrames with hp := Filter.holding low8000 Delay.zero } = .next v ∧
      v.responses = twoFrames.responses ++ [q]) ∧
    ∃ v q, exec (.pfrm 0 0) { twoFrames with lp := Filter.holding high8000 Delay.zero } = .next v ∧
      v.responses = twoFrames.responses ++ [q] :=
  ⟨⟨_, _, rfl, rfl⟩, ⟨_, _, rfl, rfl⟩, ⟨_, _, rfl, rfl⟩⟩

theorem test_witness_TheTwoFiltersDoNotShareState_pbuf :
    (∃ t r, exec (.pbuf 1) twoFrames = .next t ∧ t.responses = twoFrames.responses ++ [r]) ∧
    (∃ v q, exec (.pbuf 1) { twoFrames with hp := Filter.holding low8000 Delay.zero } = .next v ∧
      v.responses = twoFrames.responses ++ [q]) ∧
    ∃ v q, exec (.pbuf 1) { twoFrames with lp := Filter.holding high8000 Delay.zero } = .next v ∧
      v.responses = twoFrames.responses ++ [q] :=
  ⟨⟨_, _, rfl, rfl⟩, ⟨_, _, rfl, rfl⟩, ⟨_, _, rfl, rfl⟩⟩

theorem test_witness_NoCommandReadsARegisterBack :
    (∀ a b, Instr.stat ≠ .pfrm a b) ∧ (∀ n, Instr.stat ≠ .pbuf n) ∧
    (∃ t, exec .stat twoFrames = .next t) ∧
    ∃ t, exec .stat { twoFrames with lp := Filter.unset, hp := Filter.unset } = .next t :=
  ⟨fun _ _ h => Instr.noConfusion h, fun _ h => Instr.noConfusion h, ⟨_, rfl⟩, ⟨_, rfl⟩⟩

theorem test_witness_PbufEqualsAsManyPfrms :
    (∃ t, exec (.pbuf 2) twoFrames = .next t) ∧ (∃ t, exec (.pbuf 0) twoFrames = .next t) ∧ (2 : FrameIndex) ≠ 0 :=
  ⟨twoFrames_pbuf 2 (by decide), twoFrames_pbuf 0 (by decide), by decide⟩

/-- One frame of `twoFrames`, and then the other in a buffer of its own. -/
theorem test_witness_CuttingABufferInTwoChangesNothing :
    ∃ t w u : State, exec (.pbuf 1) twoFrames = .next t ∧ exec (.pbuf (1 + 1)) twoFrames = .next w ∧
      (1 : FrameIndex).toNat + (1 : FrameIndex).toNat < 2 ^ 24 ∧
      u.engine = t.engine ∧ u.lp = t.lp ∧ u.hp = t.hp ∧ (1 : FrameIndex).toNat ≤ u.frames ∧
      ∀ i, i < (1 : FrameIndex).toNat → u.inputFrame i = twoFrames.inputFrame ((1 : FrameIndex).toNat + i) := by
  obtain ⟨t, ht⟩ := twoFrames_pbuf 1 (by decide)
  obtain ⟨w, hw⟩ := twoFrames_pbuf (1 + 1) (by decide)
  refine ⟨t, w, { t with frames := 1, input := Memory.ofList [(⟨0, 0⟩, 0xBF800000), (⟨0, 1⟩, 0x3F000000)] },
    ht, hw, by decide, rfl, rfl, rfl, Nat.le_refl _, ?_⟩
  intro i hi
  have h0 : i = 0 := Nat.lt_one_iff.1 hi
  subst h0
  show ((Memory.ofList [(⟨0, 0⟩, 0xBF800000), (⟨0, 1⟩, 0x3F000000)]).get ⟨BitVec.ofNat 24 0, 0⟩,
    (Memory.ofList [(⟨0, 0⟩, 0xBF800000), (⟨0, 1⟩, 0x3F000000)]).get ⟨BitVec.ofNat 24 0, 1⟩) =
      twoFrames.inputFrame ((1 : FrameIndex).toNat + 0)
  decide

theorem test_witness_InPlaceBuffersGiveTheSameResult : ∃ t, exec (.pbuf 2) { twoFrames with inPlace := false } = .next t :=
  twoFrames_pbuf 2 (by decide)

theorem test_witness_BqProcessFollowsTheRecurrence : ∃ y : Word,
    y = fsub (fsub (fadd (fadd (fmul ONE ONE) (fmul ONE ONE)) (fmul ONE ONE)) (fmul ONE ONE)) (fmul ONE ONE) :=
  ⟨_, rfl⟩

theorem test_witness_TwoCallsFollowTheUpdateOrder : ∃ y f y' f',
    bqProcess (Filter.holding low44100 ⟨0x00000000, 0x3F800000, 0x3C8F495C, 0x3B96DD24⟩) 0x3F000000 = .ok (y, f) ∧
    bqProcess f 0xBE800000 = .ok (y', f') := ⟨_, _, _, _, rfl, rfl⟩

theorem test_witness_NonFiniteOutputsPersist :
    isFinite (⟨0, 0, 0x7F800000, 0⟩ : Delay).y1 = false ∧ isFinite (⟨0, 0, 0x7FC00000, 0⟩ : Delay).y1 = false ∧
    isFinite 0x7F800000 = false ∧ isFinite 0xFF800000 = false ∧ isNaN 0x7FC00000 = true ∧ isNaN 0x7F800001 = true := by
  decide

theorem test_witness_SilenceIsPreserved :
    isFinite low44100.a0 = true ∧ isFinite low44100.a1 = true ∧ isFinite low44100.a2 = true ∧
    isFinite low44100.b1 = true ∧ isFinite low44100.b2 = true ∧ isZero Delay.zero.x1 = true ∧
    isZero Delay.zero.x2 = true ∧ isZero Delay.zero.y1 = true ∧ isZero Delay.zero.y2 = true ∧
    isZero 0x80000000 = true ∧ isZero PZERO = true ∧ signBit low44100.a0 = false ∧ isInf 0xFF800000 = true ∧
    isFinite ({ low44100 with b2 := 0x7FC00000 } : Coeffs).b2 = false ∧
    isFinite ({ low44100 with a1 := 0x7F800000 } : Coeffs).a1 = false := by decide

theorem test_witness_ImpulseResponseIsTheCoefficients :
    isFinite low44100.a0 = true ∧ isFinite low44100.a1 = true ∧ isFinite low44100.a2 = true ∧
    isFinite low44100.b1 = true ∧ isFinite low44100.b2 = true ∧ isZero low44100.a0 = false ∧
    isZero low44100.a1 = false ∧ isZero low44100.a2 = false ∧
    isZero (fsub low44100.a1 (fmul low44100.b1 low44100.a0)) = false := by decide +kernel

theorem test_witness_ValueOfAFiniteWord :
    expField 0x007FFFFF = 0 ∧ expField 0x80000001 = 0 ∧ expField 0x00800000 = 1 ∧ expField 0x7F7FFFFF = 254 ∧
    isFinite 0xFF7FFFFF = true ∧ (0 : ℚ) < val 0x00000001 ∧ (0 : ℚ) < val 0x00800000 := by decide +kernel

/-- The overflow bound itself, and a value just below it. -/
theorem test_witness_RoundingIsToNearestTiesToEven :
    (2 - 2 ^ (-24 : ℤ)) * 2 ^ 127 ≤ |((2 - 2 ^ (-24 : ℤ)) * 2 ^ 127 : ℚ)| ∧
    ((2 - 2 ^ (-23 : ℤ)) * 2 ^ 127 : ℚ) ≠ 0 ∧
    |((2 - 2 ^ (-23 : ℤ)) * 2 ^ 127 : ℚ)| < (2 - 2 ^ (-24 : ℤ)) * 2 ^ 127 :=
  ⟨le_abs_self _, by norm_num, by rw [abs_of_pos (by norm_num)]; norm_num⟩

/-- A tie: 2 ^ -150 lies half way between +0 and the smallest positive word. -/
theorem test_witness_RoundingIsToNearestTiesToEven_tie :
    isFinite 0x00000001 = true ∧ val 0x00000001 ≠ val (rn32 (1 / 2 ^ 150) false) ∧
    |(1 / 2 ^ 150 : ℚ) - val 0x00000001| = |(1 / 2 ^ 150 : ℚ) - val (rn32 (1 / 2 ^ 150) false)| := by
  have h : rn32 (1 / 2 ^ 150) false = 0x00000000 := by decide +kernel
  have h1 : val 0x00000001 = 1 / 2 ^ 149 := by decide +kernel
  have h0 : val 0x00000000 = 0 := by decide +kernel
  rw [h, h1, h0]
  refine ⟨by decide, by norm_num, ?_⟩
  rw [abs_of_neg (by norm_num), abs_of_pos (by norm_num)]
  norm_num

theorem test_witness_RoundingIsExactOnWords :
    isFinite 0x00000001 = true ∧ isZero 0x00000001 = false ∧ isFinite 0xFF7FFFFF = true ∧
    isZero 0xFF7FFFFF = false := by decide

theorem test_witness_AdditionAndMultiplicationFollowTheirCases :
    isNaN 0x7F800001 = true ∧
    (isInf 0x7F800000 = true ∧ isInf 0xFF800000 = true ∧ signBit 0x7F800000 ≠ signBit 0xFF800000) ∧
    (isNaN 0xFF800000 = false ∧ isZero 0xFF800000 = false ∧ isFinite 0x80000000 = true ∧ isFinite 0x7F7FFFFF = true) ∧
    (isZero 0x00000000 = true ∧ isZero 0x80000000 = true) ∧
    (isFinite 0x00000001 = true ∧ isZero 0x00000001 = false) ∧
    isNaN (fadd 0x3F800000 0x33800000) = false ∧ isNaN (fmul 0x40400000 0x3DCCCCCD) = false := by decide +kernel

theorem test_witness_SubtractionIsAdditionOfTheNegated :
    isNaN 0xFF800001 = true ∧ isFinite 0x7F7FFFFF = true ∧ isNaN 0x7F800000 = false ∧ isNaN 0x80000000 = false := by decide

theorem test_witness_DivisionFollowsItsCases :
    isFinite 0x00000001 = true ∧ isZero 0x00000001 = false ∧ isZero 0x80000000 = true ∧ isInf 0xFF800000 = true ∧
    isFinite 0x80000000 = true ∧ isNaN 0x7FFFFFFF = true ∧ isFinite 0x7F7FFFFF = true := by decide

theorem test_witness_ComparisonOrdersValuesAndInfinities :
    isNaN 0x7F800001 = true ∧ isFinite 0x80000000 = true ∧ isFinite 0xFF7FFFFF = true := by decide

theorem test_witness_ProducedNaNsAreQuiet :
    isNaN 0xFFFFFFFF = true ∧ isNaN (fadd 0x7F800000 0xFF800000) = true ∧ isNaN (fsub 0x7F800000 0x7F800000) = true ∧
    isNaN (fmul 0x00000000 0xFF800000) = true ∧ isNaN (fdiv 0x80000000 0x00000000) = true :=
  ⟨by decide, isNaN_nanResult _ _ _, isNaN_nanResult _ _ _, isNaN_nanResult _ _ _, isNaN_nanResult _ _ _⟩

theorem test_witness_ExactFactsOfTheArithmetic :
    (isFinite 0x7EFFFFFF = true ∧ |val 0x7EFFFFFF| < 2 ^ 127) ∧
    (isFinite 0x7F000000 = true ∧ (2 : ℚ) ^ 127 ≤ |val 0x7F000000|) ∧
    (expField 0x01000000 = 2 ∧ expField 0x7F7FFFFF = 254) ∧
    isNaN 0xFF800000 = false ∧ (0x00000000 : Word) ≠ 0x80000000 ∧ isZero 0x80000000 = true := by
  have h1 : val 0x7EFFFFFF = 16777215 * 2 ^ 103 := by decide +kernel
  have h2 : val 0x7F000000 = 2 ^ 127 := by decide +kernel
  rw [h1, h2]
  refine ⟨⟨by decide, ?_⟩, ⟨by decide, le_abs_self _⟩, by decide, by decide, by decide, by decide⟩
  rw [abs_of_pos (by norm_num)]
  norm_num

theorem test_witness_MixdownIsSymmetric :
    isNaN (mixf 0x3DCCCCCD 0x3E4CCCCD) = false ∧ isNaN 0x7F800001 = true := by decide +kernel

theorem test_witness_FrequencyCheckMeansStrictlyInsideTheRange :
    (isFinite 0x447A0000 = true ∧ 2 ≤ expField 0x01000000 ∧ expField 0x7F7FFFFF ≤ 254) ∧
    (isNaN 0x7F800001 = true ∧ isZero 0x80000000 = true ∧ signBit 0xC47A0000 = true ∧ isInf 0x7F800000 = true) ∧
    (isFinite 0x00000001 = true ∧ isZero 0x00000001 = false ∧ signBit 0x00000001 = false) := by decide

/-- A sampling rate and a crossover frequency with the same argument of the tangent, and a finite gain. -/
theorem test_witness_CoefficientsHaveTheStructureOfTheRule :
    (∃ c a0 : Word, c = fdiv ONE 0x3D922480 ∧
      a0 = fdiv ONE (fadd (fadd ONE (fmul SQRT2_32 c)) (fmul c c))) ∧
    calcW 0x447A0000 0x472C4400 = calcW 0x447A0000 0x472C4400 ∧ isFinite (lowpassOf 0x3D922480).a0 = true ∧
    |val (lowpassOf 0x3D922480).a0| < 2 ^ 127 ∧ isFinite (highpassOf 0x3D922480).a0 = true ∧
    |val (highpassOf 0x3D922480).a0| < 2 ^ 127 := by
  have h1 : (lowpassOf 0x3D922480).a0 = 0x3B96DD24 := by decide +kernel
  have h2 : (highpassOf 0x3D922480).a0 = 0x3F677686 := by decide +kernel
  have h3 : val 0x3B96DD24 = 9887012 / 2 ^ 31 := by decide +kernel
  have h4 : val 0x3F677686 = 15169158 / 2 ^ 24 := by decide +kernel
  rw [h1, h2, h3, h4]
  refine ⟨⟨_, _, rfl, rfl⟩, rfl, by decide, ?_, by decide, ?_⟩ <;> (rw [abs_of_pos (by norm_num)]; norm_num)

/-- That the opaque parameter is the reference instance has no witness: it is the one hypothesis here that names an
instance, and a clause of the statement says that every word has a reference tangent to give. -/
theorem test_witness_ReferenceTangentAndWorkedCoefficients :
    IsTan32ref 0x80000000 0x80000000 ∧ (isFinite 0x7F800000 = false ∧ IsTan32ref 0x7F800000 0x7FC00000) ∧
    IsTan32ref (calcW 0x447A0000 0x472C4400) 0x3D922480 :=
  ⟨⟨by decide, fun _ => rfl, fun _ h => absurd h (by decide)⟩,
    ⟨by decide, by decide, by decide, fun h => absurd h (by decide)⟩,
    (show calcW 0x447A0000 0x472C4400 = 0x3D91E531 by decide +kernel) ▸ test_tan32ref_1000_44100⟩

theorem test_witness_GainCoefficientLiesBetweenZeroAndOne :
    isFinite 0x00000001 = true ∧ isZero 0x00000001 = false ∧ signBit 0x00000001 = false ∧
    isFinite 0x7F7FFFFF = true ∧ signBit 0x7F7FFFFF = false := by decide

/-- The reference tangent of (1000, 44100), within the tolerance of the rule. -/
theorem test_witness_LowpassGainMeetsTheTolerance :
    isFinite 0x3D922480 = true ∧ |val 0x3D922480 - 0.0713586809| ≤ 0.0004 * 0.0713586809 := by
  have h : val 0x3D922480 = 9577600 / 2 ^ 27 := by decide +kernel
  rw [h, abs_le]
  exact ⟨by decide, by norm_num, by norm_num⟩

theorem test_witness_PseudoCommandsSetUpAnew : validFreq 0x447A0000 0x45FA0000 = true := by decide +kernel

end Sys2Proof.Machine
end

section
/-! SUPPORT. What a command that ends does, as a function of the state before it. A command that runs no frame has one
explicit next state, `State.settle`; `PFRM` and `PBUF` in Ready and Running advance both filters by a list of samples,
`Filter.after`. The statements of 10_state.md are read off these descriptions. -/

namespace Sys2Proof.Machine

/-! ## A filter as a function of its registers (R95) -/

/-- The output of `BQ_PROCESS`; where it reads an `UNSET` register there is none, and the value is 0. -/
def Filter.output (f : Filter) (x : Word) : Word :=
  match bqProcess f x with
  | .ok (y, _) => y
  | .error _ => 0

/-- The registers after `BQ_PROCESS`; where it reads an `UNSET` register they stay. -/
def Filter.next (f : Filter) (x : Word) : Filter :=
  match bqProcess f x with
  | .ok (_, g) => g
  | .error _ => f

/-- The registers after a list of samples, the first sample first. -/
def Filter.after (f : Filter) (xs : List Word) : Filter := xs.foldl Filter.next f

/-- The five coefficient registers of a filter (R19). -/
def Filter.coeffRegs (f : Filter) : List Reg := [f.a0, f.a1, f.a2, f.b1, f.b2]

theorem Filter.output_holding (c : Coeffs) (d : Delay) (x : Word) :
    (Filter.holding c d).output x = bqOutput c d x := by
  simp only [Filter.output, bqProcess_eq_ok.2 ⟨c, d, rfl, rfl, rfl⟩]

theorem Filter.next_holding (c : Coeffs) (d : Delay) (x : Word) :
    (Filter.holding c d).next x = Filter.holding c (nextDelay c d x) := by
  simp only [Filter.next, bqProcess_eq_ok.2 ⟨c, d, rfl, rfl, rfl⟩]

theorem Filter.after_holding (c : Coeffs) (d : Delay) (xs : List Word) :
    (Filter.holding c d).after xs = Filter.holding c (delayAfter c d xs) := by
  induction xs generalizing d with
  | nil => rfl
  | cons x xs ih =>
    rw [delayAfter, ← ih, ← Filter.next_holding]
    rfl

theorem Filter.coeffRegs_next (f : Filter) (x : Word) : (f.next x).coeffRegs = f.coeffRegs := by
  unfold Filter.next
  split
  · next y g h =>
    obtain ⟨c, d, rfl, -, rfl⟩ := bqProcess_eq_ok.1 h
    rfl
  · rfl

theorem Filter.coeffRegs_after (f : Filter) (xs : List Word) : (f.after xs).coeffRegs = f.coeffRegs := by
  induction xs generalizing f with
  | nil => rfl
  | cons x xs ih => exact (ih (f.next x)).trans (f.coeffRegs_next x)

/-! ## Commands that run no frame -/

/-- In this state of the engine the command runs frames: `PFRM` and `PBUF` in Ready and Running (R108, R109). -/
def EngineState.Runs (e : EngineState) (i : Instr) : Prop :=
  (e = .ready ∨ e = .running) ∧ ((∃ l r, i = .pfrm l r) ∨ ∃ n, i = .pbuf n)

/-- The result lanes of a command that runs no frame (R54, R91, R92, R102). -/
def resultLanes : Instr → Lanes
  | .mix l r => ⟨mixf l r, 0, 0, 0, 0⟩
  | .clp fc fs => if validFreq fc fs then coeffLanes (calcLp fc fs) else Lanes.zero
  | .chp fc fs => if validFreq fc fs then coeffLanes (calcHp fc fs) else Lanes.zero
  | _ => Lanes.zero

/-- A filter after a command that runs no frame, `coeffs` being its coefficient function (R106, R107). -/
def Filter.settle (f : Filter) (coeffs : Word → Word → Coeffs) (e : EngineState) : Instr → Filter
  | .rst => Filter.unset
  | .setup fc fs => if e = .running then f else if validFreq fc fs then bqInit (coeffs fc fs) else Filter.unset
  | _ => f

/-- The state after a command that runs no frame: the cell of R103, the two filters, one response. -/
def State.settle (s : State) (i : Instr) : State :=
  (((s.setLp (s.lp.settle calcLp s.engine i)).setHp (s.hp.settle calcHp s.engine i)).setEngine
    (transition i s.engine).1).deliver
    (responseOf (transition i s.engine).2 (transition i s.engine).1 (resultLanes i))

section
variable (s : State) (i : Instr)

@[simp] theorem State.settle_engine : (s.settle i).engine = (transition i s.engine).1 := rfl
@[simp] theorem State.settle_lp : (s.settle i).lp = s.lp.settle calcLp s.engine i := rfl
@[simp] theorem State.settle_hp : (s.settle i).hp = s.hp.settle calcHp s.engine i := rfl
@[simp] theorem State.settle_frameIdx : (s.settle i).frameIdx = s.frameIdx := rfl
@[simp] theorem State.settle_frames : (s.settle i).frames = s.frames := rfl
@[simp] theorem State.settle_input : (s.settle i).input = s.input := rfl
@[simp] theorem State.settle_output : (s.settle i).output = s.output := rfl
@[simp] theorem State.settle_inPlace : (s.settle i).inPlace = s.inPlace := rfl
@[simp] theorem State.settle_accesses : (s.settle i).accesses = s.accesses := rfl
@[simp] theorem State.settle_responses : (s.settle i).responses = s.responses ++
    [responseOf (transition i s.engine).2 (transition i s.engine).1 (resultLanes i)] := rfl
@[simp] theorem State.settle_run : (s.settle i).run = s.run := rfl

end

/-- The result lanes are zero where the answer is not `OK` (R52, R116). -/
theorem resultLanes_eq_zero {i : Instr} {e : EngineState} (h : (transition i e).2 ≠ .ok) :
    resultLanes i = Lanes.zero := by
  cases i with
  | mix l r => exact absurd rfl h
  | clp fc fs =>
    have hv : ¬ validFreq fc fs = true := fun hv => h (if_pos hv)
    exact if_neg hv
  | chp fc fs =>
    have hv : ¬ validFreq fc fs = true := fun hv => h (if_pos hv)
    exact if_neg hv
  | _ => rfl

/-- A refused command is one that runs no frame and changes nothing. -/
theorem State.settle_eq_raiseStatus {s : State} {i : Instr} {c : Status} (ht : transition i s.engine = (s.engine, c))
    (hl : s.lp.settle calcLp s.engine i = s.lp) (hh : s.hp.settle calcHp s.engine i = s.hp)
    (hr : resultLanes i = Lanes.zero) : s.settle i = raiseStatus c s := by
  rw [State.settle, ht, hl, hh, hr]
  rfl

/-- `PFRM` and `PBUF` run frames in every state but Uninitialized and Stopped, where they are refused (R103). -/
theorem EngineState.refuses_of_not_runs {e : EngineState} {i : Instr} (h : ¬ e.Runs i)
    (hi : (∃ l r, i = .pfrm l r) ∨ ∃ n, i = .pbuf n) : e = .uninitialized ∨ e = .stopped := by
  cases e with
  | uninitialized => exact .inl rfl
  | stopped => exact .inr rfl
  | ready => exact absurd ⟨.inl rfl, hi⟩ h
  | running => exact absurd ⟨.inr rfl, hi⟩ h

theorem EngineState.not_refuses {e : EngineState} (he : e = .ready ∨ e = .running) :
    ¬ (e = .uninitialized ∨ e = .stopped) := by
  rcases he with rfl | rfl <;> decide

theorem transition_refused {e : EngineState} {i : Instr} (he : e = .uninitialized ∨ e = .stopped)
    (hi : (∃ l r, i = .pfrm l r) ∨ ∃ n, i = .pbuf n) : transition i e = (e, .illegalState) := by
  rcases hi with ⟨l, r, rfl⟩ | ⟨n, rfl⟩ <;> rcases he with rfl | rfl <;> rfl

theorem transition_setup {fc fs : Word} {e : EngineState} (he : e ≠ .running) : transition (.setup fc fs) e =
    if validFreq fc fs then (.ready, .ok) else (.uninitialized, .invalidFrequency) := by
  cases e with
  | running => exact absurd rfl he
  | _ => rfl

theorem transition_stop {e : EngineState} (he : e ≠ .uninitialized) : transition .stop e = (.stopped, .ok) := by
  cases e with
  | uninitialized => exact absurd rfl he
  | _ => rfl

/-- What every command does that runs no frame (R91, R92, R102, R106 to R111). -/
theorem exec_of_not_runs {i : Instr} {s : State} (h : ¬ s.engine.Runs i) : exec i s = .next (s.settle i) := by
  cases i with
  | rst => rfl
  | setup fc fs =>
    by_cases hr : s.engine = .running
    · have ht : transition (.setup fc fs) s.engine = (s.engine, .illegalState) := by rw [hr]; rfl
      rw [State.settle_eq_raiseStatus ht (if_pos hr) (if_pos hr) rfl]
      exact if_pos hr
    · cases hv : validFreq fc fs <;>
        simp only [exec, execSetup, State.settle, Filter.settle, transition_setup hr, if_neg hr, hv] <;> rfl
  | pfrm l r =>
    have hd := EngineState.refuses_of_not_runs h (.inl ⟨l, r, rfl⟩)
    rw [State.settle_eq_raiseStatus (transition_refused hd (.inl ⟨l, r, rfl⟩)) rfl rfl rfl]
    exact if_pos hd
  | pbuf n =>
    have hd := EngineState.refuses_of_not_runs h (.inr ⟨n, rfl⟩)
    rw [State.settle_eq_raiseStatus (transition_refused hd (.inr ⟨n, rfl⟩)) rfl rfl rfl]
    exact if_pos hd
  | stop =>
    by_cases hu : s.engine = .uninitialized
    · have ht : transition .stop s.engine = (s.engine, .illegalState) := by rw [hu]; rfl
      rw [State.settle_eq_raiseStatus ht rfl rfl rfl]
      exact if_pos hu
    · rw [State.settle, transition_stop hu]
      exact if_neg hu
  | stat => rfl
  | mix l r => rfl
  | clp fc fs =>
    cases hv : validFreq fc fs <;>
      simp only [exec, execClp, State.settle, Filter.settle, transition, resultLanes, hv] <;> rfl
  | chp fc fs =>
    cases hv : validFreq fc fs <;>
      simp only [exec, execChp, State.settle, Filter.settle, transition, resultLanes, hv] <;> rfl

/-! ## Commands that run frames -/

/-- What `PFRM` does where it runs a frame (R105, R108). -/
theorem execPfrm_of_runs {l r : Word} {s t : State} (he : s.engine = .ready ∨ s.engine = .running)
    (h : exec (.pfrm l r) s = .next t) :
    t = respondOk ⟨s.lp.output (mixf l r), s.hp.output (mixf l r), 0, 0, 0⟩
      (((s.setEngine .running).setLp (s.lp.after [mixf l r])).setHp (s.hp.after [mixf l r])) := by
  rcases execPfrm_eq_next.1 h with ⟨hd, -⟩ | ⟨-, cl, dl, ch, dh, hl, hh, rfl⟩
  · exact absurd hd (EngineState.not_refuses he)
  · rw [hl, hh]
    simp only [Filter.after_holding, Filter.output_holding]
    rfl

/-- The state `t` after a `PBUF n` that ran in the state `s`, as far as it concerns the filters, the samples and the
response (R37, R52, R105, R109). -/
structure State.Buffered (s : State) (n : FrameIndex) (t : State) : Prop where
  engine : t.engine = .running
  lp : t.lp = s.lp.after (s.monos n.toNat)
  hp : t.hp = s.hp.after (s.monos n.toNat)
  low : ∀ i : FrameIndex, t.output.get ⟨i, 0⟩ =
    if i < n then (s.lp.after (s.monos i.toNat)).output (s.mono i.toNat) else s.output.get ⟨i, 0⟩
  high : ∀ i : FrameIndex, t.output.get ⟨i, 1⟩ =
    if i < n then (s.hp.after (s.monos i.toNat)).output (s.mono i.toNat) else s.output.get ⟨i, 1⟩
  memoryWf : s.MemoryWf → t.MemoryWf
  sharedStorage : s.SharedStorage → t.SharedStorage
  responses : t.responses = s.responses ++ [responseOf .ok .running Lanes.zero]

theorem State.outputAt_eq_output (s : State) (c : Coeffs) (d : Delay) (k : Nat) :
    s.outputAt c d k = ((Filter.holding c d).after (s.monos k)).output (s.mono k) := by
  rw [Filter.after_holding, Filter.output_holding]
  rfl

/-- What `PBUF` does where it runs (R44, R109). -/
theorem execPbuf_of_runs {n : FrameIndex} {s t : State} (he : s.engine = .ready ∨ s.engine = .running)
    (h : exec (.pbuf n) s = .next t) : s.Buffered n t := by
  rcases execPbuf_eq_next h with ⟨hd, -⟩ | ⟨-, ⟨rfl, rfl⟩ | ⟨cl, dl, ch, dh, u, hl, hh, -, hp, rfl⟩⟩
  · exact absurd hd (EngineState.not_refuses he)
  · have hlt : ∀ i : FrameIndex, ¬ i < 0 := fun i => BitVec.not_lt_zero
    exact {
      engine := rfl, lp := rfl, hp := rfl, memoryWf := id, sharedStorage := id, responses := rfl
      low := fun i => (if_neg (hlt i)).symm
      high := fun i => (if_neg (hlt i)).symm }
  · have hidx : ∀ i : FrameIndex, BitVec.ofNat 24 i.toNat = i := fun i => by simp
    have hsample : ∀ (i : FrameIndex) (ch : Nat) (x y : Word),
        (i < n → u.output.get ⟨BitVec.ofNat 24 i.toNat, ch⟩ = x) → (¬ i < n → u.output.get ⟨i, ch⟩ = y) →
        u.output.get ⟨i, ch⟩ = if i < n then x else y := by
      intro i ch x y hx hy
      split
      · next hi => rw [← hx hi, hidx]
      · next hi => exact hy hi
    exact {
      engine := hp.engine
      lp := by rw [hl, Filter.after_holding]; exact hp.lp
      hp := by rw [hh, Filter.after_holding]; exact hp.hp
      low := fun i => hsample i 0 _ _
        (fun hi => by rw [hl, ← State.outputAt_eq_output]; exact hp.low i.toNat hi)
        (fun hi => hp.output _ fun hc => hi hc.1)
      high := fun i => hsample i 1 _ _
        (fun hi => by rw [hh, ← State.outputAt_eq_output]; exact hp.high i.toNat hi)
        (fun hi => hp.output _ fun hc => hi hc.1)
      memoryWf := fun hw => ⟨hp.inputWf hw.1, hp.outputWf hw.2⟩
      sharedStorage := fun hs hi => hp.oneContent (hp.inPlace.symm.trans hi) (hs (hp.inPlace.symm.trans hi))
      responses := by
        rw [respondOk_responses, hp.responses, hp.engine]
        rfl }

/-! ## Any command -/

/-- A command that ends, by what it does: it runs no frame, or it is a `PFRM` or a `PBUF` that runs. -/
theorem exec_eq_next {i : Instr} {s t : State} (h : exec i s = .next t) :
    (¬ s.engine.Runs i ∧ t = s.settle i) ∨
    ((s.engine = .ready ∨ s.engine = .running) ∧
      ((∃ l r, i = .pfrm l r ∧ t = respondOk ⟨s.lp.output (mixf l r), s.hp.output (mixf l r), 0, 0, 0⟩
          (((s.setEngine .running).setLp (s.lp.after [mixf l r])).setHp (s.hp.after [mixf l r]))) ∨
        ∃ n, i = .pbuf n ∧ s.Buffered n t)) := by
  by_cases hr : s.engine.Runs i
  · obtain ⟨he, ⟨l, r, rfl⟩ | ⟨n, rfl⟩⟩ := hr
    · exact .inr ⟨he, .inl ⟨l, r, rfl, execPfrm_of_runs he h⟩⟩
    · exact .inr ⟨he, .inr ⟨n, rfl, execPbuf_of_runs he h⟩⟩
  · exact .inl ⟨hr, (Host.Outcome.next.inj ((exec_of_not_runs hr).symm.trans h)).symm⟩

/-- The samples that a command which runs frames sends through both filters (R105, R109). -/
def State.samplesOf (s : State) : Instr → List Word
  | .pfrm l r => [mixf l r]
  | .pbuf n => s.monos n.toNat
  | _ => []

/-- A command that runs frames advances both filters by the same samples and ends in Running (R105, R108, R109). -/
theorem exec_of_runs {i : Instr} {s t : State} (hr : s.engine.Runs i) (h : exec i s = .next t) :
    t.engine = .running ∧ t.lp = s.lp.after (s.samplesOf i) ∧ t.hp = s.hp.after (s.samplesOf i) := by
  obtain ⟨he, ⟨l, r, rfl⟩ | ⟨n, rfl⟩⟩ := hr
  · rw [execPfrm_of_runs he h]
    exact ⟨rfl, rfl, rfl⟩
  · have hb := execPbuf_of_runs he h
    exact ⟨hb.engine, hb.lp, hb.hp⟩

/-- A response that the model makes is well formed where its lanes are zero but for `OK` (R52). -/
theorem Response.wellFormed_responseOf {c : Status} {e : EngineState} {l : Lanes} (h : c ≠ .ok → l = Lanes.zero) :
    (responseOf c e l).WellFormed := by
  refine ⟨reservedField_responseOf c e l, ⟨c, codeField_responseOf c e l⟩, fun hc => ?_⟩
  rw [codeField_responseOf, Ne, Status.code_inj] at hc
  rw [h hc]
  exact ⟨rfl, rfl, rfl, rfl, rfl⟩

/-- One response for each command that ends, carrying the state after it (R51, R52). -/
theorem exec_responses {i : Instr} {s t : State} (h : exec i s = .next t) :
    ∃ c l, t.responses = s.responses ++ [responseOf c t.engine l] ∧ (c ≠ .ok → l = Lanes.zero) := by
  rcases exec_eq_next h with ⟨-, rfl⟩ | ⟨-, ⟨l, r, -, rfl⟩ | ⟨n, -, hb⟩⟩
  · exact ⟨_, _, rfl, resultLanes_eq_zero⟩
  · exact ⟨.ok, _, rfl, fun hc => absurd rfl hc⟩
  · exact ⟨.ok, Lanes.zero, by rw [hb.engine]; exact hb.responses, fun _ => rfl⟩

/-- Settles O7: each response that `exec` makes is a `responseOf` of the state after the command. -/
theorem everyCommandDeliversOneWellFormedResponse : Obligations.EveryCommandDeliversOneWellFormedResponse := by
  intro i s t h
  obtain ⟨c, l, hr, hl⟩ := exec_responses h
  exact ⟨_, hr, Response.wellFormed_responseOf hl, stateField_responseOf c t.engine l⟩

/-! ## The registers of the filters (R19, R23, R30 d) -/

theorem Filter.settle_of_keeps {f : Filter} {coeffs : Word → Word → Coeffs} {e : EngineState} {i : Instr}
    (hr : i ≠ .rst) (hs : ∀ fc fs, i ≠ .setup fc fs) : f.settle coeffs e i = f := by
  cases i with
  | rst => exact absurd rfl hr
  | setup fc fs => exact absurd rfl (hs fc fs)
  | _ => rfl

theorem exec_coeffRegs {i : Instr} {s t : State} (hr : i ≠ .rst) (hs : ∀ fc fs, i ≠ .setup fc fs)
    (h : exec i s = .next t) : t.lp.coeffRegs = s.lp.coeffRegs ∧ t.hp.coeffRegs = s.hp.coeffRegs := by
  by_cases hrun : s.engine.Runs i
  · obtain ⟨-, hl, hh⟩ := exec_of_runs hrun h
    rw [hl, hh]
    exact ⟨Filter.coeffRegs_after _ _, Filter.coeffRegs_after _ _⟩
  · rw [exec_of_not_runs hrun] at h
    cases h
    rw [State.settle_lp, State.settle_hp, Filter.settle_of_keeps hr hs, Filter.settle_of_keeps hr hs]
    exact ⟨rfl, rfl⟩

/-- Settles O27: `BQ_PROCESS` writes the delay line alone, and of the other commands only these two write a filter. -/
theorem onlySetupAndRstChangeCoefficients : Obligations.OnlySetupAndRstChangeCoefficients := by
  intro i s t hr hs h
  obtain ⟨hl, hh⟩ := exec_coeffRegs hr hs h
  simp only [Filter.coeffRegs, List.cons.injEq, and_true] at hl hh
  obtain ⟨l0, l1, l2, l3, l4⟩ := hl
  exact ⟨l0, l1, l2, l3, l4, hh⟩

/-- No command but `SETUP` and `RST` leaves Stopped (R103). -/
theorem transition_stopped {i : Instr} (hr : i ≠ .rst) (hs : ∀ fc fs, i ≠ .setup fc fs) :
    (transition i .stopped).1 = .stopped := by
  cases i with
  | rst => exact absurd rfl hr
  | setup fc fs => exact absurd rfl (hs fc fs)
  | _ => rfl

/-- Settles O28: no command runs frames in Stopped. -/
theorem stoppedIsInert : Obligations.StoppedIsInert := by
  intro i s t he hr hs h
  have hrun : ¬ s.engine.Runs i := fun hrun => EngineState.not_refuses hrun.1 (.inr he)
  rw [exec_of_not_runs hrun] at h
  cases h
  simp only [State.datapath, State.settle_lp, State.settle_hp, State.settle_engine, he, Filter.settle_of_keeps hr hs,
    transition_stopped hr hs, and_self]

/-- Settles O35: the response of a command that runs no frame is a function of the command and `STATE`. -/
theorem noCommandReadsARegisterBack : Obligations.NoCommandReadsARegisterBack := by
  intro i s t v f g hf hb ht hv
  have hrun : ∀ e : EngineState, ¬ e.Runs i := by
    rintro e ⟨-, ⟨l, r, hi⟩ | ⟨n, hi⟩⟩
    · exact hf l r hi
    · exact hb n hi
  rw [exec_of_not_runs (hrun _)] at ht hv
  cases ht
  cases hv
  rfl

/-! ## The two filters apart (R21) -/

theorem State.monos_congr {s u : State} (h : s.input = u.input) (n : Nat) : s.monos n = u.monos n := by
  have hf : s.inputFrame = u.inputFrame := by funext k; simp only [State.inputFrame, h]
  simp only [State.monos, State.inputFrames, hf]

theorem State.mono_congr {s u : State} (h : s.input = u.input) (n : Nat) : s.mono n = u.mono n := by
  simp only [State.mono, State.inputFrame, h]

/-- Two states that agree but perhaps on the filters: each filter alone determines its registers, its lane of a
response and its output samples after the command. -/
theorem exec_filters_apart {i : Instr} {s u t v : State} {r q : Response} (he : s.engine = u.engine)
    (hin : s.input = u.input) (hout : s.output = u.output) (ht : exec i s = .next t) (hv : exec i u = .next v)
    (hr : t.responses = s.responses ++ [r]) (hq : v.responses = u.responses ++ [q]) :
    (s.lp = u.lp → t.lp = v.lp ∧ r.r0 = q.r0 ∧ ∀ n : FrameIndex, t.output.get ⟨n, 0⟩ = v.output.get ⟨n, 0⟩) ∧
    (s.hp = u.hp → t.hp = v.hp ∧ r.r1 = q.r1 ∧ ∀ n : FrameIndex, t.output.get ⟨n, 1⟩ = v.output.get ⟨n, 1⟩) := by
  have hlast : ∀ {rs : List Response} {a b : Response}, rs ++ [a] = rs ++ [b] → b = a := fun h =>
    (List.singleton_inj.1 (List.append_cancel_left h)).symm
  have hget : ∀ a : Addr, s.output.get a = u.output.get a := fun _ => by rw [hout]
  by_cases hrun : s.engine.Runs i
  · obtain ⟨hs, ⟨x, y, rfl⟩ | ⟨n, rfl⟩⟩ := hrun
    · rw [execPfrm_of_runs hs ht] at hr ⊢
      rw [execPfrm_of_runs (he ▸ hs) hv] at hq ⊢
      rw [hlast hr, hlast hq]
      have hafter : ∀ {f g : Filter}, f = g → f.after [mixf x y] = g.after [mixf x y] := fun h => by rw [h]
      have hsample : ∀ {f g : Filter}, f = g → f.output (mixf x y) = g.output (mixf x y) := fun h => by rw [h]
      exact ⟨fun h => ⟨hafter h, hsample h, fun _ => hget _⟩, fun h => ⟨hafter h, hsample h, fun _ => hget _⟩⟩
    · have hbt := execPbuf_of_runs hs ht
      have hbv := execPbuf_of_runs (he ▸ hs) hv
      rw [hlast (hbt.responses.symm.trans hr), hlast (hbv.responses.symm.trans hq)]
      have hmonos := State.monos_congr hin
      have hmono := State.mono_congr hin
      refine ⟨fun h => ⟨?_, rfl, fun k => ?_⟩, fun h => ⟨?_, rfl, fun k => ?_⟩⟩
      · rw [hbt.lp, hbv.lp, h, hmonos]
      · rw [hbt.low, hbv.low, h, hget, hmonos, hmono]
      · rw [hbt.hp, hbv.hp, h, hmonos]
      · rw [hbt.high, hbv.high, h, hget, hmonos, hmono]
  · rw [exec_of_not_runs hrun] at ht
    rw [exec_of_not_runs (he ▸ hrun)] at hv
    cases ht
    cases hv
    rw [hlast hr, hlast hq]
    exact ⟨fun h => ⟨by rw [State.settle_lp, State.settle_lp, h, he], rfl, fun _ => hget _⟩,
      fun h => ⟨by rw [State.settle_hp, State.settle_hp, h, he], rfl, fun _ => hget _⟩⟩

/-- Settles O34: the two halves are the two parts of `exec_filters_apart`. -/
theorem theTwoFiltersDoNotShareState : Obligations.TheTwoFiltersDoNotShareState := by
  intro i s t v f r q ht hr
  exact ⟨fun hv hq => (exec_filters_apart (s := s) (u := { s with hp := f }) rfl rfl rfl ht hv hr hq).1 rfl,
    fun hv hq => (exec_filters_apart (s := s) (u := { s with lp := f }) rfl rfl rfl ht hv hr hq).2 rfl⟩

/-! ## The invariant (R30, R46, R52) -/

/-- R30 speaks of `STATE` and the two filters alone. -/
theorem State.Coherent.congr {s t : State} (h : s.Coherent) (he : t.engine = s.engine) (hl : t.lp = s.lp)
    (hh : t.hp = s.hp) : t.Coherent := by
  unfold State.Coherent State.ReachedBy at *
  rwa [he, hl, hh]

/-- Outside Uninitialized the filters are those of a `SETUP` and the frames since (R30 b, c). -/
theorem State.Coherent.reachedBy {s : State} (h : s.Coherent) (he : s.engine ≠ .uninitialized) :
    ∃ fc fs frames, s.ReachedBy fc fs frames := by
  unfold State.Coherent at h
  cases hs : s.engine with
  | uninitialized => exact absurd hs he
  | ready =>
    rw [hs] at h
    obtain ⟨fc, fs, h⟩ := h
    exact ⟨fc, fs, [], h⟩
  | running => rwa [hs] at h
  | stopped => rwa [hs] at h

theorem State.Coherent.unset {s : State} (h : s.Coherent) (he : s.engine = .uninitialized) :
    s.lp = Filter.unset ∧ s.hp = Filter.unset := by
  unfold State.Coherent at h
  rwa [he] at h

theorem State.coherent_of_unset {s : State} (he : s.engine = .uninitialized) (hl : s.lp = Filter.unset)
    (hh : s.hp = Filter.unset) : s.Coherent := by
  unfold State.Coherent
  rw [he]
  exact ⟨hl, hh⟩

theorem State.coherent_of_ready {s : State} {fc fs : Word} (he : s.engine = .ready) (h : s.ReachedBy fc fs []) :
    s.Coherent := by
  unfold State.Coherent
  rw [he]
  exact ⟨fc, fs, h⟩

theorem State.ReachedBy.coherent {s : State} {fc fs : Word} {frames : List (Word × Word)}
    (h : s.ReachedBy fc fs frames) (he : s.engine = .running ∨ s.engine = .stopped) : s.Coherent := by
  unfold State.Coherent
  rcases he with he | he <;> rw [he] <;> exact ⟨fc, fs, frames, h⟩

/-- The filters after more frames (R30 c). -/
theorem State.ReachedBy.append {s t : State} {fc fs : Word} {frames more : List (Word × Word)}
    (h : s.ReachedBy fc fs frames) (hl : t.lp = s.lp.after (more.map fun p => mixf p.1 p.2))
    (hh : t.hp = s.hp.after (more.map fun p => mixf p.1 p.2)) : t.ReachedBy fc fs (frames ++ more) := by
  obtain ⟨hv, hsl, hsh⟩ := h
  refine ⟨hv, ?_, ?_⟩
  · rw [hl, hsl, Filter.after_holding, List.map_append, delayAfter_append]
  · rw [hh, hsh, Filter.after_holding, List.map_append, delayAfter_append]

/-- A command that runs no frame keeps R30. -/
theorem State.Coherent.settle {s : State} {i : Instr} (h : s.Coherent) (hrun : ¬ s.engine.Runs i) :
    (s.settle i).Coherent := by
  cases i with
  | rst => exact State.coherent_of_unset rfl rfl rfl
  | setup fc fs =>
    by_cases hr : s.engine = .running
    · exact h.congr (by rw [State.settle_engine, hr]; rfl) (if_pos hr) (if_pos hr)
    · have hl : (s.settle (.setup fc fs)).lp = if validFreq fc fs then bqInit (calcLp fc fs) else Filter.unset :=
        if_neg hr
      have hh : (s.settle (.setup fc fs)).hp = if validFreq fc fs then bqInit (calcHp fc fs) else Filter.unset :=
        if_neg hr
      have he := State.settle_engine s (.setup fc fs)
      rw [transition_setup hr] at he
      by_cases hv : validFreq fc fs = true
      · rw [if_pos hv] at hl hh he
        exact State.coherent_of_ready he ⟨hv, hl, hh⟩
      · rw [if_neg hv] at hl hh he
        exact State.coherent_of_unset he hl hh
  | pfrm l r =>
    have hd := EngineState.refuses_of_not_runs hrun (.inl ⟨l, r, rfl⟩)
    exact h.congr (congrArg Prod.fst (transition_refused hd (.inl ⟨l, r, rfl⟩))) rfl rfl
  | pbuf n =>
    have hd := EngineState.refuses_of_not_runs hrun (.inr ⟨n, rfl⟩)
    exact h.congr (congrArg Prod.fst (transition_refused hd (.inr ⟨n, rfl⟩))) rfl rfl
  | stop =>
    by_cases hu : s.engine = .uninitialized
    · exact h.congr (by rw [State.settle_engine, hu]; rfl) rfl rfl
    · obtain ⟨fc, fs, frames, hre⟩ := h.reachedBy hu
      exact State.ReachedBy.coherent (s := s.settle .stop) hre (.inr (congrArg Prod.fst (transition_stop hu)))
  | stat => exact h.congr rfl rfl rfl
  | mix l r => exact h.congr rfl rfl rfl
  | clp fc fs => exact h.congr rfl rfl rfl
  | chp fc fs => exact h.congr rfl rfl rfl

/-- The samples that a command sends through both filters are the mixes of frames (R105). -/
theorem State.exists_frames_samplesOf (s : State) (i : Instr) :
    ∃ frames : List (Word × Word), s.samplesOf i = frames.map fun p => mixf p.1 p.2 := by
  cases i with
  | pfrm l r => exact ⟨[(l, r)], rfl⟩
  | pbuf n => exact ⟨s.inputFrames n.toNat, rfl⟩
  | _ => exact ⟨[], rfl⟩

/-- Every command that ends keeps R30. -/
theorem State.Coherent.exec {i : Instr} {s t : State} (hc : s.Coherent) (h : exec i s = .next t) : t.Coherent := by
  by_cases hrun : s.engine.Runs i
  · have hne : s.engine ≠ .uninitialized := fun he => EngineState.not_refuses hrun.1 (.inl he)
    obtain ⟨fc, fs, frames, hre⟩ := hc.reachedBy hne
    obtain ⟨more, hmore⟩ := s.exists_frames_samplesOf i
    obtain ⟨he, hl, hh⟩ := exec_of_runs hrun h
    rw [hmore] at hl hh
    exact (hre.append hl hh).coherent (.inl he)
  · rw [exec_of_not_runs hrun] at h
    cases h
    exact hc.settle hrun

/-- Every command that ends keeps the canonical form of the sample spaces and the one content of shared storage. -/
theorem exec_keeps_samples {i : Instr} {s t : State} (hw : s.MemoryWf) (hs : s.SharedStorage)
    (h : exec i s = .next t) : t.MemoryWf ∧ t.SharedStorage := by
  rcases exec_eq_next h with ⟨-, rfl⟩ | ⟨-, ⟨l, r, -, rfl⟩ | ⟨n, -, hb⟩⟩
  · exact ⟨hw, hs⟩
  · exact ⟨hw, hs⟩
  · exact ⟨hb.memoryWf hw, hb.sharedStorage hs⟩

/-- Where the responses before are well formed and the next one is, all are. -/
theorem wellFormed_append {rs : List Response} {r : Response} (h : ∀ q ∈ rs, q.WellFormed) (hr : r.WellFormed) :
    ∀ q ∈ rs ++ [r], q.WellFormed := by
  intro q hq
  rcases List.mem_append.1 hq with hq | hq
  · exact h q hq
  · rw [List.mem_singleton.1 hq]
    exact hr

/-- Every command that ends keeps the invariant. -/
theorem State.Inv.exec {i : Instr} {s t : State} (hs : s.Inv) (h : exec i s = .next t) : t.Inv := by
  obtain ⟨hc, hw, hsh, hr⟩ := hs
  obtain ⟨hw', hsh'⟩ := exec_keeps_samples hw hsh h
  obtain ⟨c, l, ht, hl⟩ := exec_responses h
  refine ⟨hc.exec h, hw', hsh', ?_⟩
  rw [ht]
  exact wellFormed_append hr (Response.wellFormed_responseOf hl)

/-- An error keeps the invariant: it adds one well-formed response (R52, R122). -/
theorem State.Inv.raiseStatus {s : State} (c : Status) (hs : s.Inv) : (raiseStatus c s).Inv := by
  obtain ⟨hc, hw, hsh, hr⟩ := hs
  exact ⟨hc, hw, hsh, wellFormed_append hr (Response.wellFormed_responseOf fun _ => rfl)⟩

/-- A hand-over keeps the invariant: new sample spaces are made in canonical form, and shared ones alike (R46). -/
theorem State.Inv.takeBuffers {s : State} (frames : Nat) (inPlace : Bool) (input output : List (Addr × Word))
    (hs : s.Inv) : (s.takeBuffers frames inPlace input output).Inv := by
  obtain ⟨hc, -, -, hr⟩ := hs
  refine ⟨hc, ⟨Memory.wf_ofList _, Memory.wf_ofList _⟩, fun hp => ?_, hr⟩
  have hp : inPlace = true := hp
  rw [State.takeBuffers_input, State.takeBuffers_output, if_pos hp]

/-- Whatever the host does keeps the invariant. -/
theorem State.Inv.acceptEvent {e : HostEvent} {s t : State} (hs : s.Inv) (h : acceptEvent e s = .next t) : t.Inv := by
  cases e with
  | resetPin =>
    cases h
    obtain ⟨-, hw, hsh, hr⟩ := hs
    exact ⟨State.coherent_of_unset rfl rfl rfl, hw, hsh, hr⟩
  | handOver frames inPlace input output =>
    cases h
    exact hs.takeBuffers frames inPlace input output
  | command b =>
    rcases acceptBeat_eq b s with ⟨i, -, hi⟩ | ⟨e, -, he⟩
    · exact hs.exec (hi.symm.trans h)
    · cases he.symm.trans h
      exact hs.raiseStatus _

/-- Settles O30: the part of the invariant that each event can touch is kept by its own lemma. -/
theorem everyStepKeepsTheInvariant : Obligations.EveryStepKeepsTheInvariant := by
  intro s t hs h
  cases hrun : s.run with
  | nil =>
    rw [step_nil hrun] at h
    cases h
    exact hs
  | cons e rest =>
    rw [step_cons hrun] at h
    have hs' : (s.setRun rest).Inv := hs
    exact hs'.acceptEvent h

/-- Settles O31: outside Uninitialized both filters hold words. -/
theorem registersAreUnsetExactlyInUninitialized : Obligations.RegistersAreUnsetExactlyInUninitialized := by
  rintro s ⟨hc, -⟩
  have hset : s.engine ≠ .uninitialized → ∀ r ∈ s.datapath, r ≠ Reg.unset := by
    intro he r hr
    obtain ⟨fc, fs, frames, -, hl, hh⟩ := hc.reachedBy he
    rw [State.datapath, hl, hh] at hr
    rcases List.mem_append.1 hr with hr | hr
    · exact Filter.ne_unset_of_mem_holding hr
    · exact Filter.ne_unset_of_mem_holding hr
  refine ⟨⟨fun he r hr => ?_, fun hall => ?_⟩, hset⟩
  · obtain ⟨hl, hh⟩ := hc.unset he
    rw [State.datapath, hl, hh] at hr
    exact List.eq_of_mem_replicate (n := 18) hr
  · by_contra he
    have hmem : s.lp.a0 ∈ s.datapath := List.mem_cons_self
    exact hset he _ hmem (hall _ hmem)

/-! ## Reset (R28) -/

/-- Settles O10: a fixed state. -/
theorem resetStateIsUninitializedAndUnset : Obligations.ResetStateIsUninitializedAndUnset := ⟨rfl, rfl⟩

/-- Settles O29: it is Uninitialized, with empty sample spaces and no response. -/
theorem resetMeetsTheInvariant : Obligations.ResetMeetsTheInvariant :=
  ⟨State.coherent_of_unset rfl rfl rfl, State.reset_memory_wf, fun _ => rfl, List.forall_mem_nil _⟩

end Sys2Proof.Machine
end

section
/-! SUPPORT. The sample spaces (20_memory.md). `State.Processed` describes a `PBUF` that runs. `State.Records` says
that the output space has changed by the recorded writes alone; each operation of the loop keeps it. -/

namespace Sys2Proof.Machine

/-! ## A `PBUF` that runs (R33, R35, R37) -/

/-- A `PBUF` that ends, in a state that runs it, has processed its frames and answered. -/
theorem processed_of_exec_pbuf {n : FrameIndex} {s t : State} {cl ch : Coeffs} {dl dh : Delay}
    (he : s.engine = .ready ∨ s.engine = .running) (hl : s.lp = Filter.holding cl dl)
    (hh : s.hp = Filter.holding ch dh) (h : exec (.pbuf n) s = .next t) :
    ∃ u, ((s.setEngine .running).setFrameIdx 0).Processed cl dl ch dh n.toNat u ∧ t = respondOk Lanes.zero u := by
  have hb := execPbuf_holding (n := n) he hl hh
  have h : execPbuf n s = .next t := h
  split at hb
  · obtain ⟨u, hu, hp⟩ := hb
    exact ⟨u, hp, Host.Outcome.next.inj (h.symm.trans hu)⟩
  · cases h.symm.trans hb

/-- Settles O17: the record that `State.Processed` describes, the outputs being those of the two filters. -/
theorem pbufAccessesEachSampleOnceInOrder : Obligations.PbufAccessesEachSampleOnceInOrder := by
  intro n s t cl ch dl dh he hl hh h
  obtain ⟨u, hp, rfl⟩ := processed_of_exec_pbuf he hl hh h
  exact ⟨s.outputAt cl dl, s.outputAt ch dh, (s.filterOutputs_monos cl dl _).symm,
    (s.filterOutputs_monos ch dh _).symm, hp.accesses⟩

/-- An output of a filter by its frame. -/
theorem State.getElem?_filterOutputs_monos (s : State) (c : Coeffs) (d : Delay) {i n : Nat} (hi : i < n) :
    (filterOutputs c d (s.monos n))[i]? = some (s.outputAt c d i) := by
  rw [State.filterOutputs_monos, List.getElem?_map, List.getElem?_range hi, Option.map_some]

/-- Settles O18: the samples that `State.Processed` describes; `FRAME_IDX` and `STATE` are no part of them. -/
theorem pbufWritesItsOutputSamplesAndNoOther : Obligations.PbufWritesItsOutputSamplesAndNoOther := by
  intro n s t cl ch dl dh he hl hh h
  obtain ⟨u, hp, rfl⟩ := processed_of_exec_pbuf he hl hh h
  refine ⟨fun i hi => ⟨?_, ?_⟩, fun a ha => ⟨hp.output a ha, hp.input a ha⟩, fun hd a => ?_, hp.shared⟩
  · rw [State.getElem?_filterOutputs_monos s cl dl hi]
    exact congrArg some (hp.low i hi).symm
  · rw [State.getElem?_filterOutputs_monos s ch dh hi]
    exact congrArg some (hp.high i hi).symm
  · exact congrArg (·.get a) (hp.distinct hd)

/-! ## Every other command (R36) -/

/-- Settles O26: neither a command that runs no frame nor `PFRM` writes what the platform sees. -/
theorem onlyPbufReachesTheSampleSpaces : Obligations.OnlyPbufReachesTheSampleSpaces := by
  intro i s t hb h
  rcases exec_eq_next h with ⟨-, rfl⟩ | ⟨-, ⟨l, r, -, rfl⟩ | ⟨n, hn, -⟩⟩
  · exact ⟨rfl, rfl, rfl, rfl, rfl, rfl⟩
  · exact ⟨rfl, rfl, rfl, rfl, rfl, rfl⟩
  · exact absurd hn (hb n)

/-! ## The record of accesses determines the output space (R33) -/

/-- The output space after a recorded access. -/
def Memory.access (m : Memory) : Access → Memory
  | .read _ _ => m
  | .write a v => m.set a v

/-- From `s` to `t` the output space has changed by the writes recorded between them alone. -/
def State.Records (s t : State) : Prop :=
  ∃ as, t.accesses = s.accesses ++ as ∧ t.output = as.foldl Memory.access s.output

theorem State.Records.of_eq {s t : State} (ha : t.accesses = s.accesses) (ho : t.output = s.output) :
    s.Records t := ⟨[], by rw [ha, List.append_nil], ho⟩

theorem State.Records.trans {s t u : State} (h : s.Records t) (h' : t.Records u) : s.Records u := by
  obtain ⟨as, ha, ho⟩ := h
  obtain ⟨bs, hb, hq⟩ := h'
  exact ⟨as ++ bs, by rw [hb, ha, List.append_assoc], by rw [hq, ho, List.foldl_append]⟩

/-- Equal records from equal output spaces leave equal output spaces. -/
theorem State.Records.output_eq {s t s' t' : State} (h : s.Records t) (h' : s'.Records t')
    (ha : s.accesses = s'.accesses) (ho : s.output = s'.output) (ht : t.accesses = t'.accesses) :
    t.output = t'.output := by
  obtain ⟨as, hta, hto⟩ := h
  obtain ⟨bs, htb, hto'⟩ := h'
  have hab : as = bs := by
    rw [hta, htb, ha] at ht
    exact List.append_cancel_left ht
  rw [hto, hto', ho, hab]

theorem readSample_records {a : Addr} {w : Word} {s t : State} (h : readSample a s = .ok (w, t)) : s.Records t := by
  unfold readSample at h
  split at h
  · cases h
    exact ⟨[_], rfl, rfl⟩
  · cases h

theorem writeSample_records {a : Addr} {v : Word} {s t : State} (h : writeSample a v s = .ok t) : s.Records t := by
  unfold writeSample at h
  split at h
  · cases h
    exact ⟨[_], rfl, rfl⟩
  · cases h

theorem frame_records {l r low high : Word} {s t : State} (h : frame l r s = .ok (low, high, t)) : s.Records t := by
  obtain ⟨cl, dl, ch, dh, -, -, -, -, rfl⟩ := frame_eq_ok.1 h
  exact .of_eq rfl rfl

/-- Where a sequence of two computations ends, both do. -/
theorem exists_ok_of_bind_eq_ok {α β : Type} {x : Except Fault α} {f : α → Except Fault β} {b : β}
    (h : x >>= f = .ok b) : ∃ a, x = .ok a ∧ f a = .ok b := by
  cases x with
  | error e => cases h
  | ok a => exact ⟨a, rfl, h⟩

theorem pbufFrame_records {s t : State} (h : pbufFrame s = .ok t) : s.Records t := by
  obtain ⟨⟨l, s1⟩, h1, h⟩ := exists_ok_of_bind_eq_ok h
  obtain ⟨⟨r, s2⟩, h2, h⟩ := exists_ok_of_bind_eq_ok h
  obtain ⟨⟨low, high, s3⟩, h3, h⟩ := exists_ok_of_bind_eq_ok h
  obtain ⟨s4, h4, h⟩ := exists_ok_of_bind_eq_ok h
  obtain ⟨s5, h5, h⟩ := exists_ok_of_bind_eq_ok h
  cases h
  exact (readSample_records h1).trans <| (readSample_records h2).trans <| (frame_records h3).trans <|
    (writeSample_records h4).trans <| (writeSample_records h5).trans <| .of_eq rfl rfl

theorem pbufLoop_records {n : FrameIndex} {fuel : Nat} {s t : State} (h : pbufLoop fuel n s = .ok t) :
    s.Records t := by
  induction fuel generalizing s with
  | zero =>
    cases h
    exact .of_eq rfl rfl
  | succ fuel ih =>
    unfold pbufLoop at h
    split at h
    · split at h
      · next u hu => exact (pbufFrame_records hu).trans (ih h)
      · cases h
    · cases h
      exact .of_eq rfl rfl

theorem exec_pbuf_records {n : FrameIndex} {s t : State} (h : exec (.pbuf n) s = .next t) : s.Records t := by
  have h : execPbuf n s = .next t := h
  unfold execPbuf at h
  split at h
  · cases h
    exact .of_eq rfl rfl
  · split at h
    · next u hu =>
      cases h
      exact (pbufLoop_records hu).trans (.of_eq rfl rfl)
    · cases h

/-! ## Shared storage (R46) -/

/-- With shared storage a `PBUF` ends where it ends with distinct buffers, with the same registers, accesses and
response. -/
theorem exec_pbuf_inPlace {n : FrameIndex} {s t : State} (h : exec (.pbuf n) { s with inPlace := false } = .next t) :
    ∃ u, exec (.pbuf n) { s with inPlace := true } = .next u ∧ u.engine = t.engine ∧ u.lp = t.lp ∧ u.hp = t.hp ∧
      u.accesses = t.accesses ∧ u.responses = t.responses := by
  rcases execPbuf_eq_next h with ⟨hd, rfl⟩ | ⟨he, ⟨rfl, rfl⟩ | ⟨cl, dl, ch, dh, v, hl, hh, hn, hv, rfl⟩⟩
  · exact ⟨_, if_pos hd, rfl, rfl, rfl, rfl, rfl⟩
  · exact ⟨_, if_neg (EngineState.not_refuses he), rfl, rfl, rfl, rfl, rfl⟩
  · have hb := execPbuf_holding (n := n) (s := { s with inPlace := true }) he hl hh
    rw [if_pos hn] at hb
    obtain ⟨u, hu, hp⟩ := hb
    have hengine : u.engine = v.engine := hp.engine.trans hv.engine.symm
    refine ⟨_, hu, hengine, hp.lp.trans hv.lp.symm, hp.hp.trans hv.hp.symm, hp.accesses.trans hv.accesses.symm, ?_⟩
    rw [respondOk_responses, respondOk_responses, hengine, hp.responses, hv.responses]
    rfl

/-- Settles O38: each frame is read before it is written, so that the accesses agree, and these determine the output
space. -/
theorem inPlaceBuffersGiveTheSameResult : Obligations.InPlaceBuffersGiveTheSameResult := by
  intro n s t h
  obtain ⟨u, hu, hengine, hlp, hhp, haccesses, hresponses⟩ := exec_pbuf_inPlace h
  exact ⟨u, hu, hengine, hlp, hhp, (exec_pbuf_records hu).output_eq (exec_pbuf_records h) rfl rfl haccesses,
    haccesses, hresponses⟩

end Sys2Proof.Machine
end

section
/-! SUPPORT. The statements of 30_encoding.md. `decodeCW_eq_some` says once which command words each row of the opcode
map takes, by the two fields; the round trip, legality and the lanes that have no effect are read off it. -/

namespace Sys2Proof

/-! ## The decoder by the two fields of a command word (R49, R53) -/

/-- The column `OPC` of the opcode map (R53). -/
def Opcode.code : Opcode → BitVec 8
  | .rst => 0x01
  | .setup => 0x02
  | .pfrm => 0x03
  | .pbuf => 0x04
  | .stop => 0x05
  | .stat => 0x06
  | .mix => 0x10
  | .clp => 0x11
  | .chp => 0x12

/-- The row of a command in the opcode map (R53). -/
def Instr.row : Instr → Opcode
  | .rst => .rst
  | .setup _ _ => .setup
  | .pfrm _ _ => .pfrm
  | .pbuf _ => .pbuf
  | .stop => .stop
  | .stat => .stat
  | .mix _ _ => .mix
  | .clp _ _ => .clp
  | .chp _ _ => .chp

/-- A row of the map is that of `PBUF`, or it fixes every bit and its field `IMM24` is zero (R53, R56). -/
theorem opcodeMap_row_cases : ∀ r ∈ opcodeMap, r = ⟨.pbuf, 0x04000000, 0xFF000000⟩ ∨
    (r = ⟨r.op, r.pattern, 0xFFFFFFFF⟩ ∧ r.op ≠ .pbuf ∧ cwOPC r.pattern = r.op.code ∧ cwIMM24 r.pattern = 0) := by
  decide

theorem exists_row_of_opcode (op : Opcode) : ∃ r ∈ opcodeMap, r.op = op := by
  cases op <;> decide

/-- No two rows of the map have one opcode (R53). -/
theorem opcodeMap_row_eq_of_code : ∀ r ∈ opcodeMap, ∀ r' ∈ opcodeMap, r.op.code = r'.op.code → r = r' := by decide

/-- What a row accepts: its opcode, and with every row but that of `PBUF` a zero `IMM24` (R53, R56). -/
theorem rowAccepts_iff {cw : Word} {r : Row} (hr : r ∈ opcodeMap) :
    rowAccepts cw r = true ↔ cwOPC cw = r.op.code ∧ (r.op = .pbuf ∨ cwIMM24 cw = 0) := by
  rcases opcodeMap_row_cases r hr with rfl | ⟨hrow, hop, hopc, himm⟩
  · rw [rowAccepts_pbuf, decide_eq_true_eq]
    exact (and_iff_left (.inl rfl)).symm
  · have hacc : rowAccepts cw r = decide (cw = r.pattern) :=
      (congrArg (rowAccepts cw) hrow).trans (rowAccepts_full cw r.pattern r.op)
    rw [hacc, decide_eq_true_eq, or_iff_right hop, ← hopc, ← himm]
    exact ⟨fun h => h ▸ ⟨rfl, rfl⟩, fun ⟨ho, hi⟩ => cw_ext ho hi⟩

/-- At most one row accepts a command word (R53). -/
theorem row_eq_of_accepts {cw : Word} {r r' : Row} (hr : r ∈ opcodeMap) (hr' : r' ∈ opcodeMap)
    (h : rowAccepts cw r = true) (h' : rowAccepts cw r' = true) : r = r' :=
  opcodeMap_row_eq_of_code r hr r' hr'
    (((rowAccepts_iff hr).1 h).1.symm.trans ((rowAccepts_iff hr').1 h').1)

/-- Which command words the decoder gives to a row (R53, R56, R58). -/
theorem decodeCW_eq_some {cw : Word} {op : Opcode} :
    decodeCW cw = some op ↔ cwOPC cw = op.code ∧ (op = .pbuf ∨ cwIMM24 cw = 0) := by
  rw [decodeCW, Option.map_eq_some_iff]
  constructor
  · rintro ⟨r, hfind, rfl⟩
    exact (rowAccepts_iff (List.mem_of_find?_eq_some hfind)).1 (List.find?_some hfind)
  · intro h
    obtain ⟨r, hr, rfl⟩ := exists_row_of_opcode op
    have hacc := (rowAccepts_iff hr).2 h
    obtain ⟨r', hfind⟩ := Option.isSome_iff_exists.1 (List.find?_isSome.2 ⟨r, hr, hacc⟩)
    have hr' := row_eq_of_accepts (List.mem_of_find?_eq_some hfind) hr (List.find?_some hfind) hacc
    exact ⟨r', hfind, congrArg Row.op hr'⟩

/-! ## The round trip (R48, R53, R54) -/

theorem encodedFields (i : Instr) : Laws.EncodedFields.Statement i := by
  cases i with
  | rst => exact Laws.EncodedFields.rst
  | setup fc fs => exact Laws.EncodedFields.setup fc fs
  | pfrm l r => exact Laws.EncodedFields.pfrm l r
  | pbuf n => exact Laws.EncodedFields.pbuf n
  | stop => exact Laws.EncodedFields.stop
  | stat => exact Laws.EncodedFields.stat
  | mix l r => exact Laws.EncodedFields.mix l r
  | clp fc fs => exact Laws.EncodedFields.clp fc fs
  | chp fc fs => exact Laws.EncodedFields.chp fc fs

theorem Instr.opcode_eq_code_row (i : Instr) : i.opcode = i.row.code := by cases i <;> rfl

/-- Only `PBUF` has an immediate (R56). -/
theorem Instr.row_eq_pbuf_or_immediate_eq_zero (i : Instr) : i.row = .pbuf ∨ i.immediate = 0 := by
  cases i with
  | pbuf n => exact .inl rfl
  | _ => exact .inr rfl

theorem decodeCW_encodeCW (i : Instr) : decodeCW (encodeCW i) = some i.row := by
  obtain ⟨hopc, himm, -⟩ := encodedFields i
  rw [decodeCW_eq_some, hopc, himm]
  exact ⟨i.opcode_eq_code_row, i.row_eq_pbuf_or_immediate_eq_zero⟩

/-- The operands of a command stand in the fields of its beat where the decoder takes them (R54). -/
theorem withOperands_encode (i : Instr) : withOperands (encode i) i.row = i := by
  cases i with
  | pbuf n => simp only [withOperands, Instr.row, encode, cmdCW_beatOf, encodeCW, cwIMM24_pbuf]
  | _ => simp only [withOperands, Instr.row, encode, cmdOPA_beatOf, cmdOPB_beatOf, encodeOPA, encodeOPB]

/-- Settles O1: the fields of the encoded word pick the command's own row, and the lanes and `IMM24` its operands. -/
theorem decodeOfEncodeIsTheCommand : Obligations.DecodeOfEncodeIsTheCommand := by
  intro i
  obtain ⟨-, -, hwf⟩ := encodedFields i
  refine ⟨hwf, ?_⟩
  rw [encode, decode_beatOf, decodeCW_encodeCW]
  exact congrArg Except.ok (withOperands_encode i)

/-! ## Legality (R53, R55, R56) -/

/-- The nine assigned opcodes (R53). -/
def assignedOpcodes : List (BitVec 8) := [0x01, 0x02, 0x03, 0x04, 0x05, 0x06, 0x10, 0x11, 0x12]

theorem opcodeAssigned_iff {opc : BitVec 8} : opcodeAssigned opc = true ↔ opc ∈ assignedOpcodes := by
  simp only [opcodeAssigned, assignedOpcodes, Bool.or_eq_true, Bool.and_eq_true, decide_eq_true_eq, List.mem_cons,
    List.not_mem_nil, or_false]
  bv_omega

theorem mem_assignedOpcodes_iff {opc : BitVec 8} : opc ∈ assignedOpcodes ↔ ∃ op : Opcode, opc = op.code := by
  constructor
  · intro h
    simp only [assignedOpcodes, List.mem_cons, List.not_mem_nil, or_false] at h
    rcases h with h | h | h | h | h | h | h | h | h
    exacts [⟨.rst, h⟩, ⟨.setup, h⟩, ⟨.pfrm, h⟩, ⟨.pbuf, h⟩, ⟨.stop, h⟩, ⟨.stat, h⟩, ⟨.mix, h⟩, ⟨.clp, h⟩, ⟨.chp, h⟩]
  · rintro ⟨op, rfl⟩
    cases op <;> decide

/-- `PBUF` is the row of the opcode `0x04` (R53). -/
theorem Opcode.code_eq_pbuf {op : Opcode} : op.code = 0x04 ↔ op = .pbuf := by
  cases op <;> decide

/-- The check on the fields by the rows of the map (R53, R55, R56). -/
theorem fieldsWellFormed_iff {opc : BitVec 8} {imm : BitVec 24} : fieldsWellFormed opc imm = true ↔
    ∃ op : Opcode, opc = op.code ∧ (op = .pbuf ∨ imm = 0) := by
  simp only [fieldsWellFormed, immediateAllowed, Bool.and_eq_true, Bool.or_eq_true, beq_iff_eq, opcodeAssigned_iff,
    mem_assignedOpcodes_iff]
  constructor
  · rintro ⟨⟨op, rfl⟩, h⟩
    exact ⟨op, rfl, h.imp_left Opcode.code_eq_pbuf.1⟩
  · rintro ⟨op, rfl, h⟩
    exact ⟨⟨op, rfl⟩, h.imp_left Opcode.code_eq_pbuf.2⟩

theorem exists_decode_iff {b : Beat} : (∃ i, decode b = .ok i) ↔ ∃ op, decodeCW (cmdCW b) = some op := by
  unfold decode
  cases decodeCW (cmdCW b) <;> simp

/-- The decoder accepts exactly the legal field values (R55, R56, R58). -/
theorem exists_decode_iff_fieldsWellFormed {b : Beat} :
    (∃ i, decode b = .ok i) ↔ fieldsWellFormed (cwOPC (cmdCW b)) (cwIMM24 (cmdCW b)) = true := by
  simp only [exists_decode_iff, decodeCW_eq_some, fieldsWellFormed_iff]

/-- Settles O2: acceptance and legality both say that some row has the opcode and allows the immediate. -/
theorem decoderAcceptsExactlyTheLegalFields : Obligations.DecoderAcceptsExactlyTheLegalFields :=
  ⟨fun _ => exists_decode_iff_fieldsWellFormed, fun _ _ _ => row_eq_of_accepts⟩

/-! ## Fixed beats -/

/-- Settles O3: fixed words. -/
theorem writtenOutBeatsDecode : Obligations.WrittenOutBeatsDecode := by
  unfold Obligations.WrittenOutBeatsDecode
  decide

/-! ## Lanes without effect (R57) -/

/-- A command word with the opcode of `RST`, `PBUF`, `STOP` or `STAT` encodes the same with any lanes (R57). -/
theorem decode_beatOf_lanes {cw : Word} (h : cwOPC cw ∈ [0x01, 0x04, 0x05, 0x06]) (opa opb opa' opb' : Word) :
    decode (beatOf cw opa opb) = decode (beatOf cw opa' opb') := by
  rw [decode_beatOf, decode_beatOf]
  cases hop : decodeCW cw with
  | none => rfl
  | some op =>
    rw [(decodeCW_eq_some.1 hop).1] at h
    refine congrArg Except.ok ?_
    cases op with
    | rst | pbuf | stop | stat => simp only [withOperands, cmdCW_beatOf]
    | _ => exact absurd h (by decide)

end Sys2Proof

namespace Sys2Proof.Machine

/-! ## The step on a beat (R55, R56, R57, R59) -/

theorem step_command {s : State} {b : Beat} {rest : List HostEvent} (h : s.run = .command b :: rest) :
    step s = acceptBeat b (s.setRun rest) := step_cons h

theorem acceptBeat_of_ok {b : Beat} {i : Instr} (h : decode b = .ok i) (s : State) : acceptBeat b s = exec i s := by
  rw [acceptBeat, h]

/-- A beat whose fields are not legal is answered `IllegalCommand` and changes nothing else (R55, R56). -/
theorem acceptBeat_of_illegal {b : Beat}
    (h : ¬ fieldsWellFormed (cwOPC (cmdCW b)) (cwIMM24 (cmdCW b)) = true) (s : State) :
    acceptBeat b s = .next (raiseStatus .illegalCommand s) := by
  rcases acceptBeat_eq b s with ⟨i, hi, -⟩ | ⟨e, -, he⟩
  · exact absurd (exists_decode_iff_fieldsWellFormed.1 ⟨i, hi⟩) h
  · exact he

/-- Settles O4: no row has a reserved opcode. -/
theorem reservedOpcodesAreAnsweredIllegalCommand : Obligations.ReservedOpcodesAreAnsweredIllegalCommand := by
  refine ⟨fun s b rest hrun hopc => ?_, by decide⟩
  have hill : ¬ fieldsWellFormed (cwOPC (cmdCW b)) (cwIMM24 (cmdCW b)) = true := by
    rw [fieldsWellFormed, Bool.and_eq_true, opcodeAssigned_iff]
    exact fun h => hopc h.1
  exact (step_command hrun).trans (acceptBeat_of_illegal hill _)

/-- Settles O5: the one opcode that allows a nonzero `IMM24` is not among the eight. -/
theorem nonzeroImmediateIsAnsweredIllegalCommand : Obligations.NonzeroImmediateIsAnsweredIllegalCommand := by
  intro s b rest hrun hopc himm
  have hill : ¬ fieldsWellFormed (cwOPC (cmdCW b)) (cwIMM24 (cmdCW b)) = true := by
    rw [fieldsWellFormed_iff]
    rintro ⟨op, hop, rfl | hzero⟩
    · rw [hop] at hopc
      exact absurd hopc (by decide)
    · exact himm hzero
  exact (step_command hrun).trans (acceptBeat_of_illegal hill _)

/-- Settles O6: both beats decode alike, and the step looks at a beat through the decoder alone. -/
theorem unusedLanesHaveNoEffect : Obligations.UnusedLanesHaveNoEffect := by
  intro s cw opa opb opa' opb' rest hopc
  have hstep : ∀ b, step { s with run := .command b :: rest } = acceptBeat b (s.setRun rest) := fun _ => rfl
  rw [hstep, hstep, acceptBeat, acceptBeat, decode_beatOf_lanes hopc opa opb opa' opb']

/-- Settles O8: well-formedness is not needed, since the decoder gives no other command. -/
theorem stepRunsTheDecodedCommand : Obligations.StepRunsTheDecodedCommand := by
  intro s b rest i hrun hdec _
  exact (step_command hrun).trans (acceptBeat_of_ok hdec _)

/-! ## The script language (R60 to R62) -/

/-- Settles O59: fixed texts. -/
theorem scriptExamplesAssemble : Obligations.ScriptExamplesAssemble := by
  unfold Obligations.ScriptExamplesAssemble
  decide +kernel

/-- Two commands that run no frame, one after the other. -/
theorem execAll_pair_of_not_runs {i j : Instr} {s : State} (hi : ¬ s.engine.Runs i)
    (hj : ¬ (s.settle i).engine.Runs j) : execAll [i, j] s = .next ((s.settle i).settle j) := by
  simp only [execAll, exec_of_not_runs hi, exec_of_not_runs hj]

/-- Only `PFRM` and `PBUF` run frames. -/
theorem EngineState.not_runs_of_ne {i : Instr} (hf : ∀ l r, i ≠ .pfrm l r) (hb : ∀ n, i ≠ .pbuf n)
    (e : EngineState) : ¬ e.Runs i := by
  rintro ⟨-, ⟨l, r, h⟩ | ⟨n, h⟩⟩
  · exact hf l r h
  · exact hb n h

/-- What a `SETUP` leaves that passes the check outside Running (R94, R107). -/
theorem State.settle_setup {s : State} {fc fs : Word} (he : s.engine ≠ .running) (hv : validFreq fc fs = true) :
    (s.settle (.setup fc fs)).engine = .ready ∧
    (s.settle (.setup fc fs)).lp = Filter.holding (calcLp fc fs) Delay.zero ∧
    (s.settle (.setup fc fs)).hp = Filter.holding (calcHp fc fs) Delay.zero ∧
    (s.settle (.setup fc fs)).responses = s.responses ++ [responseOf .ok .ready Lanes.zero] := by
  simp only [State.settle_engine, State.settle_lp, State.settle_hp, State.settle_responses, Filter.settle,
    transition_setup he, if_neg he, if_pos hv, true_and]
  exact ⟨rfl, rfl, rfl⟩

/-- A command that runs no frame and leaves a state other than Running, then a `SETUP` that passes the check: the
pseudo-commands are of this shape (R62). -/
theorem execAll_then_setup {i : Instr} {s : State} {fc fs : Word} (hi : ¬ s.engine.Runs i)
    (he : (s.settle i).engine ≠ .running) (hv : validFreq fc fs = true) :
    ∃ t, execAll [i, .setup fc fs] s = .next t ∧ t.engine = .ready ∧
      t.lp = Filter.holding (calcLp fc fs) Delay.zero ∧ t.hp = Filter.holding (calcHp fc fs) Delay.zero ∧
      t.responses = (s.settle i).responses ++ [responseOf .ok .ready Lanes.zero] :=
  ⟨_, execAll_pair_of_not_runs hi (EngineState.not_runs_of_ne (by simp) (by simp) _), State.settle_setup he hv⟩

theorem State.settle_stop_engine_ne_running (s : State) : (s.settle .stop).engine ≠ .running := by
  rw [State.settle_engine]
  cases s.engine <;> decide

theorem State.settle_stop_responses (s : State) : (s.settle .stop).responses = s.responses ++
    [if s.engine = .uninitialized then responseOf .illegalState .uninitialized Lanes.zero
      else responseOf .ok .stopped Lanes.zero] := by
  rw [State.settle_responses]
  cases s.engine <;> rfl

/-- Settles O60: after `RST` and after `STOP`, done or refused, the engine is not Running, so that `SETUP` is
legal. -/
theorem pseudoCommandsSetUpAnew : Obligations.PseudoCommandsSetUpAnew := by
  intro fc fs s hv
  constructor
  · have hne : (s.settle .rst).engine ≠ .running := EngineState.noConfusion
    obtain ⟨t, ht, he, hl, hh, hr⟩ := execAll_then_setup (EngineState.not_runs_of_ne (by simp) (by simp) _) hne hv
    exact ⟨t, ht, he, hl, hh, by rw [hr, State.settle_responses, List.append_assoc]; rfl⟩
  · obtain ⟨t, ht, he, hl, hh, hr⟩ :=
      execAll_then_setup (EngineState.not_runs_of_ne (by simp) (by simp) _) s.settle_stop_engine_ne_running hv
    exact ⟨t, ht, he, hl, hh, by rw [hr, State.settle_stop_responses, List.append_assoc]; rfl⟩

end Sys2Proof.Machine
end

section
/-! SUPPORT. Rounding (R65), for rational and for real numbers alike. Without its sign a rounding is the choice of a
magnitude, `NearestMag`: one always exists and there is only one, so that `IsRN32` has exactly one answer, and `rn32`
computes it. -/

namespace Sys2Proof.Machine

/-! ## The nearest magnitude (R65 c) -/

/-- The finite magnitude `m` is nearest to `X` units of 2^(−149), and even where another one is as near (R65 c). -/
structure NearestMag (X : ℝ) (m : ℕ) : Prop where
  lt : m < 0x7F800000
  le : ∀ k < 0x7F800000, |X - magUnits m| ≤ |X - magUnits k|
  even : ∀ k < 0x7F800000, k ≠ m → |X - magUnits k| = |X - magUnits m| → m % 2 = 0

theorem magUnits_lt_cast {a b : ℕ} (h : a < b) : (magUnits a : ℝ) < magUnits b := by
  exact_mod_cast magUnits_strictMono h

/-- Two magnitudes that are both nearest are neighbours: one between them would be nearer. -/
theorem eq_succ_of_tie {X : ℝ} {a b : ℕ} (hab : a < b) (hnear : |X - magUnits a| ≤ |X - magUnits (a + 1)|)
    (htie : |X - magUnits a| = |X - magUnits b|) : b = a + 1 := by
  by_contra hne
  have h1 := magUnits_lt_cast (Nat.lt_succ_self a)
  have h2 := magUnits_lt_cast (show a + 1 < b by omega)
  have hmid : 2 * X = magUnits a + magUnits b := by
    rcases abs_eq_abs.1 htie with h | h <;> linarith
  have hcloser : |X - magUnits (a + 1)| < |X - magUnits a| := by
    rw [abs_of_pos (show 0 < X - magUnits a by linarith), abs_lt]
    constructor <;> linarith
  linarith

theorem NearestMag.unique {X : ℝ} {m n : ℕ} (hm : NearestMag X m) (hn : NearestMag X n) : m = n := by
  have htie : |X - magUnits m| = |X - magUnits n| := le_antisymm (hm.le n hn.lt) (hn.le m hm.lt)
  by_contra hne
  have hme := hm.even n hn.lt (Ne.symm hne) htie.symm
  have hne' := hn.even m hm.lt hne htie
  rcases Nat.lt_or_gt_of_ne hne with h | h
  · have := eq_succ_of_tie h (hm.le _ (lt_of_le_of_lt h hn.lt)) htie
    omega
  · have := eq_succ_of_tie h (hn.le _ (lt_of_le_of_lt h hm.lt)) htie.symm
    omega

theorem exists_nearestMag (X : ℝ) : ∃ m, NearestMag X m := by
  obtain ⟨m, hm, hmin⟩ := Finset.exists_min_image (Finset.range 0x7F800000) (fun k => |X - magUnits k|)
    ⟨0, Finset.mem_range.2 (by norm_num)⟩
  simp only [Finset.mem_range] at hm hmin
  by_cases h : ∃ n < 0x7F800000, |X - magUnits n| = |X - magUnits m| ∧ n % 2 = 0
  · obtain ⟨n, hn, htie, heven⟩ := h
    exact ⟨n, hn, fun k hk => htie ▸ hmin k hk, fun _ _ _ _ => heven⟩
  · refine ⟨m, hm, hmin, fun k hk hne htie => ?_⟩
    by_contra hodd
    have hk2 : ¬ k % 2 = 0 := fun he => h ⟨k, hk, htie, he⟩
    rcases Nat.lt_or_gt_of_ne hne with hlt | hlt
    · have := eq_succ_of_tie hlt (htie ▸ hmin _ (lt_of_le_of_lt hlt hm)) htie
      omega
    · have := eq_succ_of_tie hlt (hmin _ (lt_of_le_of_lt hlt hk)) htie.symm
      omega

/-- A magnitude is the nearest one to its own value. -/
theorem nearestMag_magUnits {m : ℕ} (hm : m < 0x7F800000) : NearestMag (magUnits m) m := by
  refine ⟨hm, fun k _ => by simp, fun k _ hne htie => absurd ?_ hne⟩
  rw [sub_self, abs_zero, abs_eq_zero, sub_eq_zero] at htie
  exact magUnits_strictMono.injective (by exact_mod_cast htie.symm)

/-- The rounded magnitude of a fraction is the nearest one (R65 c). -/
theorem nearestMag_roundMagnitude {num den : ℕ} (hd : 0 < den) (h : num < overflowBound * den) :
    NearestMag ((num : ℝ) / den * 2 ^ 149) (roundMagnitude num den) := by
  have hd' : (0 : ℝ) < den := by exact_mod_cast hd
  have hscale : ∀ k : ℕ, ((|((num * 2 ^ 149 : ℕ) : ℤ) - magUnits k * den| : ℤ) : ℝ) =
      |(num : ℝ) / den * 2 ^ 149 - magUnits k| * den := by
    intro k
    rw [← abs_of_pos hd', ← abs_mul, abs_of_pos hd', sub_mul, div_mul_eq_mul_div, div_mul_cancel₀ _ hd'.ne']
    push_cast
    norm_num
  refine ⟨roundMagnitude_lt num den hd h, fun k _ => ?_, fun k _ hne htie => ?_⟩
  · refine le_of_mul_le_mul_right ?_ hd'
    rw [← hscale, ← hscale]
    exact_mod_cast (roundMagnitude_spec num den hd k).1
  · refine (roundMagnitude_spec num den hd k).2 ?_ (magUnits_strictMono.injective.ne hne)
    have := congrArg (· * (den : ℝ)) htie
    simp only [← hscale] at this
    exact_mod_cast this

/-! ## The rounding of a real number (R65, R78) -/

/-- The overflow bound of R65 b is the model's. -/
theorem overflowBound_eq {K : Type} [Field K] [CharZero K] :
    ((2 : K) - 2 ^ (-24 : ℤ)) * 2 ^ 127 = overflowBound := by
  norm_num [overflowBound]

/-- The finite word of a sign and a magnitude. -/
theorem exists_word (s : Bool) {m : ℕ} (hm : m < 0x7F800000) : ∃ w : Word, signBit w = s ∧ magOf w = m := by
  refine ⟨withSign s (BitVec.ofNat 31 m), signBit_withSign _ _, ?_⟩
  rw [magOf_withSign, BitVec.toNat_ofNat, Nat.mod_eq_of_lt (by omega)]

/-- The value of a word as a real number, in units (R64). -/
theorem val_cast (w : Word) :
    ((val w : ℚ) : ℝ) * 2 ^ 149 = (if signBit w then -1 else 1) * (magUnits (magOf w) : ℝ) := by
  rw [val_eq]
  push_cast
  rw [div_mul_cancel₀ _ (by positivity)]
  split <;> norm_num

/-- Words of one sign are as far from a number of that sign as their magnitudes are. -/
theorem abs_sub_val {x : ℝ} {w : Word} (hs : signBit w = decide (x < 0)) :
    |x - val w| * 2 ^ 149 = |(|x| * 2 ^ 149 - magUnits (magOf w))| := by
  rw [← abs_of_pos (show (0 : ℝ) < 2 ^ 149 by positivity), ← abs_mul, abs_of_pos (show (0 : ℝ) < 2 ^ 149 by positivity),
    sub_mul, val_cast, hs]
  by_cases hx : x < 0
  · rw [decide_eq_true hx, if_pos rfl, abs_of_neg hx, ← abs_neg]
    congr 1
    ring
  · rw [decide_eq_false hx, if_neg Bool.false_ne_true, one_mul, abs_of_nonneg (not_lt.1 hx)]

/-- Among all finite words those of the sign of `x` are enough: for each word one of them, or its zero, is as near,
and strictly nearer where the values differ. -/
theorem exists_same_sign_nearer {x : ℝ} {v : Word} (h0 : x ≠ 0) (hv : isFinite v = true) : ∃ u : Word,
    isFinite u = true ∧ signBit u = decide (x < 0) ∧ (val u = val v ∨ |x - val u| < |x - val v|) := by
  by_cases hs : signBit v = decide (x < 0)
  · exact ⟨v, hv, hs, .inl rfl⟩
  · refine ⟨zeroOf (decide (x < 0)), (isFinite_iff _).2 (by simp), signBit_zeroOf _, ?_⟩
    have hz : val (zeroOf (decide (x < 0))) = 0 := val_zero_of_isZero ((isZero_iff _).2 (magOf_zeroOf _))
    rw [hz, Rat.cast_zero, sub_zero, or_iff_not_imp_left]
    intro hne
    have hc := val_cast v
    have hU : (0 : ℝ) ≤ magUnits (magOf v) := by positivity
    have hv0 : ((val v : ℚ) : ℝ) ≠ 0 := by exact_mod_cast Ne.symm hne
    by_cases hx : x < 0
    · have hv' : signBit v = false := by simpa [hx] using hs
      rw [hv', if_neg Bool.false_ne_true, one_mul] at hc
      have : (0 : ℝ) < val v := lt_of_le_of_ne (by nlinarith) (Ne.symm hv0)
      rw [abs_of_neg hx, abs_of_neg (by linarith)]
      linarith
    · have hx' : 0 < x := lt_of_le_of_ne (not_lt.1 hx) (Ne.symm h0)
      have hv' : signBit v = true := by simpa [hx] using hs
      rw [hv', if_pos rfl, neg_one_mul] at hc
      have : ((val v : ℚ) : ℝ) < 0 := lt_of_le_of_ne (by nlinarith) hv0
      rw [abs_of_pos hx', abs_of_pos (by linarith)]
      linarith

theorem val_eq_iff_of_signBit_eq {v w : Word} (hs : signBit v = signBit w) : val v = val w ↔ magOf v = magOf w := by
  constructor
  · intro h
    have h' := congrArg (|·|) h
    simp only [abs_val] at h'
    rw [div_left_inj' (by positivity)] at h'
    exact magUnits_strictMono.injective (by exact_mod_cast h')
  · intro h
    rw [word_ext hs h]

theorem fracField_even_iff (w : Word) : fracField w % 2 = 0 ↔ magOf w % 2 = 0 := by
  rw [fracField_eq]
  omega

/-- Below the overflow bound the rounding of a number is the word of its sign and of the nearest magnitude. -/
theorem isRN32_iff {x : ℝ} {zs : Bool} {w : Word} (h0 : x ≠ 0) (hb : |x| < overflowBound) :
    IsRN32 x zs w ↔ signBit w = decide (x < 0) ∧ NearestMag (|x| * 2 ^ 149) (magOf w) := by
  have hpos : (0 : ℝ) < 2 ^ 149 := by positivity
  rw [IsRN32, overflowBound_eq]
  constructor
  · rintro ⟨-, -, h⟩
    obtain ⟨hf, hs, hle, heven⟩ := h h0 hb
    have hs : signBit w = decide (x < 0) := by rw [Bool.eq_iff_iff, hs, decide_eq_true_iff]
    refine ⟨hs, (isFinite_iff w).1 hf, fun k hk => ?_, fun k hk hne htie => ?_⟩ <;>
      obtain ⟨v, hvs, rfl⟩ := exists_word (decide (x < 0)) hk
    · rw [← abs_sub_val hs, ← abs_sub_val hvs]
      exact mul_le_mul_of_nonneg_right (hle v ((isFinite_iff v).2 hk)) hpos.le
    · rw [← abs_sub_val hs, ← abs_sub_val hvs] at htie
      exact (fracField_even_iff w).1 (heven v ((isFinite_iff v).2 hk)
        (mt (val_eq_iff_of_signBit_eq (hvs.trans hs.symm)).1 hne) (mul_right_cancel₀ hpos.ne' htie))
  · rintro ⟨hs, hn⟩
    have hle : ∀ u : Word, isFinite u = true → signBit u = decide (x < 0) → |x - val w| ≤ |x - val u| := by
      intro u hu hus
      refine le_of_mul_le_mul_right ?_ hpos
      rw [abs_sub_val hs, abs_sub_val hus]
      exact hn.le _ ((isFinite_iff u).1 hu)
    refine ⟨fun h => absurd h h0, fun h => absurd hb (not_lt.2 h), fun _ _ => ⟨(isFinite_iff w).2 hn.lt, ?_, ?_, ?_⟩⟩
    · rw [hs, decide_eq_true_iff]
    · intro v hv
      obtain ⟨u, hu, hus, huv | huv⟩ := exists_same_sign_nearer h0 hv
      · exact huv ▸ hle u hu hus
      · exact (hle u hu hus).trans huv.le
    · intro v hv hne htie
      obtain ⟨u, hu, hus, huv | huv⟩ := exists_same_sign_nearer h0 hv
      · rw [fracField_even_iff]
        refine hn.even _ ((isFinite_iff u).1 hu) (fun h => hne ?_) ?_
        · rw [← huv, word_ext (hus.trans hs.symm) h]
        · rw [← abs_sub_val hs, ← abs_sub_val hus, huv, htie]
      · exact absurd (hle u hu hus) (not_le.2 (htie ▸ huv))

/-- A zero result takes the sign asked for (R65 a). -/
theorem isRN32_zero_iff {zs : Bool} {w : Word} : IsRN32 0 zs w ↔ w = zeroOf zs := by
  rw [IsRN32, overflowBound_eq]
  have hb : ¬ (overflowBound : ℝ) ≤ |0| := by norm_num [overflowBound]
  exact ⟨fun h => h.1 rfl, fun h => ⟨fun _ => h, fun hle => absurd hle hb, fun h0 => absurd rfl h0⟩⟩

/-- From the bound on a result overflows (R65 b). -/
theorem isRN32_overflow_iff {x : ℝ} {zs : Bool} {w : Word} (hb : overflowBound ≤ |x|) :
    IsRN32 x zs w ↔ w = infOf (decide (x < 0)) := by
  have h0 : x ≠ 0 := by
    rintro rfl
    norm_num [overflowBound] at hb
  rw [IsRN32, overflowBound_eq]
  constructor
  · rintro ⟨-, h, -⟩
    obtain ⟨hi, hs⟩ := h hb
    rw [eq_infOf hi, Bool.eq_iff_iff.2 (hs.trans decide_eq_true_iff.symm)]
  · rintro rfl
    exact ⟨fun h => absurd h h0, fun _ => ⟨(isInf_iff _).2 (magOf_infOf _), by rw [signBit_infOf, decide_eq_true_iff]⟩,
      fun _ h => absurd h (not_lt.2 hb)⟩

/-- Every real number has a rounding (R65). -/
theorem exists_isRN32 (x : ℝ) (zs : Bool) : ∃ w, IsRN32 x zs w := by
  by_cases h0 : x = 0
  · subst h0
    exact ⟨_, isRN32_zero_iff.2 rfl⟩
  rcases le_or_gt (overflowBound : ℝ) |x| with hb | hb
  · exact ⟨_, (isRN32_overflow_iff hb).2 rfl⟩
  · obtain ⟨m, hm⟩ := exists_nearestMag (|x| * 2 ^ 149)
    obtain ⟨w, hs, rfl⟩ := exists_word (decide (x < 0)) hm.lt
    exact ⟨w, (isRN32_iff h0 hb).2 ⟨hs, hm⟩⟩

/-- No real number has two roundings (R65). -/
theorem IsRN32.unique {x : ℝ} {zs : Bool} {v w : Word} (hv : IsRN32 x zs v) (hw : IsRN32 x zs w) : v = w := by
  by_cases h0 : x = 0
  · subst h0
    rw [isRN32_zero_iff.1 hv, isRN32_zero_iff.1 hw]
  rcases le_or_gt (overflowBound : ℝ) |x| with hb | hb
  · rw [(isRN32_overflow_iff hb).1 hv, (isRN32_overflow_iff hb).1 hw]
  · obtain ⟨hvs, hvm⟩ := (isRN32_iff h0 hb).1 hv
    obtain ⟨hws, hwm⟩ := (isRN32_iff h0 hb).1 hw
    exact word_ext (hvs.trans hws.symm) (hvm.unique hwm)

/-! ## The model's rounding (R65) -/

/-- The model's rounding of a rational number is its rounding as a real number. -/
theorem isRN32_rn32 (q : ℚ) (zs : Bool) : IsRN32 q zs (rn32 q zs) := by
  have hden : (0 : ℝ) < q.den := by exact_mod_cast q.den_pos
  have habs : |(q : ℝ)| = (q.num.natAbs : ℝ) / q.den := by
    rw [Rat.cast_def, abs_div, abs_of_pos hden, Nat.cast_natAbs, Int.cast_abs]
  have hneg : decide ((q : ℝ) < 0) = decide (q < 0) := decide_eq_decide.2 Rat.cast_lt_zero
  rcases rn32_cases q zs with ⟨rfl, h⟩ | ⟨-, hb, h⟩ | ⟨h0, hb, hs, hm, -⟩
  · rw [h, Rat.cast_zero, isRN32_zero_iff]
  · have hb : (overflowBound : ℝ) ≤ |(q : ℝ)| := by
      rw [habs, le_div_iff₀ hden]
      exact_mod_cast hb
    rw [h, isRN32_overflow_iff hb, hneg]
  · have hlt : |(q : ℝ)| < overflowBound := by
      rw [habs, div_lt_iff₀ hden]
      exact_mod_cast hb
    rw [isRN32_iff (by exact_mod_cast h0) hlt, hs, hm, hneg, habs]
    exact ⟨rfl, nearestMag_roundMagnitude q.den_pos hb⟩

/-- Settles O45: the three clauses are those of `IsRN32`, at a rational number. -/
theorem roundingIsToNearestTiesToEven : Obligations.RoundingIsToNearestTiesToEven := by
  refine ⟨fun zs => rfl, fun q zs hb => ?_, fun q zs h0 hb => ?_⟩ <;> rw [overflowBound_eq] at hb
  · have hb' : (overflowBound : ℝ) ≤ |(q : ℝ)| := by exact_mod_cast hb
    rw [(isRN32_overflow_iff hb').1 (isRN32_rn32 q zs), decide_eq_decide.2 Rat.cast_lt_zero]
  · obtain ⟨-, -, h⟩ := isRN32_rn32 q zs
    rw [overflowBound_eq] at h
    obtain ⟨hf, -, hle, heven⟩ := h (by exact_mod_cast h0) (by exact_mod_cast hb)
    exact ⟨hf, signBit_rn32 h0 zs, fun w hw => by exact_mod_cast hle w hw,
      fun w hw hne htie => heven w hw hne (by exact_mod_cast htie)⟩

/-- A finite word lies below the overflow bound. -/
theorem abs_val_lt_overflowBound {w : Word} (hw : isFinite w = true) : |val w| < overflowBound := by
  have h := magUnits_strictMono.monotone (Nat.le_of_lt_succ ((isFinite_iff w).1 hw))
  have h' : (magUnits (magOf w) : ℚ) ≤ 16777215 * 2 ^ 253 := by exact_mod_cast h
  rw [abs_val, div_lt_iff₀ (by positivity)]
  refine h'.trans_lt ?_
  norm_num [overflowBound]

/-- Settles O46: a word is the rounding of its own value, and a number has one rounding. -/
theorem roundingIsExactOnWords : Obligations.RoundingIsExactOnWords := by
  intro w zs hf hz
  have hv0 := val_ne_zero hz
  refine (isRN32_rn32 (val w) zs).unique ((isRN32_iff (by exact_mod_cast hv0) ?_).2 ⟨?_, ?_⟩)
  · exact_mod_cast abs_val_lt_overflowBound hf
  · rw [Bool.eq_iff_iff, decide_eq_true_iff, Rat.cast_lt_zero, val_lt_zero_iff hz]
  · have hX : |((val w : ℚ) : ℝ)| * 2 ^ 149 = magUnits (magOf w) := by
      rw [← Rat.cast_abs, abs_val]
      push_cast
      exact div_mul_cancel₀ _ (by positivity)
    rw [hX]
    exact nearestMag_magUnits ((isFinite_iff w).1 hf)

end Sys2Proof.Machine
end

section
/-! SUPPORT. The reference tangent (R78) exists and is unique, up to which quiet NaN it is, because the rounding of a
real number is; the coefficients at (1000, 44100) are those of its one value there. -/

namespace Sys2Proof.Machine

theorem exists_isTan32ref (t : Word) : ∃ r, IsTan32ref t r := by
  cases hf : isFinite t with
  | false =>
    have hz : isZero t ≠ true := fun h => by simp [isFinite_of_isZero h] at hf
    exact ⟨0x7FC00000, fun _ => by decide, fun h => absurd h hz, fun h => absurd (hf.symm.trans h) Bool.false_ne_true⟩
  | true =>
    cases hz : isZero t with
    | true => exact ⟨t, by simp [hf], fun _ => rfl, by simp [hz]⟩
    | false =>
      obtain ⟨r, hr⟩ := exists_isRN32 (Real.tan (val t : ℝ)) false
      exact ⟨r, by simp [hf], by simp [hz], fun _ _ => hr⟩

theorem IsTan32ref.unique {t r r' : Word} (hf : isFinite t = true) (hr : IsTan32ref t r) (hr' : IsTan32ref t r') :
    r = r' := by
  obtain ⟨-, hzero, htan⟩ := hr
  obtain ⟨-, hzero', htan'⟩ := hr'
  cases hz : isZero t with
  | true => rw [hzero hz, hzero' hz]
  | false => exact (htan hf hz).unique (htan' hf hz)

/-- R78: the operand word of (1000, 44100). -/
theorem isTan32ref_1000_44100 : IsTan32ref 0x3D91E531 0x3D922480 :=
  isTan32ref_of_taylor (by decide +kernel) (by decide +kernel) (by decide +kernel) (by decide +kernel)

/-- R78: the operand word is `PI32/8`. -/
theorem isTan32ref_pi_eighth : IsTan32ref 0x3EC90FDB 0x3ED413CD :=
  isTan32ref_of_taylor (by decide +kernel) (by decide +kernel) (by decide +kernel) (by decide +kernel)

/-- A finite word has one reference tangent. -/
theorem isTan32ref_iff {t w : Word} (hf : isFinite t = true) (hw : IsTan32ref t w) (r : Word) :
    IsTan32ref t r ↔ r = w :=
  ⟨fun hr => hr.unique hf hw, fun h => h ▸ hw⟩

/-- R84: the argument of the tangent at (1000, 44100). -/
theorem calcW_1000_44100 : calcW 0x447A0000 0x472C4400 = 0x3D91E531 := by decide +kernel

/-- R85, R86: the worked coefficients at (1000, 44100). -/
theorem coefficients_1000_44100 {t : Word} (ht : IsTan32ref (calcW 0x447A0000 0x472C4400) t) :
    lowpassOf t = ⟨0x3B96DD24, 0x3C16DD24, 0x3B96DD24, 0xBFE648CC, 0x3F514880⟩ ∧
    highpassOf t = ⟨0x3F677686, 0xBFE77686, 0x3F677686, 0xBFE648CB, 0x3F514880⟩ := by
  rw [calcW_1000_44100, isTan32ref_iff (by decide) isTan32ref_1000_44100] at ht
  subst ht
  decide +kernel

/-- Settles O57: the rounding of a real number exists and is unique, and a Taylor polynomial fixes the tangents of the
examples. -/
theorem referenceTangentAndWorkedCoefficients : Obligations.ReferenceTangentAndWorkedCoefficients := by
  refine ⟨isRN32_rn32, exists_isTan32ref, fun t r r' hr hr' => ?_, isTan32ref_iff (by decide) isTan32ref_1000_44100,
    isTan32ref_iff (by decide) isTan32ref_pi_eighth, calcW_1000_44100, fun t => coefficients_1000_44100,
    fun href => coefficients_1000_44100 (href _)⟩
  cases hf : isFinite t with
  | true => exact .inl (hr.unique hf hr')
  | false => exact .inr ⟨rfl, hr.1 hf, hr'.1 hf⟩

end Sys2Proof.Machine
end

section
/-! SUPPORT. Determinism (R79). A command that ends has one response, and whether or not it runs frames that response
is a function of the command, the engine's registers and the input samples. -/

namespace Sys2Proof.Machine

/-- The result lanes of a command that runs frames: the two outputs of a `PFRM`, nothing for a `PBUF` (R54, R105). -/
def State.frameLanes (s : State) : Instr → Lanes
  | .pfrm l r => ⟨s.lp.output (mixf l r), s.hp.output (mixf l r), 0, 0, 0⟩
  | _ => Lanes.zero

/-- The response of a command that runs frames (R108, R109). -/
theorem exec_responses_of_runs {i : Instr} {s t : State} (hr : s.engine.Runs i) (h : exec i s = .next t) :
    t.responses = s.responses ++ [responseOf .ok .running (s.frameLanes i)] := by
  obtain ⟨he, ⟨l, r, rfl⟩ | ⟨n, rfl⟩⟩ := hr
  · rw [execPfrm_of_runs he h]
    rfl
  · exact (execPbuf_of_runs he h).responses

theorem State.samplesOf_congr {s u : State} (h : s.input = u.input) (i : Instr) : s.samplesOf i = u.samplesOf i := by
  cases i with
  | pbuf n => exact State.monos_congr h n.toNat
  | _ => rfl

theorem State.frameLanes_congr {s u : State} (hl : s.lp = u.lp) (hh : s.hp = u.hp) (i : Instr) :
    s.frameLanes i = u.frameLanes i := by
  cases i with
  | pfrm l r => rw [State.frameLanes, State.frameLanes, hl, hh]
  | _ => rfl

/-- Two descriptions of the one response that a command adds agree (R51). -/
theorem eq_of_append_singleton {rs rs' : List Response} {r r' : Response} (h : rs' = rs ++ [r])
    (h' : rs' = rs ++ [r']) : r = r' :=
  List.singleton_inj.1 (List.append_cancel_left (h.symm.trans h'))

/-- Settles O33: a command that runs frames sends samples of the input through the filters, and every other one is
`State.settle`. -/
theorem commandsDependOnRegistersAndInputAlone : Obligations.CommandsDependOnRegistersAndInputAlone := by
  intro i s u t v r q he hl hh hin ht hv hr hq
  by_cases hrun : s.engine.Runs i
  · have hrun' : u.engine.Runs i := he ▸ hrun
    obtain ⟨het, hlt, hht⟩ := exec_of_runs hrun ht
    obtain ⟨hev, hlv, hhv⟩ := exec_of_runs hrun' hv
    have hs := State.samplesOf_congr hin i
    refine ⟨het.trans hev.symm, by rw [hlt, hlv, hl, hs], by rw [hht, hhv, hh, hs], ?_⟩
    rw [eq_of_append_singleton hr (exec_responses_of_runs hrun ht),
      eq_of_append_singleton hq (exec_responses_of_runs hrun' hv), State.frameLanes_congr hl hh]
  · rw [exec_of_not_runs hrun] at ht
    rw [exec_of_not_runs (he ▸ hrun)] at hv
    cases ht
    cases hv
    rw [eq_of_append_singleton hr (s.settle_responses i), eq_of_append_singleton hq (u.settle_responses i)]
    simp only [State.settle_engine, State.settle_lp, State.settle_hp, he, hl, hh, and_self]

end Sys2Proof.Machine
end

section
/-! SUPPORT. The operations of 40_float_arithmetic.md, one equation for each case of R66 to R71. The statements about
them are read off these equations, and the exact facts of R80 off the rounding that gives a word's value its word. -/

namespace Sys2Proof.Machine

/-! ## Classes (R63) -/

theorem class_of_isFinite {w : Word} (h : isFinite w = true) : isNaN w = false ∧ isInf w = false := by
  rcases class_cases w with ⟨-, -, hf⟩ | ⟨-, -, hf⟩ | ⟨hn, hi, -⟩
  · simp [hf] at h
  · simp [hf] at h
  · exact ⟨hn, hi⟩

theorem class_of_isInf {w : Word} (h : isInf w = true) : isNaN w = false ∧ isZero w = false := by
  simp only [← Bool.not_eq_true, isNaN_iff, isZero_iff]
  rw [isInf_iff] at h
  omega

/-- A word that is no NaN is an infinity, a zero, or finite and not zero (R63). -/
theorem cases_of_not_isNaN {w : Word} (h : isNaN w = false) :
    isInf w = true ∨ isZero w = true ∨ (isFinite w = true ∧ isZero w = false) := by
  simp only [← Bool.not_eq_true, isNaN_iff, isInf_iff, isZero_iff, isFinite_iff] at *
  omega

@[simp] theorem isNaN_zeroOf (s : Bool) : isNaN (zeroOf s) = false := by cases s <;> decide
@[simp] theorem isNaN_infOf (s : Bool) : isNaN (infOf s) = false := by cases s <;> decide
@[simp] theorem isZero_zeroOf (s : Bool) : isZero (zeroOf s) = true := (isZero_iff _).2 (magOf_zeroOf s)

/-! ## Addition (R66) -/

section
variable {a b : Word}

theorem fadd_inf_inf (ha : isInf a = true) (hb : isInf b = true) :
    fadd a b = if signBit a = signBit b then a else nanResult .fadd a b := by
  simp [fadd, ha, hb, (class_of_isInf ha).1, (class_of_isInf hb).1]

theorem fadd_inf_left (ha : isInf a = true) (hb : isFinite b = true) : fadd a b = a := by
  simp [fadd, ha, (class_of_isInf ha).1, class_of_isFinite hb]

theorem fadd_inf_right (ha : isFinite a = true) (hb : isInf b = true) : fadd a b = b := by
  simp [fadd, hb, (class_of_isInf hb).1, class_of_isFinite ha]

theorem fadd_zero_zero (ha : isZero a = true) (hb : isZero b = true) :
    fadd a b = if signBit a = signBit b then a else PZERO := by
  simp [fadd, ha, hb, class_of_isFinite (isFinite_of_isZero ha), class_of_isFinite (isFinite_of_isZero hb)]

theorem fadd_finite (ha : isFinite a = true) (hb : isFinite b = true) (hz : ¬(isZero a = true ∧ isZero b = true)) :
    fadd a b = rn32 (val a + val b) false := by
  simp [fadd, class_of_isFinite ha, class_of_isFinite hb, hz]

theorem fadd_comm (h : isNaN (fadd a b) = false) : fadd a b = fadd b a := by
  rcases class_cases a with ⟨ha, -, -⟩ | ⟨-, ha, -⟩ | ⟨-, -, ha⟩
  · simp [fadd_nan a b (.inl ha)] at h
  all_goals rcases class_cases b with ⟨hb, -, -⟩ | ⟨-, hb, -⟩ | ⟨-, -, hb⟩
  · simp [fadd_nan a b (.inr hb)] at h
  · have hs : signBit a = signBit b := by
      by_contra hs
      simp [fadd_inf_inf ha hb, hs] at h
    rw [eq_infOf ha, eq_infOf hb, hs]
  · rw [fadd_inf_left ha hb, fadd_inf_right hb ha]
  · simp [fadd_nan a b (.inr hb)] at h
  · rw [fadd_inf_right ha hb, fadd_inf_left hb ha]
  · by_cases hz : isZero a = true ∧ isZero b = true
    · obtain ⟨hza, hzb⟩ := hz
      rw [fadd_zero_zero hza hzb, fadd_zero_zero hzb hza]
      by_cases hs : signBit a = signBit b
      · rw [if_pos hs, if_pos hs.symm, eq_zeroOf hza, eq_zeroOf hzb, hs]
      · rw [if_neg hs, if_neg (Ne.symm hs)]
    · rw [fadd_finite ha hb hz, fadd_finite hb ha (fun h => hz h.symm), add_comm]

/-- The only NaN that an addition gives is the parameter's (R74). -/
theorem fadd_not_nan_or (a b : Word) : isNaN (fadd a b) = false ∨ fadd a b = nanResult .fadd a b := by
  rcases class_cases a with ⟨ha, -, -⟩ | ⟨hna, ha, -⟩ | ⟨-, -, ha⟩
  · exact .inr (fadd_nan a b (.inl ha))
  all_goals rcases class_cases b with ⟨hb, -, -⟩ | ⟨hnb, hb, -⟩ | ⟨-, -, hb⟩
  · exact .inr (fadd_nan a b (.inr hb))
  · rw [fadd_inf_inf ha hb]
    split
    · exact .inl hna
    · exact .inr rfl
  · exact .inl (by rw [fadd_inf_left ha hb, hna])
  · exact .inr (fadd_nan a b (.inr hb))
  · exact .inl (by rw [fadd_inf_right ha hb, hnb])
  · by_cases hz : isZero a = true ∧ isZero b = true
    · rw [fadd_zero_zero hz.1 hz.2]
      split
      · exact .inl (class_of_isFinite ha).1
      · exact .inl (by decide)
    · exact .inl (by rw [fadd_finite ha hb hz, isNaN_rn32])

/-! ## Subtraction (R67) -/

theorem fsub_nan (h : isNaN a = true ∨ isNaN b = true) : fsub a b = nanResult .fsub a b := by
  simp [fsub, h]

theorem fsub_eq_fadd (ha : isNaN a = false) (hb : isNaN b = false) : fsub a b = fadd a (fneg b) := by
  simp [fsub, ha, hb]

/-! ## Multiplication (R68) -/

theorem fmul_nan (h : isNaN a = true ∨ isNaN b = true) : fmul a b = nanResult .fmul a b := by
  simp [fmul, h]

theorem fmul_invalid (h : (isInf a = true ∧ isZero b = true) ∨ (isZero a = true ∧ isInf b = true)) :
    fmul a b = nanResult .fmul a b := by
  simp [fmul, h]

theorem fmul_inf_left (ha : isInf a = true) (hb : isNaN b = false) (hz : isZero b = false) :
    fmul a b = infOf (signXor a b) := by
  simp [fmul, ha, hb, hz, class_of_isInf ha]

theorem fmul_zero_left (ha : isZero a = true) (hb : isFinite b = true) : fmul a b = zeroOf (signXor a b) := by
  simp [fmul, ha, class_of_isFinite hb, class_of_isFinite (isFinite_of_isZero ha)]

theorem fmul_finite (ha : isFinite a = true) (hza : isZero a = false) (hb : isFinite b = true)
    (hzb : isZero b = false) : fmul a b = rn32 (val a * val b) (signXor a b) := by
  simp [fmul, hza, hzb, class_of_isFinite ha, class_of_isFinite hb]

theorem signXor_comm (a b : Word) : signXor a b = signXor b a := Bool.xor_comm _ _

/-- The only NaN that a multiplication gives is the parameter's (R74). -/
theorem fmul_not_nan_or (a b : Word) : isNaN (fmul a b) = false ∨ fmul a b = nanResult .fmul a b := by
  unfold fmul
  split_ifs
  · exact .inr rfl
  · exact .inr rfl
  · exact .inl (isNaN_infOf _)
  · exact .inl (isNaN_zeroOf _)
  · exact .inl (isNaN_rn32 _ _)

theorem fmul_inf_right (hb : isInf b = true) (ha : isNaN a = false) (hz : isZero a = false) :
    fmul a b = infOf (signXor a b) := by
  simp [fmul, ha, hb, hz, class_of_isInf hb]

theorem fmul_zero_right (hb : isZero b = true) (ha : isFinite a = true) : fmul a b = zeroOf (signXor a b) := by
  simp [fmul, hb, class_of_isFinite ha, class_of_isFinite (isFinite_of_isZero hb)]

theorem fmul_comm (h : isNaN (fmul a b) = false) : fmul a b = fmul b a := by
  have hn : ¬(isNaN a = true ∨ isNaN b = true) := fun hn => by simp [fmul_nan hn] at h
  have hi : ¬((isInf a = true ∧ isZero b = true) ∨ (isZero a = true ∧ isInf b = true)) :=
    fun hi => by simp [fmul_invalid hi] at h
  simp only [not_or, not_and, Bool.not_eq_true] at hn hi
  obtain ⟨hna, hnb⟩ := hn
  obtain ⟨hiz, hzi⟩ := hi
  rcases cases_of_not_isNaN hna with ha | ha | ⟨ha, hza⟩
  · rw [fmul_inf_left ha hnb (hiz ha), fmul_inf_right ha hnb (hiz ha), signXor_comm]
  · have hb : isFinite b = true := by simpa [hnb, hzi ha] using class_cases b
    rw [fmul_zero_left ha hb, fmul_zero_right ha hb, signXor_comm]
  · rcases cases_of_not_isNaN hnb with hb | hb | ⟨hb, hzb⟩
    · rw [fmul_inf_right hb hna hza, fmul_inf_left hb hna hza, signXor_comm]
    · rw [fmul_zero_right hb ha, fmul_zero_left hb ha, signXor_comm]
    · rw [fmul_finite ha hza hb hzb, fmul_finite hb hzb ha hza, mul_comm, signXor_comm]

/-! ## Division (R69) -/

theorem fdiv_nan (h : isNaN a = true ∨ isNaN b = true) : fdiv a b = nanResult .fdiv a b := by
  simp [fdiv, h]

theorem fdiv_invalid (h : (isInf a = true ∧ isInf b = true) ∨ (isZero a = true ∧ isZero b = true)) :
    fdiv a b = nanResult .fdiv a b := by
  simp [fdiv, h]

theorem fdiv_inf_left (ha : isInf a = true) (hb : isFinite b = true) : fdiv a b = infOf (signXor a b) := by
  simp [fdiv, ha, class_of_isInf ha, class_of_isFinite hb]

theorem fdiv_inf_right (ha : isFinite a = true) (hb : isInf b = true) : fdiv a b = zeroOf (signXor a b) := by
  simp [fdiv, hb, class_of_isInf hb, class_of_isFinite ha]

theorem fdiv_zero_right (ha : isFinite a = true) (hz : isZero a = false) (hb : isZero b = true) :
    fdiv a b = infOf (signXor a b) := by
  simp [fdiv, hz, hb, class_of_isFinite ha, class_of_isFinite (isFinite_of_isZero hb)]

theorem fdiv_zero_left (ha : isZero a = true) (hb : isFinite b = true) (hz : isZero b = false) :
    fdiv a b = zeroOf (signXor a b) := by
  simp [fdiv, hz, ha, class_of_isFinite hb, class_of_isFinite (isFinite_of_isZero ha)]

theorem fdiv_finite (ha : isFinite a = true) (hza : isZero a = false) (hb : isFinite b = true)
    (hzb : isZero b = false) : fdiv a b = rn32 (val a / val b) (signXor a b) := by
  simp [fdiv, hza, hzb, class_of_isFinite ha, class_of_isFinite hb]

/-- The only NaN that a division gives is the parameter's (R74). -/
theorem fdiv_not_nan_or (a b : Word) : isNaN (fdiv a b) = false ∨ fdiv a b = nanResult .fdiv a b := by
  unfold fdiv
  split_ifs
  · exact .inr rfl
  · exact .inr rfl
  · exact .inl (isNaN_infOf _)
  · exact .inl (isNaN_zeroOf _)
  · exact .inl (isNaN_infOf _)
  · exact .inl (isNaN_zeroOf _)
  · exact .inl (isNaN_rn32 _ _)

/-! ## Comparison (R71) -/

theorem flt_nan (h : isNaN a = true ∨ isNaN b = true) : flt a b = false := by
  simp [flt, h]

theorem flt_finite (ha : isFinite a = true) (hb : isFinite b = true) : flt a b = true ↔ val a < val b := by
  simp [flt, class_of_isFinite ha, class_of_isFinite hb, val_lt_iff]

theorem flt_inf_left (ha : isInf a = true) (hb : isFinite b = true) : flt a b = signBit a := by
  simp [flt, ha, class_of_isInf ha, class_of_isFinite hb]

theorem flt_inf_right (ha : isFinite a = true) (hb : isInf b = true) : flt a b = !signBit b := by
  simp [flt, hb, class_of_isInf hb, class_of_isFinite ha]

end

/-! ## The statements of the operations -/

/-- Settles O47: its clauses are the cases above. -/
theorem additionAndMultiplicationFollowTheirCases : Obligations.AdditionAndMultiplicationFollowTheirCases := by
  refine ⟨fun a b => ⟨?_, ?_, ?_, ?_, ?_, ?_, fadd_comm⟩, fun a b => ⟨?_, ?_, ?_, ?_, fmul_finite, fmul_comm⟩, ?_⟩
  · exact fun h => fadd_nan a b h ▸ isNaN_nanResult _ _ _
  · exact fun ha hb hs => (fadd_inf_inf ha hb).trans (if_pos hs)
  · intro ha hb hs
    rw [fadd_inf_inf ha hb, if_neg hs, isNaN_nanResult]
  · exact fun ha hb => ⟨fadd_inf_left ha hb, fadd_inf_right hb ha⟩
  · exact fadd_zero_zero
  · intro ha hb hz
    refine ⟨fadd_finite ha hb hz, fun h0 => ?_⟩
    rw [fadd_finite ha hb hz, h0]
    rfl
  · exact fun h => fmul_nan h ▸ isNaN_nanResult _ _ _
  · intro ha hb
    rw [fmul_invalid (.inl ⟨ha, hb⟩), fmul_invalid (.inr ⟨hb, ha⟩)]
    exact ⟨isNaN_nanResult _ _ _, isNaN_nanResult _ _ _⟩
  · exact fun ha hb hz => ⟨fmul_inf_left ha hb hz, (fmul_inf_right ha hb hz).trans (by rw [signXor_comm]; rfl)⟩
  · exact fun ha hb => ⟨fmul_zero_left ha hb, (fmul_zero_right ha hb).trans (by rw [signXor_comm]; rfl)⟩
  · decide +kernel

/-- A finite word minus itself is +0: both are zeros of different signs, or the exact difference is 0. -/
theorem fsub_self {x : Word} (hx : isFinite x = true) : fsub x x = PZERO := by
  obtain ⟨hn, -⟩ := class_of_isFinite hx
  obtain ⟨-, -, hz', hf'⟩ := fneg_class x
  rw [fsub_eq_fadd hn hn]
  cases hz : isZero x with
  | true => rw [fadd_zero_zero hz (hz'.trans hz), signBit_fneg, if_neg (by cases signBit x <;> decide)]
  | false =>
    rw [fadd_finite hx (hf'.trans hx) (by simp [hz]), val_fneg, add_neg_cancel]
    rfl

/-- Settles O48: the definition, and the exact difference of a word and itself. -/
theorem subtractionIsAdditionOfTheNegated : Obligations.SubtractionIsAdditionOfTheNegated := by
  refine ⟨fun a b h => ?_, fun x => fsub_self, fun a b => fsub_eq_fadd, by decide +kernel, ?_⟩
  · rw [fsub_nan h, isNaN_nanResult]
  · rw [fsub_eq_fadd (by decide) (by decide), fadd_inf_inf (by decide) (by decide), if_neg (by decide), isNaN_nanResult]

/-- Settles O49: its clauses are the cases above. -/
theorem divisionFollowsItsCases : Obligations.DivisionFollowsItsCases := by
  refine ⟨fun a b => ⟨?_, ?_, ?_, fdiv_inf_left, fdiv_inf_right, fdiv_zero_right, fdiv_zero_left, fdiv_finite⟩, ?_⟩
  · exact fun h => fdiv_nan h ▸ isNaN_nanResult _ _ _
  · exact fun ha hb => fdiv_invalid (.inl ⟨ha, hb⟩) ▸ isNaN_nanResult _ _ _
  · exact fun ha hb => fdiv_invalid (.inr ⟨ha, hb⟩) ▸ isNaN_nanResult _ _ _
  · decide +kernel

/-- Settles O50: its clauses are the cases above; between infinities the words are fixed. -/
theorem comparisonOrdersValuesAndInfinities : Obligations.ComparisonOrdersValuesAndInfinities := by
  refine ⟨fun a b => flt_nan, fun a b => flt_finite, fun a ha => ⟨?_, ?_, ?_, ?_⟩, by decide +kernel⟩
  · exact flt_inf_left (by decide) ha
  · exact flt_inf_right ha (by decide)
  · exact flt_inf_right ha (by decide)
  · exact flt_inf_left (by decide) ha

/-- A result that is no NaN or the parameter's is quiet where it is a NaN (R74). -/
theorem isQuietNaN_of_not_nan_or {op : FloatOp} {a b w : Word} (h : isNaN w = false ∨ w = nanResult op a b)
    (hw : isNaN w = true) : isQuietNaN w = true := by
  rcases h with h | h
  · simp [h] at hw
  · rw [h, isQuietNaN_nanResult]

theorem isQuietNaN_fsub {a b : Word} (h : isNaN (fsub a b) = true) : isQuietNaN (fsub a b) = true := by
  by_cases hn : isNaN a = true ∨ isNaN b = true
  · rw [fsub_nan hn, isQuietNaN_nanResult]
  · simp only [not_or, Bool.not_eq_true] at hn
    rw [fsub_eq_fadd hn.1 hn.2] at h ⊢
    exact isQuietNaN_of_not_nan_or (fadd_not_nan_or _ _) h

/-- Settles O51: every NaN that an operation gives is a `nanResult`. -/
theorem producedNaNsAreQuiet : Obligations.ProducedNaNsAreQuiet := by
  intro a b
  refine ⟨fun h => ?_, isQuietNaN_of_not_nan_or (fadd_not_nan_or a b), isQuietNaN_fsub,
    isQuietNaN_of_not_nan_or (fmul_not_nan_or a b), isQuietNaN_of_not_nan_or (fdiv_not_nan_or a b)⟩
  rw [fadd_nan a b h, fsub_nan h, fmul_nan h, fdiv_nan h]
  simp only [isNaN_nanResult, and_self]

end Sys2Proof.Machine
end

section
/-! SUPPORT. Exact values (R64) and the exact facts of the arithmetic (R80): a magnitude one binade up has twice the
value, and an operation whose exact result is a word's value gives that word. -/

namespace Sys2Proof.Machine

/-! ## The value of a word (R64) -/

/-- The value of a word by its sign and its units (R64). -/
theorem val_eq_unitsOf (w : Word) :
    val w = (-1 : ℚ) ^ (if signBit w then 1 else 0) * unitsOf w * 2 ^ (-149 : ℤ) := by
  rw [val_eq, ← unitsOf_eq, zpow_neg, zpow_ofNat, ← div_eq_mul_inv]
  cases signBit w <;> rfl

/-- Values compare in magnitude as the 31 low bits of their words do (R64). -/
theorem abs_val_le_abs_val {v w : Word} : |val v| ≤ |val w| ↔ magOf v ≤ magOf w := by
  rw [abs_val, abs_val, div_le_div_iff_of_pos_right (by positivity), Nat.cast_le, magUnits_strictMono.le_iff_le]

/-- Settles O44: the values of the fixed words bound those of all others because the magnitudes do. -/
theorem valueOfAFiniteWord : Obligations.ValueOfAFiniteWord := by
  have hmax : val 0x7F7FFFFF = (2 - 2 ^ (-23 : ℤ)) * 2 ^ 127 := by decide +kernel
  have hnormal : val 0x00800000 = 2 ^ (-126 : ℤ) := by decide +kernel
  have hsmall : val 0x00000001 = 2 ^ (-149 : ℤ) := by decide +kernel
  refine ⟨fun w he => ?_, fun w h1 h2 => ?_, hmax, fun w hw => ?_, hnormal, fun w h1 h2 hpos => ?_, hsmall,
    fun w hw hpos => ?_, by decide +kernel, by decide +kernel⟩
  · rw [val_eq_unitsOf, unitsOf, if_pos he]
  · have hexp : (expField w : ℤ) - 150 = (expField w - 1 : ℕ) + (-149) := by omega
    rw [val_eq_unitsOf, unitsOf, if_neg (show expField w ≠ 0 by omega), hexp, zpow_add₀ two_ne_zero, zpow_natCast]
    push_cast
    ring
  · have h := abs_val_le_abs_val.2 (show magOf w ≤ magOf 0x7F7FFFFF from Nat.le_of_lt_succ ((isFinite_iff w).1 hw))
    exact (le_abs_self _).trans (h.trans_eq (abs_of_nonneg (by decide +kernel)))
  · rw [expField_eq] at h1
    have h := abs_val_le_abs_val.2 (show magOf 0x00800000 ≤ magOf w from by
      rw [show magOf 0x00800000 = 2 ^ 23 from rfl]; omega)
    exact (le_abs_self _).trans (h.trans_eq (abs_of_pos hpos))
  · have hz : magOf w ≠ 0 := fun hz => hpos.ne' (val_zero_of_isZero ((isZero_iff w).2 hz))
    have h := abs_val_le_abs_val.2 (show magOf 0x00000001 ≤ magOf w from Nat.pos_of_ne_zero hz)
    exact (le_abs_self _).trans (h.trans_eq (abs_of_pos hpos))

/-! ## Doubling and halving (R80 E1, E2) -/

theorem magUnits_of_lt {m : ℕ} (h : m < 2 ^ 24) : magUnits m = m := by
  rcases Nat.lt_or_ge m (2 ^ 23) with h' | h'
  · exact magUnits_small h'
  · simpa using magUnits_binade (sh := 0) h' h.le

/-- One binade up the value doubles (R64). -/
theorem magUnits_add_binade {m : ℕ} (h : 2 ^ 23 ≤ m) : magUnits (m + 2 ^ 23) = 2 * magUnits m := by
  obtain ⟨n, sh, hm, hu, hn, hsh⟩ := magUnits_eq m
  have h23 : 2 ^ 23 ≤ n := by omega
  rw [hu, show m + 2 ^ 23 = n + (sh + 1) * 2 ^ 23 by omega, magUnits_binade h23 hn.le, pow_succ]
  ring

/-- Twice the value of a magnitude is the value of another, as long as the exponent is not bounded. -/
theorem exists_magUnits_double (m : ℕ) : ∃ k, magUnits k = 2 * magUnits m := by
  rcases Nat.lt_or_ge m (2 ^ 23) with h | h
  · exact ⟨2 * m, by rw [magUnits_of_lt (by omega), magUnits_of_lt (by omega)]⟩
  · exact ⟨_, magUnits_add_binade h⟩

theorem val_double {v w : Word} (hs : signBit v = signBit w) (hu : magUnits (magOf v) = 2 * magUnits (magOf w)) :
    val v = 2 * val w := by
  rw [val_eq, val_eq, hs, hu]
  push_cast
  ring

/-- Below 2^127 twice the value of a word is the value of a word of its sign. -/
theorem exists_val_double {a : Word} (hlt : |val a| < 2 ^ 127) : ∃ w, isFinite w = true ∧ val w = 2 * val a := by
  obtain ⟨k, hk⟩ := exists_magUnits_double (magOf a)
  rw [abs_val, div_lt_iff₀ (by positivity)] at hlt
  have hlt' : magUnits (magOf a) < 2 ^ 127 * 2 ^ 149 := by exact_mod_cast hlt
  have hkf : k < 0x7F800000 := by
    rw [← magUnits_strictMono.lt_iff_lt, hk, show magUnits 0x7F800000 = 2 ^ 23 * 2 ^ 254 from rfl]
    omega
  obtain ⟨w, hs, rfl⟩ := exists_word (signBit a) hkf
  exact ⟨w, (isFinite_iff w).2 hkf, val_double hs hk⟩

/-- From biased exponent 2 on half the value of a word is the value of a word. -/
theorem exists_val_half {a : Word} (h2 : 2 ≤ expField a) (hf : isFinite a = true) :
    ∃ w, isFinite w = true ∧ val w = val a / 2 := by
  rw [expField_eq] at h2
  rw [isFinite_iff] at hf
  obtain ⟨w, hs, hm⟩ := exists_word (signBit a) (show magOf a - 2 ^ 23 < 0x7F800000 by omega)
  have hd := magUnits_add_binade (m := magOf w) (by omega)
  rw [hm, Nat.sub_add_cancel (by omega), ← hm] at hd
  exact ⟨w, (isFinite_iff w).2 (by omega), by rw [val_double hs.symm hd]; ring⟩

/-! ## Exact results -/

theorem val_TWO : val TWO = 2 := by decide +kernel
theorem val_ONE : val ONE = 1 := by decide +kernel
theorem val_HALF : val 0x3F000000 = 1 / 2 := by decide +kernel

/-- The rounding of a value that is not 0 and that some word has is a word of that value (R65). -/
theorem val_rn32_val {w : Word} (zs : Bool) (hf : isFinite w = true) (h0 : val w ≠ 0) :
    isFinite (rn32 (val w) zs) = true ∧ val (rn32 (val w) zs) = val w := by
  have hz : isZero w = false := by
    rw [← Bool.not_eq_true]
    exact fun hz => h0 (val_zero_of_isZero hz)
  rw [roundingIsExactOnWords w zs hf hz]
  exact ⟨hf, rfl⟩

/-- The products with `TWO` of finite words that are no zeros (R68). -/
theorem fmul_TWO {a : Word} (hf : isFinite a = true) (hz : isZero a = false) :
    fmul TWO a = rn32 (2 * val a) (signXor TWO a) := by
  rw [fmul_finite (by decide) (by decide) hf hz, val_TWO]

/-- R80 E1: below 2^127. -/
theorem fmul_TWO_exact {a : Word} (hf : isFinite a = true) (hlt : |val a| < 2 ^ 127) :
    isFinite (fmul TWO a) = true ∧ val (fmul TWO a) = 2 * val a := by
  cases hz : isZero a with
  | true =>
    rw [fmul_zero_right hz (by decide), val_zero_of_isZero hz, val_zero_of_isZero (isZero_zeroOf _), mul_zero]
    exact ⟨isFinite_of_isZero (isZero_zeroOf _), rfl⟩
  | false =>
    obtain ⟨w, hwf, hw⟩ := exists_val_double hlt
    rw [fmul_TWO hf hz, ← hw]
    exact val_rn32_val _ hwf (hw ▸ mul_ne_zero two_ne_zero (val_ne_zero hz))

/-- R80 E1: from 2^127 on. -/
theorem fmul_TWO_overflow {a : Word} (hf : isFinite a = true) (hle : (2 : ℚ) ^ 127 ≤ |val a|) :
    fmul TWO a = infOf (signBit a) := by
  have hz : isZero a = false := by
    rw [← Bool.not_eq_true]
    intro hz
    norm_num [val_zero_of_isZero hz] at hle
  have hb : (2 - 2 ^ (-24 : ℤ)) * 2 ^ 127 ≤ |2 * val a| := by
    rw [abs_mul, abs_of_pos (two_pos : (0 : ℚ) < 2)]
    refine le_trans ?_ (mul_le_mul_of_nonneg_left hle two_pos.le)
    norm_num
  have hs : decide (2 * val a < 0) = signBit a := by
    rw [Bool.eq_iff_iff, decide_eq_true_iff, ← val_lt_zero_iff hz]
    constructor <;> intro h <;> linarith
  rw [fmul_TWO hf hz, roundingIsToNearestTiesToEven.2.1 _ _ hb, hs]

/-- R80 E2, where the halving is exact. -/
theorem fdiv_TWO_exact {a : Word} (h2 : 2 ≤ expField a) (h254 : expField a ≤ 254) : val (fdiv a TWO) = val a / 2 := by
  have hf : isFinite a = true := by rw [isFinite, bne_iff_ne]; omega
  have hz : isZero a = false := by
    rw [← Bool.not_eq_true, isZero_iff]
    rw [expField_eq] at h2
    omega
  obtain ⟨w, hwf, hw⟩ := exists_val_half h2 hf
  rw [fdiv_finite hf hz (by decide) (by decide), val_TWO, ← hw]
  exact (val_rn32_val _ hwf (hw ▸ div_ne_zero (val_ne_zero hz) two_ne_zero)).2

/-- R80 E3: adding a zero to a word that is none. -/
theorem fadd_zero_right {x z : Word} (hx : isNaN x = false) (hxz : isZero x = false) (hz : isZero z = true) :
    fadd x z = x := by
  have hzf := isFinite_of_isZero hz
  rcases cases_of_not_isNaN hx with hi | h | ⟨hf, -⟩
  · exact fadd_inf_left hi hzf
  · simp [h] at hxz
  · rw [fadd_finite hf hzf (by simp [hxz]), val_zero_of_isZero hz, add_zero, roundingIsExactOnWords x _ hf hxz]

/-- The two zeros (R63). -/
theorem eq_zero_words {x : Word} (hz : isZero x = true) : x = PZERO ∨ x = 0x80000000 := by
  rw [eq_zeroOf hz]
  cases signBit x
  · exact .inl rfl
  · exact .inr rfl

/-- R80 E3: the sum with −0 of every word that is no NaN. -/
theorem fadd_negative_zero {x : Word} (hx : isNaN x = false) : fadd x 0x80000000 = x := by
  cases hz : isZero x with
  | true => rcases eq_zero_words hz with rfl | rfl <;> decide +kernel
  | false => exact fadd_zero_right hx hz (by decide)

/-- R80 E3: the sum with +0 of every word that is no NaN and not −0. -/
theorem fadd_PZERO {x : Word} (hx : isNaN x = false) (hne : x ≠ 0x80000000) : fadd x PZERO = x := by
  cases hz : isZero x with
  | true =>
    rw [(eq_zero_words hz).resolve_right hne]
    decide +kernel
  | false => exact fadd_zero_right hx hz (by decide)

/-- R80 E5. -/
theorem fmul_ONE {a : Word} (ha : isNaN a = false) : fmul a ONE = a := by
  have hs : signXor a ONE = signBit a := Bool.xor_false _
  rcases cases_of_not_isNaN ha with hi | hz | ⟨hf, hz⟩
  · rw [fmul_inf_left hi (by decide) (by decide), hs, ← eq_infOf hi]
  · rw [fmul_zero_left hz (by decide), hs, ← eq_zeroOf hz]
  · rw [fmul_finite hf hz (by decide) (by decide), val_ONE, mul_one, roundingIsExactOnWords a _ hf hz]

/-- R80 E6. -/
theorem fdiv_TWO_eq_fmul_half {a : Word} (ha : isNaN a = false) : fdiv a TWO = fmul a 0x3F000000 := by
  have hs : signXor a TWO = signXor a 0x3F000000 := rfl
  rcases cases_of_not_isNaN ha with hi | hz | ⟨hf, hz⟩
  · rw [fdiv_inf_left hi (by decide), fmul_inf_left hi (by decide) (by decide), hs]
  · rw [fdiv_zero_left hz (by decide) (by decide), fmul_zero_left hz (by decide), hs]
  · rw [fdiv_finite hf hz (by decide) (by decide), fmul_finite hf hz (by decide) (by decide), val_TWO, val_HALF, hs,
      mul_one_div]

/-- Settles O52: each of E1 to E6 is a lemma above. -/
theorem exactFactsOfTheArithmetic : Obligations.ExactFactsOfTheArithmetic := by
  refine ⟨fun a => fmul_TWO_exact, fun a => fmul_TWO_overflow, fun a => fdiv_TWO_exact, fun x hx hne => ?_,
    by decide +kernel, fun x hx => ?_, fun x hx hne => ?_, by decide +kernel, fun a z ha hz => ?_, fun a => fmul_ONE,
    fun a => fdiv_TWO_eq_fmul_half⟩
  · rw [← fadd_comm (by rw [fadd_PZERO hx hne, hx]), fadd_PZERO hx hne]
  · exact (fsub_eq_fadd hx (by decide)).trans (fadd_negative_zero hx)
  · exact (fsub_eq_fadd hx (by decide)).trans (fadd_PZERO hx hne)
  · rw [fmul_zero_right hz ha, isZero_zeroOf]

end Sys2Proof.Machine
end

section
/-! SUPPORT. The coefficient calculator (41_coefficient_calculator.md). Rounding keeps a bound that is a word's value
(R65), so the bounds that hold of the exact results of a line of R85 or R86 hold of the line itself. -/

namespace Sys2Proof.Machine

/-! ## Rounding keeps a bound that is a word (R65) -/

/-- Below the overflow bound a rounding is finite (R65 b, c). -/
theorem isFinite_rn32 {q : ℚ} (zs : Bool) (hb : |q| < overflowBound) : isFinite (rn32 q zs) = true := by
  rcases eq_or_ne q 0 with rfl | h0
  · exact isFinite_of_isZero (isZero_zeroOf zs)
  · exact (roundingIsToNearestTiesToEven.2.2 q zs h0 (by rwa [overflowBound_eq])).1

/-- No finite word is nearer than a finite rounding (R65 c). -/
theorem abs_sub_val_rn32_le {q : ℚ} {zs : Bool} (hf : isFinite (rn32 q zs) = true) {v : Word}
    (hv : isFinite v = true) : |q - val (rn32 q zs)| ≤ |q - val v| := by
  rcases eq_or_ne q 0 with rfl | h0
  · rw [show rn32 0 zs = zeroOf zs from rfl, val_zero_of_isZero (isZero_zeroOf zs), sub_zero, abs_zero]
    exact abs_nonneg _
  · rcases lt_or_ge |q| ((2 - 2 ^ (-24 : ℤ)) * 2 ^ 127) with hb | hb
    · exact (roundingIsToNearestTiesToEven.2.2 q zs h0 hb).2.2.1 v hv
    · rw [roundingIsToNearestTiesToEven.2.1 q zs hb, isFinite_iff, magOf_infOf] at hf
      exact absurd hf (lt_irrefl _)

/-- A word below an exact result is below its rounding: it would be nearer otherwise. -/
theorem val_le_val_rn32 {q : ℚ} {zs : Bool} {v : Word} (hv : isFinite v = true) (h : val v ≤ q)
    (hf : isFinite (rn32 q zs) = true) : val v ≤ val (rn32 q zs) := by
  by_contra hlt
  have hnear := abs_sub_val_rn32_le hf hv
  rw [abs_of_nonneg (by linarith), abs_of_nonneg (by linarith)] at hnear
  linarith

/-- A word above an exact result is above its rounding. -/
theorem val_rn32_le_val {q : ℚ} {zs : Bool} {v : Word} (hv : isFinite v = true) (h : q ≤ val v)
    (hf : isFinite (rn32 q zs) = true) : val (rn32 q zs) ≤ val v := by
  by_contra hlt
  have hnear := abs_sub_val_rn32_le hf hv
  rw [abs_of_nonpos (by linarith), abs_of_nonpos (by linarith)] at hnear
  linarith

/-! ## Positive words -/

theorem val_PZERO : val PZERO = 0 := val_zero_of_isZero (by decide)

/-- The value of a finite word is positive where it is no zero and has no sign (R63, R64). -/
theorem val_pos_iff (w : Word) : 0 < val w ↔ isZero w = false ∧ signBit w = false := by
  cases hz : isZero w with
  | true => simp [val_zero_of_isZero hz]
  | false => rw [← (val_ne_zero hz).symm.le_iff_lt, ← not_lt, val_lt_zero_iff hz]; simp

theorem val_nonneg {w : Word} (hs : signBit w = false) : 0 ≤ val w := by
  cases hz : isZero w with
  | true => exact (val_zero_of_isZero hz).ge
  | false => exact ((val_pos_iff w).2 ⟨hz, hs⟩).le

/-- The first comparison of the frequency check (R71, R82). -/
theorem flt_PZERO_iff (w : Word) : flt PZERO w = true ↔ isNaN w = false ∧ isZero w = false ∧ signBit w = false := by
  rcases class_cases w with ⟨hn, -, -⟩ | ⟨hn, hi, -⟩ | ⟨hn, -, hf⟩
  · simp [flt_nan (.inr hn), hn]
  · rw [flt_inf_right (show isFinite PZERO = true by decide) hi]
    simp [hn, class_of_isInf hi]
  · rw [flt_finite (by decide) hf, val_PZERO, val_pos_iff]
    simp [hn]

/-! ## The frequency check (R82) -/

theorem validFreq_iff (fc fs : Word) :
    validFreq fc fs = true ↔ flt PZERO fc = true ∧ flt fc (fdiv fs TWO) = true := by
  rw [validFreq, Bool.and_eq_true]

theorem isFinite_fdiv_TWO {a : Word} (hf : isFinite a = true) : isFinite (fdiv a TWO) = true := by
  cases hz : isZero a with
  | true =>
    rw [fdiv_zero_left hz (by decide) (by decide)]
    exact isFinite_of_isZero (isZero_zeroOf _)
  | false =>
    rw [fdiv_finite hf hz (by decide) (by decide), val_TWO]
    refine isFinite_rn32 _ (lt_of_le_of_lt ?_ (abs_val_lt_overflowBound hf))
    rw [abs_div, abs_two]
    exact half_le_self (abs_nonneg _)

/-- What is above a positive word is positive, and the word is finite (R71). -/
theorem flt_of_pos {a b : Word} (ha : flt PZERO a = true) (hab : flt a b = true) :
    isFinite a = true ∧ flt PZERO b = true := by
  obtain ⟨hna, hza, hsa⟩ := (flt_PZERO_iff a).1 ha
  have hnb : isNaN b = false := by
    rw [← Bool.not_eq_true]
    intro hn
    simp [flt_nan (.inr hn)] at hab
  have hfa : isFinite a = true := by
    rcases cases_of_not_isNaN hna with hi | hz | ⟨hf, -⟩
    · simp [flt, hna, hnb, hi, hsa] at hab
    · simp [hz] at hza
    · exact hf
  refine ⟨hfa, ?_⟩
  rcases class_cases b with ⟨hn, -, -⟩ | ⟨-, hi, -⟩ | ⟨-, -, hf⟩
  · simp [hn] at hnb
  · rw [flt_inf_right hfa hi] at hab
    rwa [flt_inf_right (by decide) hi]
  · rw [flt_finite hfa hf] at hab
    rw [flt_finite (by decide) hf, val_PZERO]
    exact (val_nonneg hsa).trans_lt hab

/-- A positive half is that of a positive word: otherwise the half is a NaN, a zero or negative (R69). -/
theorem flt_PZERO_of_half {a : Word} (h : flt PZERO (fdiv a TWO) = true) : flt PZERO a = true := by
  obtain ⟨hn, hz, hs⟩ := (flt_PZERO_iff _).1 h
  have hsign : signXor a TWO = signBit a := Bool.xor_false _
  rw [flt_PZERO_iff]
  rcases class_cases a with ⟨hna, -, -⟩ | ⟨hna, hi, -⟩ | ⟨hna, -, hf⟩
  · simp [fdiv_nan (.inl hna)] at hn
  · rw [fdiv_inf_left hi (by decide), signBit_infOf, hsign] at hs
    exact ⟨hna, (class_of_isInf hi).2, hs⟩
  · cases hza : isZero a with
    | true => simp [fdiv_zero_left hza (show isFinite TWO = true by decide) (by decide)] at hz
    | false =>
      rw [fdiv_finite hf hza (by decide) (by decide), val_TWO,
        signBit_rn32 (div_ne_zero (val_ne_zero hza) two_ne_zero), decide_eq_false_iff_not, not_lt] at hs
      refine ⟨hna, rfl, ((val_pos_iff a).1 (lt_of_le_of_ne ?_ (val_ne_zero hza).symm)).2⟩
      linarith

/-- Operands that pass the check are positive, the crossover frequency finite too (R82). -/
theorem operands_of_validFreq {fc fs : Word} (h : validFreq fc fs = true) :
    isFinite fc = true ∧ flt PZERO fc = true ∧ flt PZERO fs = true := by
  obtain ⟨h0, hlt⟩ := (validFreq_iff fc fs).1 h
  obtain ⟨hf, hhalf⟩ := flt_of_pos h0 hlt
  exact ⟨hf, h0, flt_PZERO_of_half hhalf⟩

/-- Settles O54: where the half of `fs` is exact both comparisons are of values, and operands that pass the check are
positive. -/
theorem frequencyCheckMeansStrictlyInsideTheRange : Obligations.FrequencyCheckMeansStrictlyInsideTheRange := by
  refine ⟨validFreq_iff, fun fc fs hf h2 h254 => ?_, fun fc fs hbad => ?_, fun fc hf hz hs => ?_⟩
  · have hfs : isFinite fs = true := by rw [isFinite, bne_iff_ne]; omega
    rw [validFreq_iff, flt_finite (by decide) hf, flt_finite hf (isFinite_fdiv_TWO hfs), val_PZERO,
      fdiv_TWO_exact h2 h254]
  · by_contra hv
    rw [Bool.not_eq_false] at hv
    obtain ⟨hf, hfc, hfs⟩ := operands_of_validFreq hv
    obtain ⟨hnc, hzc, hsc⟩ := (flt_PZERO_iff fc).1 hfc
    obtain ⟨hns, hzs, hss⟩ := (flt_PZERO_iff fs).1 hfs
    simp [hnc, hzc, hsc, hns, hzs, hss, class_of_isFinite hf] at hbad
  · rw [validFreq_iff, flt_PZERO_iff, fdiv_inf_left (by decide) (by decide), flt_inf_right hf (by decide)]
    exact ⟨⟨(class_of_isFinite hf).1, hz, hs⟩, rfl⟩

/-! ## The structure of the coefficients (R84 to R87, R89) -/

/-- Settles O55: the lines are those of the definitions; the doubled coefficient is exact by R80 E1. -/
theorem coefficientsHaveTheStructureOfTheRule : Obligations.CoefficientsHaveTheStructureOfTheRule := by
  refine ⟨fun fc fs => ⟨rfl, rfl⟩, ?_, ?_, fun t => ⟨rfl, rfl, rfl, rfl⟩, fun fc fs fc' fs' hw => ?_,
    fun t hf hlt => (fmul_TWO_exact hf hlt).2, fun t hf hlt => ?_⟩
  · rintro t c a0 rfl rfl
    rfl
  · rintro t a0 rfl
    rfl
  · rw [calcLp, calcHp, hw]
    exact ⟨rfl, rfl⟩
  · rw [show (highpassOf t).a1 = fneg (fmul TWO (highpassOf t).a0) from rfl, val_fneg, (fmul_TWO_exact hf hlt).2,
      neg_mul]

/-! ## The gain coefficient for a positive tangent (R89 P3) -/

/-- `w` is the infinity without sign, or a finite word without sign whose value is at least that of `v`. -/
structure AtLeast (v w : Word) : Prop where
  notNaN : isNaN w = false
  sign : signBit w = false
  le : isFinite w = true → val v ≤ val w

theorem atLeast_PZERO {w : Word} (hn : isNaN w = false) (hs : signBit w = false) : AtLeast PZERO w :=
  ⟨hn, hs, fun _ => val_PZERO.trans_le (val_nonneg hs)⟩

theorem atLeast_rn32 {v : Word} {q : ℚ} (zs : Bool) (hv : isFinite v = true) (hq : 0 < q) (h : val v ≤ q) :
    AtLeast v (rn32 q zs) :=
  ⟨isNaN_rn32 q zs, by rw [signBit_rn32 hq.ne', decide_eq_false hq.not_gt], val_le_val_rn32 hv h⟩

/-- A product of words without sign has no sign, where it is none of infinity and zero (R68). -/
theorem atLeast_fmul {a b : Word} (ha : AtLeast PZERO a) (hb : AtLeast PZERO b)
    (hiz : isInf a = true → isZero b = false) (hzi : isZero a = true → isInf b = false) :
    AtLeast PZERO (fmul a b) := by
  have hs : signXor a b = false := by rw [signXor, ha.sign, hb.sign]; rfl
  rcases cases_of_not_isNaN ha.notNaN with hi | hz | ⟨hf, hz⟩
  · rw [fmul_inf_left hi hb.notNaN (hiz hi), hs]
    exact atLeast_PZERO (by decide) (by decide)
  · have hbf : isFinite b = true := by simpa [hb.notNaN, hzi hz] using class_cases b
    rw [fmul_zero_left hz hbf, hs]
    exact atLeast_PZERO (by decide) (by decide)
  · rcases cases_of_not_isNaN hb.notNaN with hi | hzb | ⟨hbf, hzb⟩
    · rw [fmul_inf_right hi ha.notNaN hz, hs]
      exact atLeast_PZERO (by decide) (by decide)
    · rw [fmul_zero_right hzb hf, hs]
      exact atLeast_PZERO (by decide) (by decide)
    · have hpos : 0 < val a * val b :=
        mul_pos ((val_pos_iff a).2 ⟨hz, ha.sign⟩) ((val_pos_iff b).2 ⟨hzb, hb.sign⟩)
      rw [fmul_finite hf hz hbf hzb]
      exact atLeast_rn32 _ (by decide) hpos (val_PZERO.trans_le hpos.le)

/-- Adding a word without sign keeps a lower bound (R66). -/
theorem atLeast_fadd {v a b : Word} (hv : isFinite v = true) (hpos : 0 < val v) (ha : AtLeast v a)
    (hb : AtLeast PZERO b) : AtLeast v (fadd a b) := by
  have hs : signBit a = signBit b := ha.sign.trans hb.sign.symm
  rcases class_cases a with ⟨h, -, -⟩ | ⟨-, hai, -⟩ | ⟨-, -, haf⟩
  · simp [ha.notNaN] at h
  · rcases class_cases b with ⟨h, -, -⟩ | ⟨-, hbi, -⟩ | ⟨-, -, hbf⟩
    · simp [hb.notNaN] at h
    · rwa [fadd_inf_inf hai hbi, if_pos hs]
    · rwa [fadd_inf_left hai hbf]
  · rcases class_cases b with ⟨h, -, -⟩ | ⟨-, hbi, hbf⟩ | ⟨-, -, hbf⟩
    · simp [hb.notNaN] at h
    · rw [fadd_inf_right haf hbi]
      exact ⟨hb.notNaN, hb.sign, fun h => by simp [hbf] at h⟩
    · have hle := ha.le haf
      have hb0 := val_nonneg hb.sign
      have hz : isZero a = false := ((val_pos_iff a).1 (hpos.trans_le hle)).1
      rw [fadd_finite haf hbf (by simp [hz])]
      exact atLeast_rn32 _ hv (by linarith) (by linarith)

/-- The reciprocal of a word that is at least 1 lies in [+0, 1]: +0 where the word is the infinity (R69). -/
theorem fdiv_ONE_of_atLeast {d : Word} (hd : AtLeast ONE d) :
    isFinite (fdiv ONE d) = true ∧ signBit (fdiv ONE d) = false ∧ val (fdiv ONE d) ≤ 1 := by
  have hs : signXor ONE d = false := by rw [signXor, hd.sign]; rfl
  rcases class_cases d with ⟨h, -, -⟩ | ⟨-, hi, -⟩ | ⟨-, -, hf⟩
  · simp [hd.notNaN] at h
  · rw [fdiv_inf_right (by decide) hi, hs]
    exact ⟨by decide, by decide, by decide +kernel⟩
  · have h1 : 1 ≤ val d := val_ONE ▸ hd.le hf
    have hpos : 0 < 1 / val d := by positivity
    have hle : 1 / val d ≤ 1 := (div_le_one (by linarith)).2 h1
    have hfin : isFinite (rn32 (1 / val d) false) = true := by
      refine isFinite_rn32 _ ?_
      rw [abs_of_pos hpos]
      exact hle.trans_lt (by norm_num [overflowBound])
    rw [fdiv_finite (by decide) (by decide) hf ((val_pos_iff d).1 (by linarith)).1, val_ONE, hs]
    refine ⟨hfin, by rw [signBit_rn32 hpos.ne', decide_eq_false hpos.not_gt], ?_⟩
    exact (val_rn32_le_val (v := ONE) (by decide) (hle.trans_eq val_ONE.symm) hfin).trans_eq val_ONE

/-- The lines `d` of R85 and R86. -/
def denominatorOf (c : Word) : Word := fadd (fadd ONE (fmul SQRT2_32 c)) (fmul c c)

theorem lowpassOf_a0 (t : Word) : (lowpassOf t).a0 = fdiv ONE (denominatorOf (fdiv ONE t)) := rfl
theorem highpassOf_a0 (t : Word) : (highpassOf t).a0 = fdiv ONE (denominatorOf t) := rfl

theorem atLeast_denominatorOf {c : Word} (hc : AtLeast PZERO c) : AtLeast ONE (denominatorOf c) := by
  have h1 : 0 < val ONE := val_ONE ▸ one_pos
  have ht1 : AtLeast PZERO (fmul SQRT2_32 c) :=
    atLeast_fmul (atLeast_PZERO (by decide) (by decide)) hc (fun h => absurd h (by decide))
      (fun h => absurd h (by decide))
  have ht2 : AtLeast PZERO (fmul c c) :=
    atLeast_fmul hc hc (fun h => (class_of_isInf h).2) (fun h => (class_of_isFinite (isFinite_of_isZero h)).2)
  exact atLeast_fadd (by decide) h1 (atLeast_fadd (by decide) h1 ⟨by decide, by decide, fun _ => le_rfl⟩ ht1) ht2

/-- Settles O56: the tangent and its reciprocal are no NaN and have no sign, so that `d` is at least 1. -/
theorem gainCoefficientLiesBetweenZeroAndOne : Obligations.GainCoefficientLiesBetweenZeroAndOne := by
  intro t hf hz hs
  have hpos : 0 < 1 / val t := one_div_pos.2 ((val_pos_iff t).2 ⟨hz, hs⟩)
  have hc : AtLeast PZERO (fdiv ONE t) := by
    rw [fdiv_finite (by decide) (by decide) hf hz, val_ONE]
    exact atLeast_rn32 _ (by decide) hpos (val_PZERO.trans_le hpos.le)
  rw [lowpassOf_a0, highpassOf_a0]
  exact ⟨fdiv_ONE_of_atLeast (atLeast_denominatorOf hc),
    fdiv_ONE_of_atLeast (atLeast_denominatorOf (atLeast_PZERO (class_of_isFinite hf).1 hs))⟩

/-! ## The source's tolerance (R88) -/

/-- `w` is finite and its value lies between the positive value of `lo` and that of `hi`. -/
structure Within (lo hi w : Word) : Prop where
  finite : isFinite w = true
  pos : 0 < val lo
  lower : val lo ≤ val w
  upper : val w ≤ val hi

theorem Within.val_pos {lo hi w : Word} (h : Within lo hi w) : 0 < val w := h.pos.trans_le h.lower
theorem Within.isZero {lo hi w : Word} (h : Within lo hi w) : isZero w = false := ((val_pos_iff w).1 h.val_pos).1

/-- An exact result between two words is rounded to a word between them. -/
theorem within_rn32 {lo hi : Word} {q : ℚ} (zs : Bool)
    (hbounds : isFinite lo = true ∧ isFinite hi = true ∧ 0 < val lo) (hl : val lo ≤ q) (hu : q ≤ val hi) :
    Within lo hi (rn32 q zs) := by
  obtain ⟨hlo, hhi, hpos⟩ := hbounds
  have hf : isFinite (rn32 q zs) = true := by
    refine isFinite_rn32 zs (lt_of_le_of_lt ?_ (abs_val_lt_overflowBound hhi))
    exact abs_le_abs_of_nonneg (by linarith) hu
  exact ⟨hf, hpos, val_le_val_rn32 hlo hl hf, val_rn32_le_val hhi hu hf⟩

section
variable {lo hi lo₁ hi₁ lo₂ hi₂ a b : Word} (hbounds : isFinite lo = true ∧ isFinite hi = true ∧ 0 < val lo)
include hbounds

theorem within_fadd (ha : Within lo₁ hi₁ a) (hb : Within lo₂ hi₂ b) (hl : val lo ≤ val lo₁ + val lo₂)
    (hu : val hi₁ + val hi₂ ≤ val hi) : Within lo hi (fadd a b) := by
  rw [fadd_finite ha.finite hb.finite (by simp [ha.isZero])]
  exact within_rn32 _ hbounds (hl.trans (add_le_add ha.lower hb.lower)) ((add_le_add ha.upper hb.upper).trans hu)

theorem within_fmul (ha : Within lo₁ hi₁ a) (hb : Within lo₂ hi₂ b) (hl : val lo ≤ val lo₁ * val lo₂)
    (hu : val hi₁ * val hi₂ ≤ val hi) : Within lo hi (fmul a b) := by
  rw [fmul_finite ha.finite ha.isZero hb.finite hb.isZero]
  exact within_rn32 _ hbounds (hl.trans (mul_le_mul ha.lower hb.lower hb.pos.le ha.val_pos.le))
    ((mul_le_mul ha.upper hb.upper hb.val_pos.le (ha.val_pos.le.trans ha.upper)).trans hu)

theorem within_fdiv_ONE (ha : Within lo₁ hi₁ a) (hl : val lo * val hi₁ ≤ 1) (hu : 1 ≤ val hi * val lo₁) :
    Within lo hi (fdiv ONE a) := by
  have hhi0 : 0 < val hi := pos_of_mul_pos_left (one_pos.trans_le hu) ha.pos.le
  rw [fdiv_finite (by decide) (by decide) ha.finite ha.isZero, val_ONE]
  refine within_rn32 _ hbounds ((le_div_iff₀ ha.val_pos).2 ?_) ((div_le_iff₀ ha.val_pos).2 ?_)
  · exact (mul_le_mul_of_nonneg_left ha.upper hbounds.2.2.le).trans hl
  · exact hu.trans (mul_le_mul_of_nonneg_left ha.lower hhi0.le)

end

/-- The words that bound the tangent bound the reciprocal and then each line of R85 up to `d`. -/
theorem within_denominatorOf {c : Word} (hc : Within 0x41602000 0x41605000 c) :
    Within 0x43590400 0x43596400 (denominatorOf c) := by
  have hsqrt : Within SQRT2_32 SQRT2_32 SQRT2_32 := ⟨by decide, by decide +kernel, le_rfl, le_rfl⟩
  have hone : Within ONE ONE ONE := ⟨by decide, by decide +kernel, le_rfl, le_rfl⟩
  have ht1 : Within 0x419E6000 0x419EA000 (fmul SQRT2_32 c) :=
    within_fmul (by decide +kernel) hsqrt hc (by decide +kernel) (by decide +kernel)
  have ht2 : Within 0x43443800 0x43449000 (fmul c c) :=
    within_fmul (by decide +kernel) hc hc (by decide +kernel) (by decide +kernel)
  have hsum : Within 0x41A66000 0x41A6A000 (fadd ONE (fmul SQRT2_32 c)) :=
    within_fadd (by decide +kernel) hone ht1 (by decide +kernel) (by decide +kernel)
  exact within_fadd (by decide +kernel) hsum ht2 (by decide +kernel) (by decide +kernel)

/-- A tangent between the words 0.07133 and 0.071388 gives a lowpass `a0` between the words 0.0045995 and
0.0046085. -/
theorem within_lowpassOf_a0 {t : Word} (ht : Within 0x3D921577 0x3D9233DF t) :
    Within 0x3B96B767 0x3B9702E6 (lowpassOf t).a0 := by
  have hc : Within 0x41602000 0x41605000 (fdiv ONE t) :=
    within_fdiv_ONE (by decide +kernel) ht (by decide +kernel) (by decide +kernel)
  exact within_fdiv_ONE (by decide +kernel) (within_denominatorOf hc) (by decide +kernel)
    (by decide +kernel)

/-- Settles O58: the tolerances of the rule lie outside the words that bound the tangent and inside those that bound
`a0`. -/
theorem lowpassGainMeetsTheTolerance : Obligations.LowpassGainMeetsTheTolerance := by
  intro t hf ht
  have htlo : val 0x3D921577 ≤ 0.0713586809 - 0.0004 * 0.0713586809 := by decide +kernel
  have hthi : 0.0713586809 + 0.0004 * 0.0713586809 ≤ val 0x3D9233DF := by decide +kernel
  have halo : 0.0046039985 - 0.001 * 0.0046039985 ≤ val 0x3B96B767 := by decide +kernel
  have hahi : val 0x3B9702E6 ≤ 0.0046039985 + 0.001 * 0.0046039985 := by decide +kernel
  rw [abs_le] at ht ⊢
  obtain ⟨hlo, hhi⟩ := ht
  have ha := within_lowpassOf_a0 (t := t) ⟨hf, by decide +kernel, by linarith, by linarith⟩
  exact ⟨ha.finite, by linarith [ha.lower], by linarith [ha.upper]⟩

/-! ## The commands (R91, R92) -/

/-- Settles O22: each command is the one choice between the answer and the refusal. -/
theorem clpAndChpOnlyAnswer : Obligations.ClpAndChpOnlyAnswer := by
  refine ⟨fun fc fs s hv => ⟨if_pos hv, if_pos hv⟩, fun fc fs s hv => ?_⟩
  have hv' : ¬ validFreq fc fs = true := by simp [hv]
  exact ⟨if_neg hv', if_neg hv'⟩

end Sys2Proof.Machine
end

section
/-! SUPPORT. The statements of 42_biquad_iir_filter.md. Infinities and NaNs absorb sums, differences and products
(R98); zeros are kept by all of them and are neutral to a word that is no zero (R99, R100). What holds of one product
of R95 is carried through the four sums by `bqOutput_of_absorbing`, and what holds at each sample through a list of
samples by `forall_filterOutputs`. -/

namespace Sys2Proof.Machine

/-! ## The recurrence (R95, R96) -/

/-- R95 on registers that hold words. -/
theorem bqProcess_holding (c : Coeffs) (d : Delay) (x : Word) :
    bqProcess (Filter.holding c d) x = .ok (bqOutput c d x, Filter.holding c (nextDelay c d x)) :=
  bqProcess_eq_ok.2 ⟨c, d, rfl, rfl, rfl⟩

/-- Settles O39: the output and the shift are those of the definitions, and the example's output follows from its
products and partial sums. -/
theorem bqProcessFollowsTheRecurrence : Obligations.BqProcessFollowsTheRecurrence := by
  have hrec : ∀ (a0 a1 a2 b1 b2 x1 x2 y1 y2 x y : Word),
      y = fsub (fsub (fadd (fadd (fmul a0 x) (fmul a1 x1)) (fmul a2 x2)) (fmul b1 y1)) (fmul b2 y2) →
      bqProcess (Filter.holding ⟨a0, a1, a2, b1, b2⟩ ⟨x1, x2, y1, y2⟩) x =
        .ok (y, Filter.holding ⟨a0, a1, a2, b1, b2⟩ ⟨x, x1, y, y1⟩) := by
    rintro a0 a1 a2 b1 b2 x1 x2 y1 y2 x y rfl
    exact bqProcess_holding _ _ x
  have hp0 : fmul 0x3B96DD24 0x3F000000 = 0x3B16DD24 := by decide +kernel
  have hp1 : fmul 0x3C16DD24 0x00000000 = 0x00000000 := by decide +kernel
  have hp2 : fmul 0x3B96DD24 0x3F800000 = 0x3B96DD24 := by decide +kernel
  have hp3 : fmul 0xBFE648CC 0x3C8F495C = 0xBD00E4A7 := by decide +kernel
  have hp4 : fmul 0x3F514880 0x3B96DD24 = 0x3B76AA88 := by decide +kernel
  have hs1 : fadd 0x3B16DD24 0x00000000 = 0x3B16DD24 := by decide +kernel
  have hs2 : fadd 0x3B16DD24 0x3B96DD24 = 0x3BE24BB6 := by decide +kernel
  have hs3 : fsub 0x3BE24BB6 0xBD00E4A7 = 0x3D1D2E1E := by decide +kernel
  have hy : fsub 0x3D1D2E1E 0x3B76AA88 = 0x3D0DC376 := by decide +kernel
  exact ⟨hrec, hp0, hp1, hp2, hp3, hp4, hs1, hs2, hs3, hy,
    hrec _ _ _ _ _ _ _ _ _ _ _ (by rw [hp0, hp1, hp2, hp3, hp4, hs1, hs2, hs3, hy])⟩

/-- Settles O40: the first call leaves a filter that holds the shifted delay line, from which the second runs. -/
theorem twoCallsFollowTheUpdateOrder : Obligations.TwoCallsFollowTheUpdateOrder := by
  intro c x1 x2 y1 y2 x x' y y' f f' h h'
  rw [bqProcess_holding] at h
  cases h
  rw [bqProcess_holding] at h'
  cases h'
  exact ⟨rfl, rfl, rfl, rfl⟩

/-! ## From one product to the output, and from one sample to a list -/

/-- A property that a sum and a difference take over from either operand goes from each product to the output. -/
theorem bqOutput_of_absorbing {P : Word → Prop} (hadd : ∀ {a b}, P a ∨ P b → P (fadd a b))
    (hsub : ∀ {a b}, P a ∨ P b → P (fsub a b)) {c : Coeffs} {d : Delay} {x : Word}
    (h : P (fmul c.a0 x) ∨ P (fmul c.a1 d.x1) ∨ P (fmul c.a2 d.x2) ∨ P (fmul c.b1 d.y1) ∨ P (fmul c.b2 d.y2)) :
    P (bqOutput c d x) := by
  rcases h with h | h | h | h | h
  · exact hsub (.inl (hsub (.inl (hadd (.inl (hadd (.inl h)))))))
  · exact hsub (.inl (hsub (.inl (hadd (.inl (hadd (.inr h)))))))
  · exact hsub (.inl (hsub (.inl (hadd (.inr h)))))
  · exact hsub (.inl (hsub (.inr h)))
  · exact hsub (.inr h)

/-- What one sample establishes for the output and keeps for the delay line holds of the outputs for a list. -/
theorem forall_filterOutputs {c : Coeffs} {D : Delay → Prop} {X Y : Word → Prop}
    (hstep : ∀ {d x}, D d → X x → Y (bqOutput c d x) ∧ D (nextDelay c d x)) {d : Delay} {xs : List Word}
    (hd : D d) (hxs : ∀ x ∈ xs, X x) : ∀ y ∈ filterOutputs c d xs, Y y := by
  induction xs generalizing d with
  | nil => exact List.forall_mem_nil _
  | cons x xs ih =>
    obtain ⟨hx, hxs⟩ := List.forall_mem_cons.1 hxs
    obtain ⟨hy, hd'⟩ := hstep hd hx
    exact List.forall_mem_cons.2 ⟨hy, ih hd' hxs⟩

/-! ## Infinities and NaNs (R98) -/

theorem isInf_of_not_finite {w : Word} (hn : isNaN w = false) (hf : isFinite w = false) : isInf w = true := by
  simpa [hn, hf] using class_cases w

@[simp] theorem isFinite_infOf (s : Bool) : isFinite (infOf s) = false := by cases s <;> decide

@[simp] theorem isFinite_nanResult (op : FloatOp) (a b : Word) : isFinite (nanResult op a b) = false := by
  rw [← Bool.not_eq_true]
  intro hf
  simpa using class_of_isFinite hf

section
variable {a b : Word}

theorem isFinite_fadd_of_operand (h : isFinite a = false ∨ isFinite b = false) : isFinite (fadd a b) = false := by
  by_cases hn : isNaN a = true ∨ isNaN b = true
  · rw [fadd_nan a b hn, isFinite_nanResult]
  · simp only [not_or, Bool.not_eq_true] at hn
    obtain ⟨hna, hnb⟩ := hn
    cases haf : isFinite a with
    | true =>
      have hbf : isFinite b = false := by simpa [haf] using h
      rw [fadd_inf_right haf (isInf_of_not_finite hnb hbf), hbf]
    | false =>
      have hai := isInf_of_not_finite hna haf
      cases hbf : isFinite b with
      | true => rw [fadd_inf_left hai hbf, haf]
      | false =>
        rw [fadd_inf_inf hai (isInf_of_not_finite hnb hbf)]
        split
        · exact haf
        · exact isFinite_nanResult _ _ _

theorem isFinite_fsub_of_operand (h : isFinite a = false ∨ isFinite b = false) : isFinite (fsub a b) = false := by
  by_cases hn : isNaN a = true ∨ isNaN b = true
  · rw [fsub_nan hn, isFinite_nanResult]
  · simp only [not_or, Bool.not_eq_true] at hn
    obtain ⟨hna, hnb⟩ := hn
    obtain ⟨-, -, -, hf⟩ := fneg_class b
    rw [fsub_eq_fadd hna hnb]
    exact isFinite_fadd_of_operand (h.imp_right hf.trans)

theorem isFinite_fmul_of_right (h : isFinite b = false) : isFinite (fmul a b) = false := by
  by_cases hn : isNaN a = true ∨ isNaN b = true
  · rw [fmul_nan hn, isFinite_nanResult]
  · simp only [not_or, Bool.not_eq_true] at hn
    obtain ⟨hna, hnb⟩ := hn
    have hi := isInf_of_not_finite hnb h
    cases hz : isZero a with
    | true => rw [fmul_invalid (.inr ⟨hz, hi⟩), isFinite_nanResult]
    | false => rw [fmul_inf_right hi hna hz, isFinite_infOf]

theorem isNaN_fadd_of_operand (h : isNaN a = true ∨ isNaN b = true) : isNaN (fadd a b) = true := by
  rw [fadd_nan a b h, isNaN_nanResult]

theorem isNaN_fsub_of_operand (h : isNaN a = true ∨ isNaN b = true) : isNaN (fsub a b) = true := by
  rw [fsub_nan h, isNaN_nanResult]

theorem isNaN_fmul_of_operand (h : isNaN a = true ∨ isNaN b = true) : isNaN (fmul a b) = true := by
  rw [fmul_nan h, isNaN_nanResult]

/-- A product of an infinity or a NaN with a zero is a NaN (R68). -/
theorem isNaN_fmul_zero (ha : isFinite a = false) (hb : isZero b = true) : isNaN (fmul a b) = true := by
  cases hn : isNaN a with
  | true => exact isNaN_fmul_of_operand (.inl hn)
  | false => rw [fmul_invalid (.inl ⟨isInf_of_not_finite hn ha, hb⟩), isNaN_nanResult]

end

section
variable {c : Coeffs} {d : Delay} {x : Word}

/-- An output is not finite where a product is not. -/
theorem isFinite_bqOutput_of_product
    (h : isFinite (fmul c.a0 x) = false ∨ isFinite (fmul c.a1 d.x1) = false ∨ isFinite (fmul c.a2 d.x2) = false ∨
      isFinite (fmul c.b1 d.y1) = false ∨ isFinite (fmul c.b2 d.y2) = false) : isFinite (bqOutput c d x) = false :=
  bqOutput_of_absorbing (P := (isFinite · = false)) isFinite_fadd_of_operand isFinite_fsub_of_operand h

/-- An output is a NaN where a product is. -/
theorem isNaN_bqOutput_of_product
    (h : isNaN (fmul c.a0 x) = true ∨ isNaN (fmul c.a1 d.x1) = true ∨ isNaN (fmul c.a2 d.x2) = true ∨
      isNaN (fmul c.b1 d.y1) = true ∨ isNaN (fmul c.b2 d.y2) = true) : isNaN (bqOutput c d x) = true :=
  bqOutput_of_absorbing (P := (isNaN · = true)) isNaN_fadd_of_operand isNaN_fsub_of_operand h

/-- A property that every output takes over from `Y1` stays, the output being the next `Y1`. -/
theorem filterOutputs_of_feedback {P : Word → Prop} {xs : List Word}
    (hfeed : ∀ {d x}, P d.y1 → P (bqOutput c d x)) (hd : P d.y1) : ∀ y ∈ filterOutputs c d xs, P y :=
  forall_filterOutputs (D := (P ·.y1)) (X := fun _ => True) (fun hd _ => ⟨hfeed hd, hfeed hd⟩) hd (fun _ _ => trivial)

/-- An infinity or a NaN in `Y1` stays there, through the product with `B1`. -/
theorem isFinite_filterOutputs_of_y1 {xs : List Word} :
    isFinite d.y1 = false → ∀ y ∈ filterOutputs c d xs, isFinite y = false :=
  filterOutputs_of_feedback (P := (isFinite · = false)) fun h =>
    isFinite_bqOutput_of_product (.inr (.inr (.inr (.inl (isFinite_fmul_of_right h)))))

/-- A NaN in `Y1` stays a NaN there. -/
theorem isNaN_filterOutputs_of_y1 {xs : List Word} :
    isNaN d.y1 = true → ∀ y ∈ filterOutputs c d xs, isNaN y = true :=
  filterOutputs_of_feedback (P := (isNaN · = true)) fun h =>
    isNaN_bqOutput_of_product (.inr (.inr (.inr (.inl (isNaN_fmul_of_operand (.inr h))))))

end

/-- Settles O41: a sample reaches the output through the product with `A0`, and the output is the next `Y1`. -/
theorem nonFiniteOutputsPersist : Obligations.NonFiniteOutputsPersist := by
  refine ⟨fun c d xs => isFinite_filterOutputs_of_y1, fun c d x xs hx => ?_, fun c d x xs hx => ?_⟩
  · have hy : isFinite (bqOutput c d x) = false := isFinite_bqOutput_of_product (.inl (isFinite_fmul_of_right hx))
    exact List.forall_mem_cons.2 ⟨hy, isFinite_filterOutputs_of_y1 hy⟩
  · have hy : isNaN (bqOutput c d x) = true := isNaN_bqOutput_of_product (.inl (isNaN_fmul_of_operand (.inr hx)))
    exact List.forall_mem_cons.2 ⟨hy, isNaN_filterOutputs_of_y1 hy⟩

/-! ## Zeros (R99) -/

section
variable {a b : Word}

theorem isZero_fneg : isZero (fneg b) = isZero b := (fneg_class b).2.2.1

theorem isZero_fadd (ha : isZero a = true) (hb : isZero b = true) : isZero (fadd a b) = true := by
  rw [fadd_zero_zero ha hb]
  split
  · exact ha
  · decide

theorem fsub_zero_eq_fadd (ha : isNaN a = false) (hb : isZero b = true) : fsub a b = fadd a (fneg b) :=
  fsub_eq_fadd ha (class_of_isFinite (isFinite_of_isZero hb)).1

theorem isZero_fsub (ha : isZero a = true) (hb : isZero b = true) : isZero (fsub a b) = true := by
  rw [fsub_zero_eq_fadd (class_of_isFinite (isFinite_of_isZero ha)).1 hb]
  exact isZero_fadd ha (isZero_fneg.trans hb)

theorem isZero_fmul (ha : isFinite a = true) (hb : isZero b = true) : isZero (fmul a b) = true := by
  rw [fmul_zero_right hb ha, isZero_zeroOf]

/-- +0 plus a zero of either sign is +0 (R66). -/
theorem fadd_PZERO_zero (hb : isZero b = true) : fadd PZERO b = PZERO := by
  rw [fadd_zero_zero (by decide) hb, ite_self]

theorem fsub_PZERO_zero (hb : isZero b = true) : fsub PZERO b = PZERO := by
  rw [fsub_zero_eq_fadd (by decide) hb, fadd_PZERO_zero (isZero_fneg.trans hb)]

end

/-- All four delay-line registers are zeros, of either sign. -/
structure Delay.Silent (d : Delay) : Prop where
  x1 : isZero d.x1 = true
  x2 : isZero d.x2 = true
  y1 : isZero d.y1 = true
  y2 : isZero d.y2 = true

/-- All five coefficients are finite. -/
structure Coeffs.Finite (c : Coeffs) : Prop where
  a0 : isFinite c.a0 = true
  a1 : isFinite c.a1 = true
  a2 : isFinite c.a2 = true
  b1 : isFinite c.b1 = true
  b2 : isFinite c.b2 = true

section
variable {c : Coeffs} {d : Delay} {x : Word}

/-- With zeros in and zeros in the delay line all five products are zeros. -/
theorem isZero_bqOutput (hc : c.Finite) (hd : d.Silent) (hx : isZero x = true) : isZero (bqOutput c d x) = true :=
  isZero_fsub (isZero_fsub (isZero_fadd (isZero_fadd (isZero_fmul hc.a0 hx) (isZero_fmul hc.a1 hd.x1))
    (isZero_fmul hc.a2 hd.x2)) (isZero_fmul hc.b1 hd.y1)) (isZero_fmul hc.b2 hd.y2)

theorem silent_nextDelay (hc : c.Finite) (hd : d.Silent) (hx : isZero x = true) : (nextDelay c d x).Silent :=
  ⟨hx, hd.x1, isZero_bqOutput hc hd hx, hd.y1⟩

/-- Where the first product is +0 the sums and differences with the other zeros leave it +0. -/
theorem bqOutput_PZERO (hc : c.Finite) (hd : d.Silent) (hs : signBit c.a0 = false) :
    bqOutput c d PZERO = PZERO := by
  have h0 : fmul c.a0 PZERO = PZERO := by
    rw [fmul_zero_right (by decide) hc.a0, signXor, hs]
    rfl
  rw [bqOutput, h0, fadd_PZERO_zero (isZero_fmul hc.a1 hd.x1), fadd_PZERO_zero (isZero_fmul hc.a2 hd.x2),
    fsub_PZERO_zero (isZero_fmul hc.b1 hd.y1), fsub_PZERO_zero (isZero_fmul hc.b2 hd.y2)]

end

/-- Settles O42: all five products are zeros, or one of them is an infinity or a NaN times a zero. -/
theorem silenceIsPreserved : Obligations.SilenceIsPreserved := by
  refine ⟨fun c d ha0 ha1 ha2 hb1 hb2 hx1 hx2 hy1 hy2 => ?_, fun c d x hx hx1 hx2 hy1 hy2 h => ?_,
    fun c d x ha0 hx => ?_⟩
  · have hc : c.Finite := ⟨ha0, ha1, ha2, hb1, hb2⟩
    have hd : d.Silent := ⟨hx1, hx2, hy1, hy2⟩
    refine ⟨fun x hx => ⟨isZero_bqOutput hc hd hx, ?_, ?_⟩, fun xs hxs => ?_⟩
    · obtain ⟨hx1', hx2', hy1', hy2'⟩ := silent_nextDelay hc hd hx
      exact ⟨hx1', hx2', hy1', hy2'⟩
    · rintro hs rfl
      exact bqOutput_PZERO hc hd hs
    · exact forall_filterOutputs (D := Delay.Silent) (X := (isZero · = true))
        (fun hd hx => ⟨isZero_bqOutput hc hd hx, silent_nextDelay hc hd hx⟩) hd hxs
  · refine isNaN_bqOutput_of_product ?_
    exact h.imp (isNaN_fmul_zero · hx) (.imp (isNaN_fmul_zero · hx1) (.imp (isNaN_fmul_zero · hx2)
      (.imp (isNaN_fmul_zero · hy1) (isNaN_fmul_zero · hy2))))
  · exact isNaN_bqOutput_of_product (.inl (by rw [fmul_invalid (.inl ⟨ha0, hx⟩), isNaN_nanResult]))

/-! ## The impulse response (R100) -/

section
variable {a b z : Word}

/-- Subtracting a zero leaves a word that is no zero (R80 E3). -/
theorem fsub_zero_right (ha : isNaN a = false) (haz : isZero a = false) (hz : isZero z = true) : fsub a z = a := by
  rw [fsub_zero_eq_fadd ha hz, fadd_zero_right ha haz (isZero_fneg.trans hz)]

theorem fadd_zero_left (ha : isNaN a = false) (haz : isZero a = false) (hz : isZero z = true) : fadd z a = a := by
  have h := fadd_zero_right ha haz hz
  rw [← fadd_comm (by rw [h, ha]), h]

theorem isNaN_fmul_finite (ha : isFinite a = true) (hb : isFinite b = true) : isNaN (fmul a b) = false := by
  cases hza : isZero a with
  | true => rw [fmul_zero_left hza hb, isNaN_zeroOf]
  | false =>
    cases hzb : isZero b with
    | true => rw [fmul_zero_right hzb ha, isNaN_zeroOf]
    | false => rw [fmul_finite ha hza hb hzb, isNaN_rn32]

/-- A sum is a NaN only where an operand is one or both are infinities (R66). -/
theorem isNaN_fadd_finite_left (ha : isFinite a = true) (hb : isNaN b = false) : isNaN (fadd a b) = false := by
  cases hbf : isFinite b with
  | false => rw [fadd_inf_right ha (isInf_of_not_finite hb hbf), hb]
  | true =>
    by_cases hz : isZero a = true ∧ isZero b = true
    · exact (class_of_isFinite (isFinite_of_isZero (isZero_fadd hz.1 hz.2))).1
    · rw [fadd_finite ha hbf hz, isNaN_rn32]

theorem isNaN_fsub_finite_left (ha : isFinite a = true) (hb : isNaN b = false) : isNaN (fsub a b) = false := by
  rw [fsub_eq_fadd (class_of_isFinite ha).1 hb]
  exact isNaN_fadd_finite_left ha ((fneg_class b).1.trans hb)

end

section
variable {c : Coeffs} {d : Delay} {x : Word} (hc : c.Finite)
include hc

/-- The output for a unit sample on silence: only the first product is no zero. -/
theorem bqOutput_ONE (hd : d.Silent) (ha0 : isZero c.a0 = false) : bqOutput c d ONE = c.a0 := by
  have hn := (class_of_isFinite hc.a0).1
  rw [bqOutput, fmul_ONE hn, fadd_zero_right hn ha0 (isZero_fmul hc.a1 hd.x1),
    fadd_zero_right hn ha0 (isZero_fmul hc.a2 hd.x2), fsub_zero_right hn ha0 (isZero_fmul hc.b1 hd.y1),
    fsub_zero_right hn ha0 (isZero_fmul hc.b2 hd.y2)]

/-- The output one sample after a unit sample: the products with `A1` and `B1` alone remain. -/
theorem bqOutput_of_x1_ONE {y1 : Word} (hx : isZero x = true) (hx1 : d.x1 = ONE) (hx2 : isZero d.x2 = true)
    (hy1 : isFinite d.y1 = true) (hy2 : isZero d.y2 = true) (ha1 : isZero c.a1 = false)
    (hy : y1 = fsub c.a1 (fmul c.b1 d.y1)) (hyz : isZero y1 = false) : bqOutput c d x = y1 := by
  have hn := (class_of_isFinite hc.a1).1
  have hyn : isNaN y1 = false := hy ▸ isNaN_fsub_finite_left hc.a1 (isNaN_fmul_finite hc.b1 hy1)
  rw [bqOutput, hx1, fmul_ONE hn, fadd_zero_left hn ha1 (isZero_fmul hc.a0 hx),
    fadd_zero_right hn ha1 (isZero_fmul hc.a2 hx2), ← hy, fsub_zero_right hyn hyz (isZero_fmul hc.b2 hy2)]

/-- The output two samples after a unit sample: the products with `A2`, `B1` and `B2` alone remain. -/
theorem bqOutput_of_x2_ONE (hx : isZero x = true) (hx1 : isZero d.x1 = true) (hx2 : d.x2 = ONE)
    (ha2 : isZero c.a2 = false) :
    bqOutput c d x = fsub (fsub c.a2 (fmul c.b1 d.y1)) (fmul c.b2 d.y2) := by
  have hn := (class_of_isFinite hc.a2).1
  rw [bqOutput, hx2, fmul_ONE hn,
    fadd_zero_left hn ha2 (isZero_fadd (isZero_fmul hc.a0 hx) (isZero_fmul hc.a1 hx1))]

end

/-- Settles O43: the three outputs by the place of the unit sample, and the two coefficient sets evaluated. -/
theorem impulseResponseIsTheCoefficients : Obligations.ImpulseResponseIsTheCoefficients := by
  refine ⟨fun c y1 y2 ha0 ha1 ha2 hb1 hb2 hz0 hz1 hz2 hy1 hyz hy2 => ?_, by decide +kernel, by decide +kernel⟩
  have hc : c.Finite := ⟨ha0, ha1, ha2, hb1, hb2⟩
  have hzero : isZero PZERO = true := by decide
  have h0 : bqOutput c Delay.zero ONE = c.a0 := bqOutput_ONE hc ⟨hzero, hzero, hzero, hzero⟩ hz0
  have h1 : bqOutput c ⟨ONE, PZERO, c.a0, PZERO⟩ PZERO = y1 :=
    bqOutput_of_x1_ONE hc hzero rfl hzero ha0 hzero hz1 hy1 hyz
  have h2 : bqOutput c ⟨PZERO, ONE, y1, c.a0⟩ PZERO = y2 :=
    (bqOutput_of_x2_ONE hc hzero hzero rfl hz2).trans hy2.symm
  calc filterOutputs c Delay.zero [ONE, PZERO, PZERO]
      = c.a0 :: filterOutputs c ⟨ONE, PZERO, c.a0, PZERO⟩ [PZERO, PZERO] := by rw [filterOutputs, nextDelay, h0]; rfl
    _ = c.a0 :: y1 :: filterOutputs c ⟨PZERO, ONE, y1, c.a0⟩ [PZERO] := by rw [filterOutputs, nextDelay, h1]
    _ = [c.a0, y1, y2] := by rw [filterOutputs, h2, filterOutputs]

end Sys2Proof.Machine
end

section
/-! SUPPORT. The mixdown (R101): a sum and its halving, so its NaNs and its symmetry are those of the sum. -/

namespace Sys2Proof.Machine

variable {a b : Word}

/-- The halving of a NaN is a NaN (R69). -/
theorem isNaN_mixf_of_fadd (h : isNaN (fadd a b) = true) : isNaN (mixf a b) = true := by
  rw [mixf, fdiv_nan (.inl h), isNaN_nanResult]

theorem isNaN_mixf_of_operand (h : isNaN a = true ∨ isNaN b = true) : isNaN (mixf a b) = true :=
  isNaN_mixf_of_fadd (isNaN_fadd_of_operand h)

/-- Infinities of opposite sign have no sum, so no mean either (R66, R101 e). -/
theorem isNaN_mixf_of_opposite_inf (ha : isInf a = true) (hb : isInf b = true) (hs : signBit a ≠ signBit b) :
    isNaN (mixf a b) = true :=
  isNaN_mixf_of_fadd (by rw [fadd_inf_inf ha hb, if_neg hs, isNaN_nanResult])

theorem mixf_comm (h : isNaN (mixf a b) = false) : mixf a b = mixf b a := by
  have hsum : isNaN (fadd a b) = false := Bool.eq_false_iff.2 fun hn => by simp [isNaN_mixf_of_fadd hn] at h
  rw [mixf, fadd_comm hsum, mixf]

/-- Settles O53: symmetry and NaN results come from the sum; the corner cases that the rule prints as words are
evaluated. -/
theorem mixdownIsSymmetric : Obligations.MixdownIsSymmetric := by
  have hopposite : isNaN (mixf 0x7F800000 0xFF800000) = true :=
    isNaN_mixf_of_opposite_inf (by decide) (by decide) (by decide)
  refine ⟨fun a b => mixf_comm, fun a b => isNaN_mixf_of_operand, ?_, ?_, ?_, ?_, ?_, ?_, ?_, ?_, hopposite, ?_⟩
  all_goals decide +kernel

end Sys2Proof.Machine
end

section
/-! SUPPORT. The statements of 44_audio_crossover_engine.md. The commands that run no frame are read off
`State.settle`. A `PBUF` is compared frame by frame, with as many `PFRM`s and with a `PBUF` that starts later: each
channel's output sample of a frame is that of its filter after the frames before it. -/

namespace Sys2Proof.Machine

/-! ## Commands that run no frame (R107, R110, R111) -/

/-- The next state of a `SETUP` outside Running: one or the other of two loads of the registers (R107). -/
theorem exec_setup {fc fs : Word} {s : State} (he : s.engine ≠ .running) : exec (.setup fc fs) s =
    if validFreq fc fs then
      .next (respondOk Lanes.zero
        (((s.setLp (bqInit (calcLp fc fs))).setHp (bqInit (calcHp fc fs))).setEngine .ready))
    else .next (raiseStatus .invalidFrequency (resetEngine s)) := if_neg he

/-- Settles O12: `BQ_INIT` puts the two sets of coefficients beside delay lines of zeros. -/
theorem setupLoadsCoefficientsAndClearsDelayLines : Obligations.SetupLoadsCoefficientsAndClearsDelayLines := by
  intro fc fs s he hv
  rw [exec_setup he, if_pos hv]
  rfl

/-- Settles O13: a failed check has the effect of reset. -/
theorem setupWithInvalidFrequencyUnsetsTheEngine : Obligations.SetupWithInvalidFrequencyUnsetsTheEngine := by
  intro fc fs s he hv
  rw [exec_setup he, if_neg (Bool.eq_false_iff.1 hv), raiseStatus, resetEngine_engine]
  rfl

/-- Settles O20: outside Uninitialized the cell of `STOP` is Stopped and `OK`. -/
theorem stopWritesTheStateOnly : Obligations.StopWritesTheStateOnly := by
  intro s he
  rw [exec_of_not_runs (EngineState.not_runs_of_ne (by simp) (by simp) _), State.settle, transition_stop he]
  rfl

/-- Settles O21: both commands are `respondOk` of the state as it stands. -/
theorem statAndMixOnlyAnswer : Obligations.StatAndMixOnlyAnswer := ⟨fun _ => rfl, fun _ _ _ => rfl⟩

/-! ## One frame, and the transition table (R103, R105, R108) -/

/-- Settles O15: the case of `execPfrm_eq_next` in which both filters hold words. -/
theorem pfrmProcessesOneFrame : Obligations.PfrmProcessesOneFrame := fun _ _ _ cl ch dl dh he hl hh =>
  execPfrm_eq_next.2 (.inr ⟨he, cl, dl, ch, dh, hl, hh, rfl⟩)

/-- The cell of a command that runs frames (R103). -/
theorem transition_of_runs {e : EngineState} {i : Instr} (h : e.Runs i) : transition i e = (.running, .ok) := by
  obtain ⟨rfl | rfl, ⟨l, r, rfl⟩ | ⟨n, rfl⟩⟩ := h <;> rfl

/-- Settles O23: a command that runs frames enters Running with `OK`; every other one is `State.settle`, which takes
its cell from the table. -/
theorem everyCommandFollowsTheTransitionTable : Obligations.EveryCommandFollowsTheTransitionTable := by
  intro i s t h
  by_cases hrun : s.engine.Runs i
  · rw [transition_of_runs hrun]
    obtain ⟨he, -, -⟩ := exec_of_runs hrun h
    exact ⟨he, _, exec_responses_of_runs hrun h, codeField_responseOf _ _ _⟩
  · rw [exec_of_not_runs hrun] at h
    cases h
    exact ⟨rfl, _, s.settle_responses i, codeField_responseOf _ _ _⟩

/-! ## A buffer of frames (R109) -/

/-- Settles O16: the state that `State.Processed` describes, with the response of the command. -/
theorem pbufProcessesEveryFrameOfItsBuffer : Obligations.PbufProcessesEveryFrameOfItsBuffer := by
  intro n s cl ch dl dh he hl hh hn
  have h := execPbuf_holding (n := n) he hl hh
  rw [if_pos hn] at h
  obtain ⟨u, hu, hp⟩ := h
  refine ⟨_, hu, hp.engine, hp.lp, hp.hp, hp.frameIdx.trans (by simp), ?_, hp.frames, hp.inPlace, hp.run⟩
  rw [respondOk_responses, hp.responses, hp.engine, State.setFrameIdx_engine, State.setEngine_engine]
  rfl

/-- The filter whose output goes to a channel, the low one to channel 0 and the high one to channel 1 (R35). -/
def State.filterOf (s : State) (c : Nat) : Filter := if c = 0 then s.lp else s.hp

/-- The output sample of a channel for a frame of the input buffer: that of its filter after the frames before it. -/
def State.sampleAt (s : State) (c i : Nat) : Word := ((s.filterOf c).after (s.monos i)).output (s.mono i)

theorem State.filterOf_congr {s t : State} (hl : s.lp = t.lp) (hh : s.hp = t.hp) (c : Nat) :
    s.filterOf c = t.filterOf c := by rw [State.filterOf, hl, hh, State.filterOf]

theorem Filter.after_append (f : Filter) (xs ys : List Word) : f.after (xs ++ ys) = (f.after xs).after ys :=
  List.foldl_append

/-- A `PBUF` advances the filter of either channel by the mixed samples of its frames. -/
theorem State.Buffered.filterOf {s t : State} {n : FrameIndex} (h : s.Buffered n t) (c : Nat) :
    t.filterOf c = (s.filterOf c).after (s.monos n.toNat) := by
  unfold State.filterOf
  split
  · exact h.lp
  · exact h.hp

/-- The output samples that a `PBUF` leaves (R35, R105). -/
theorem State.Buffered.output_get {s t : State} {n : FrameIndex} (h : s.Buffered n t) {i c : Nat} (hi : i < n.toNat)
    (hc : c < 2) : t.output.get ⟨BitVec.ofNat 24 i, c⟩ = s.sampleAt c i := by
  have hidx : (BitVec.ofNat 24 i).toNat = i := Nat.mod_eq_of_lt (hi.trans n.isLt)
  have hlt : BitVec.ofNat 24 i < n := by rwa [BitVec.lt_def, hidx]
  obtain rfl | rfl : c = 0 ∨ c = 1 := by omega
  · rw [h.low, if_pos hlt, hidx]
    rfl
  · rw [h.high, if_pos hlt, hidx]
    rfl

/-! ## As many `PFRM`s (R109) -/

/-- One more command after a run of commands that ends. -/
theorem execAll_concat {is : List Instr} {i : Instr} {s u : State} (h : execAll is s = .next u) :
    execAll (is ++ [i]) s = exec i u := by
  induction is generalizing s with
  | nil =>
    cases h
    simp only [List.nil_append, execAll]
    cases exec i u <;> rfl
  | cons j js ih =>
    rw [execAll] at h
    rw [List.cons_append, execAll]
    split at h
    · exact ih h
    · cases h
    · cases h

/-- The response of the `PFRM` that processes a frame of the input buffer, the frames before it being processed. -/
def State.frameAnswer (s : State) (i : Nat) : Response :=
  responseOf .ok .running ⟨s.sampleAt 0 i, s.sampleAt 1 i, 0, 0, 0⟩

/-- `u` is the state after a `PFRM` for each of the first `n` frames of the input buffer of `s` (R105, R108). -/
structure State.FramedBy (s : State) (n : Nat) (u : State) : Prop where
  runs : u.engine = .ready ∨ u.engine = .running
  engine : n ≠ 0 → u.engine = .running
  lp : u.lp = s.lp.after (s.monos n)
  hp : u.hp = s.hp.after (s.monos n)
  responses : u.responses = s.responses ++ (List.range n).map s.frameAnswer

/-- One more frame. -/
theorem State.FramedBy.succ {s u : State} {n : Nat} {cl ch : Coeffs} {dl dh : Delay}
    (hl : s.lp = Filter.holding cl dl) (hh : s.hp = Filter.holding ch dh) (h : s.FramedBy n u) :
    ∃ v, exec (.pfrm (s.inputFrame n).1 (s.inputFrame n).2) u = .next v ∧ s.FramedBy (n + 1) v := by
  have hul := h.lp
  have huh := h.hp
  rw [hl, Filter.after_holding] at hul
  rw [hh, Filter.after_holding] at huh
  have hv := pfrmProcessesOneFrame (s.inputFrame n).1 (s.inputFrame n).2 u _ _ _ _ h.runs hul huh
  refine ⟨_, hv, ?_⟩
  rw [execPfrm_of_runs h.runs hv]
  exact {
    runs := .inr rfl
    engine := fun _ => rfl
    lp := by rw [State.monos_succ, Filter.after_append, ← h.lp]; rfl
    hp := by rw [State.monos_succ, Filter.after_append, ← h.hp]; rfl
    responses := by
      rw [List.range_succ, List.map_append, ← List.append_assoc, ← h.responses, h.lp, h.hp]
      rfl }

/-- A `PFRM` for each frame of the input buffer (R113). -/
theorem execAll_pfrms {s : State} {cl ch : Coeffs} {dl dh : Delay} (he : s.engine = .ready ∨ s.engine = .running)
    (hl : s.lp = Filter.holding cl dl) (hh : s.hp = Filter.holding ch dh) (n : Nat) :
    ∃ u, execAll ((s.inputFrames n).map fun p => .pfrm p.1 p.2) s = .next u ∧ s.FramedBy n u := by
  induction n with
  | zero => exact ⟨s, rfl, he, fun h => absurd rfl h, rfl, rfl, (List.append_nil _).symm⟩
  | succ n ih =>
    obtain ⟨u, hu, hf⟩ := ih
    obtain ⟨v, hv, hf'⟩ := hf.succ hl hh
    refine ⟨v, ?_, hf'⟩
    rw [State.inputFrames, List.range_succ, List.map_append, List.map_append]
    exact (execAll_concat hu).trans hv

/-- Settles O36: frame by frame both sides advance the same filters by the same mixed sample. -/
theorem pbufEqualsAsManyPfrms : Obligations.PbufEqualsAsManyPfrms := by
  intro n s t cl ch dl dh he hl hh ht
  have hb := execPbuf_of_runs he ht
  obtain ⟨u, hu, hf⟩ := execAll_pfrms he hl hh n.toNat
  refine ⟨u, hu, hf.lp.trans hb.lp.symm, hf.hp.trans hb.hp.symm, fun hn => ?_, ?_⟩
  · have hpos : n.toNat ≠ 0 := fun h0 => hn (BitVec.eq_of_toNat_eq h0)
    rw [hf.engine hpos, hb.engine]
  · rw [hf.responses]
    refine congrArg _ (List.map_congr_left fun i hi => ?_)
    have hi : i < n.toNat := List.mem_range.1 hi
    rw [hb.output_get hi (by decide), hb.output_get hi (by decide), State.frameAnswer]

/-! ## A stream cut in two (R115) -/

section
variable {s u : State} {n m : Nat}

/-- The mixed samples of a stream whose frames from `n` on stand in another buffer. -/
theorem State.monos_add (h : ∀ i < m, u.inputFrame i = s.inputFrame (n + i)) :
    s.monos (n + m) = s.monos n ++ u.monos m := by
  have hmono : ∀ i ∈ List.range m, u.mono i = s.mono (n + i) := fun i hi => by
    rw [State.mono, h i (List.mem_range.1 hi), State.mono]
  simp only [State.monos_eq, List.range_add, List.map_append, List.map_map, List.map_congr_left hmono]
  rfl

/-- The output samples of the later part, its filters being those that the earlier part leaves. -/
theorem State.sampleAt_add (h : ∀ i < m, u.inputFrame i = s.inputFrame (n + i)) {c i : Nat}
    (hf : u.filterOf c = (s.filterOf c).after (s.monos n)) (hi : i < m) :
    s.sampleAt c (n + i) = u.sampleAt c i := by
  have hm : s.monos (n + i) = s.monos n ++ u.monos i := State.monos_add fun j hj => h j (hj.trans hi)
  rw [State.sampleAt, hm, Filter.after_append, ← hf, State.mono, ← h i hi]
  rfl

end

/-- Settles O37: the frames of the whole stream are those of its first part, then those of its second. -/
theorem cuttingABufferInTwoChangesNothing : Obligations.CuttingABufferInTwoChangesNothing := by
  intro n m s t u w cl ch dl dh he hl hh hnm ht hw hue hul huh hm hin
  have hbt := execPbuf_of_runs he ht
  have hbw := execPbuf_of_runs he hw
  have hur : u.engine = .ready ∨ u.engine = .running := .inr (hue.trans hbt.engine)
  have hlu := hul.trans hbt.lp
  have hhu := huh.trans hbt.hp
  rw [hl, Filter.after_holding] at hlu
  rw [hh, Filter.after_holding] at hhu
  obtain ⟨v, hv, -⟩ := pbufProcessesEveryFrameOfItsBuffer m u cl ch _ _ hur hlu hhu hm
  have hbv := execPbuf_of_runs hur hv
  have hadd : (n + m).toNat = n.toNat + m.toNat := BitVec.toNat_add_of_lt hnm
  have huf : ∀ c, u.filterOf c = (s.filterOf c).after (s.monos n.toNat) := fun c =>
    (State.filterOf_congr hul huh c).trans (hbt.filterOf c)
  have hvw : ∀ c, v.filterOf c = w.filterOf c := fun c => by
    rw [hbv.filterOf, huf, hbw.filterOf, hadd, State.monos_add hin, Filter.after_append]
  refine ⟨v, hv, hbv.engine.trans hbw.engine.symm, hvw 0, hvw 1, fun i hi c hc => ?_, fun i hi c hc => ?_⟩
  · rw [hbw.output_get (by omega) hc, hbt.output_get hi hc]
  · rw [hbw.output_get (by omega) hc, hbv.output_get hi hc, State.sampleAt_add hin (huf c) hi]

end Sys2Proof.Machine
end

section
/-! SUPPORT. The statements of 60_exceptions.md. A command that ends with an error is forbidden in the state, or its
frequencies fail the check in `CLP` or `CHP`, or they fail it in `SETUP` (R117, R118); each of these three kinds has one
next state, and the statements are read off it. -/

namespace Sys2Proof.Machine

/-! ## What makes a command end with an error (R117, R118) -/

/-- The command is illegal in this state of the engine (R118). -/
def EngineState.Forbids (e : EngineState) (i : Instr) : Prop :=
  ((∃ fc fs, i = .setup fc fs) ∧ e = .running) ∨
  (((∃ l r, i = .pfrm l r) ∨ ∃ n, i = .pbuf n) ∧ (e = .uninitialized ∨ e = .stopped)) ∨
  (i = .stop ∧ e = .uninitialized)

theorem exec_of_forbids {i : Instr} {s : State} (h : s.engine.Forbids i) :
    exec i s = .next (raiseStatus .illegalState s) := by
  rcases h with ⟨⟨fc, fs, rfl⟩, he⟩ | ⟨⟨l, r, rfl⟩ | ⟨n, rfl⟩, he⟩ | ⟨rfl, he⟩ <;> exact if_pos he

/-- `PFRM` and `PBUF` end with an error only where they are forbidden (R103). -/
theorem EngineState.forbids_of_frame_command {e : EngineState} {i : Instr}
    (hi : (∃ l r, i = .pfrm l r) ∨ ∃ n, i = .pbuf n) (h : (transition i e).2 ≠ .ok) : e.Forbids i :=
  have hrun : ¬ e.Runs i := fun hrun => h (by rw [transition_of_runs hrun])
  .inr (.inl ⟨hi, EngineState.refuses_of_not_runs hrun hi⟩)

/-- The cells of R103 with a code other than `OK`. -/
theorem transition_error {i : Instr} {e : EngineState} (h : (transition i e).2 ≠ .ok) :
    e.Forbids i ∨ ∃ fc fs, validFreq fc fs = false ∧
      ((i = .clp fc fs ∨ i = .chp fc fs) ∨ (i = .setup fc fs ∧ e ≠ .running)) := by
  cases i with
  | rst | stat | mix => exact absurd rfl h
  | setup fc fs =>
    by_cases he : e = .running
    · exact .inl (.inl ⟨⟨fc, fs, rfl⟩, he⟩)
    · rw [transition_setup he] at h
      exact .inr ⟨fc, fs, Bool.eq_false_iff.2 fun hv => h (by rw [if_pos hv]), .inr ⟨rfl, he⟩⟩
  | pfrm l r => exact .inl (EngineState.forbids_of_frame_command (.inl ⟨l, r, rfl⟩) h)
  | pbuf n => exact .inl (EngineState.forbids_of_frame_command (.inr ⟨n, rfl⟩) h)
  | stop =>
    by_cases he : e = .uninitialized
    · exact .inl (.inr (.inr ⟨rfl, he⟩))
    · exact absurd (by rw [transition_stop he]) h
  | clp fc fs => exact .inr ⟨fc, fs, Bool.eq_false_iff.2 fun hv => h (if_pos hv), .inl (.inl rfl)⟩
  | chp fc fs => exact .inr ⟨fc, fs, Bool.eq_false_iff.2 fun hv => h (if_pos hv), .inl (.inr rfl)⟩

theorem exec_setup_of_invalid {fc fs : Word} {s : State} (he : s.engine ≠ .running) (hv : validFreq fc fs = false) :
    exec (.setup fc fs) s = .next (raiseStatus .invalidFrequency (resetEngine s)) :=
  (exec_setup he).trans (if_neg (Bool.eq_false_iff.1 hv))

theorem exec_calculator_of_invalid {i : Instr} {fc fs : Word} (hi : i = .clp fc fs ∨ i = .chp fc fs)
    (hv : validFreq fc fs = false) (s : State) : exec i s = .next (raiseStatus .invalidFrequency s) := by
  rcases hi with rfl | rfl <;> exact if_neg (Bool.eq_false_iff.1 hv)

/-- Every command that answers an error, with all that it does (R117, R118, R123). -/
theorem exec_eq_next_error {i : Instr} {s t : State} {r : Response} (h : exec i s = .next t)
    (hr : t.responses = s.responses ++ [r]) (hc : r.codeField ≠ Status.ok.code) :
    (s.engine.Forbids i ∧ t = raiseStatus .illegalState s) ∨
    (∃ fc fs, (i = .clp fc fs ∨ i = .chp fc fs) ∧ t = raiseStatus .invalidFrequency s) ∨
    (∃ fc fs, i = .setup fc fs ∧ t = raiseStatus .invalidFrequency (resetEngine s)) := by
  obtain ⟨-, q, hq, hcode⟩ := everyCommandFollowsTheTransitionTable i s t h
  have hrq : r = q := List.singleton_inj.1 (List.append_cancel_left (hr.symm.trans hq))
  rw [hrq, hcode, Ne, Status.code_inj] at hc
  have hnext : ∀ {u : State}, exec i s = .next u → t = u := fun hu => Host.Outcome.next.inj (h.symm.trans hu)
  rcases transition_error hc with hf | ⟨fc, fs, hv, hi | ⟨rfl, he⟩⟩
  · exact .inl ⟨hf, hnext (exec_of_forbids hf)⟩
  · exact .inr (.inl ⟨fc, fs, hi, hnext (exec_calculator_of_invalid hi hv s)⟩)
  · exact .inr (.inr ⟨fc, fs, rfl, hnext (exec_setup_of_invalid he hv)⟩)

theorem codeField_of_raiseStatus {c : Status} {s : State} {r : Response}
    (h : (raiseStatus c s).responses = s.responses ++ [r]) : r.codeField = c.code := by
  rw [raiseStatus_responses] at h
  rw [← List.singleton_inj.1 (List.append_cancel_left h), codeField_responseOf]

/-! ## The statements (R118, R119, R121, R123) -/

/-- Settles O14: of the three kinds of error only the forbidden commands answer `IllegalState`. -/
theorem illegalStateExactlyWhereTheStateRefuses : Obligations.IllegalStateExactlyWhereTheStateRefuses := by
  refine ⟨fun i s hf => exec_of_forbids hf, fun i s t r h hr hc => ?_⟩
  rcases exec_eq_next_error h hr (by rw [hc]; decide) with ⟨hf, -⟩ | ⟨fc, fs, -, rfl⟩ | ⟨fc, fs, -, rfl⟩
  · exact hf
  · exact absurd ((codeField_of_raiseStatus hr).symm.trans hc) (by decide)
  · exact absurd ((codeField_of_raiseStatus (s := resetEngine s) hr).symm.trans hc) (by decide)

/-- Settles O24: the decoder rejects the beat before `exec` sees it, and `SETUP` asks for the state first. -/
theorem checksReportTheFirstFailure : Obligations.ChecksReportTheFirstFailure := by
  refine fun s b rest hrun => ⟨fun hill => ?_, fun fc fs hdec hv => ⟨fun he => ?_, fun he => ?_⟩⟩
  · exact (step_command hrun).trans (acceptBeat_of_illegal (Bool.eq_false_iff.1 hill) _)
  · rw [step_command hrun, acceptBeat_of_ok hdec]
    exact exec_of_forbids (.inl ⟨⟨fc, fs, rfl⟩, he⟩)
  · rw [step_command hrun, acceptBeat_of_ok hdec]
    exact exec_setup_of_invalid he hv

theorem acceptBeat_of_error {b : Beat} {e : Illegal} (h : decode b = .error e) (s : State) :
    acceptBeat b s = .next (raiseStatus .illegalCommand s) := by
  rw [acceptBeat, h]

/-- Of the three kinds of error, a `SETUP` that answers `InvalidFrequency` can only be the last. -/
theorem failed_setup_of_invalidFrequency {i : Instr} {s t : State} {r : Response} (h : exec i s = .next t)
    (hr : t.responses = s.responses ++ [r])
    (hi : r.codeField = Status.invalidFrequency.code ∧ ∃ fc fs, i = .setup fc fs) :
    t = raiseStatus .invalidFrequency (resetEngine s) := by
  obtain ⟨hc, fc, fs, rfl⟩ := hi
  rcases exec_eq_next_error h hr (by rw [hc]; decide) with ⟨-, rfl⟩ | ⟨_, _, hi | hi, -⟩ | ⟨_, _, -, ht⟩
  · exact absurd ((codeField_of_raiseStatus hr).symm.trans hc) (by decide)
  · exact Instr.noConfusion hi
  · exact Instr.noConfusion hi
  · exact ht

/-- Every other command that answers an error is `raiseStatus` of the state as it stands. -/
theorem exec_eq_raiseStatus {i : Instr} {s t : State} {r : Response} (h : exec i s = .next t)
    (hr : t.responses = s.responses ++ [r]) (hc : r.codeField ≠ Status.ok.code)
    (hi : ¬ (r.codeField = Status.invalidFrequency.code ∧ ∃ fc fs, i = .setup fc fs)) :
    ∃ c, t = raiseStatus c s := by
  rcases exec_eq_next_error h hr hc with ⟨-, ht⟩ | ⟨_, _, -, ht⟩ | ⟨fc, fs, hs, rfl⟩
  · exact ⟨_, ht⟩
  · exact ⟨_, ht⟩
  · exact absurd ⟨codeField_of_raiseStatus (s := resetEngine s) hr, fc, fs, hs⟩ hi

/-- Settles O25: `raiseStatus` writes the response alone, and `resetEngine` the engine alone. -/
theorem errorsArePrecise : Obligations.ErrorsArePrecise := by
  refine ⟨fun i s t r h hr hc => ⟨fun hi => ?_, fun hi => ?_⟩, fun s b rest e hrun he => ?_⟩
  · have ht := failed_setup_of_invalidFrequency h hr hi
    rw [← hr, ht]
    rfl
  · obtain ⟨c, ht⟩ := exec_eq_raiseStatus h hr hc hi
    rw [← hr, ht]
    rfl
  · exact (step_command hrun).trans (acceptBeat_of_error he _)

end Sys2Proof.Machine
end

section
/-! SUPPORT. The statements of 70_reset_and_hazards.md. Where R30 holds, the filters hold words wherever frames run, so
the one way for a command to stop is a buffer without the frames it processes (R44). -/

namespace Sys2Proof.Machine

/-! ## Reset (R106, R128, R129) -/

/-- Settles O9: the reset input and `RST` are `resetEngine`, the latter with a response; an empty run is the waiting
block. -/
theorem resetUnsetsTheEngineAndNothingElse : Obligations.ResetUnsetsTheEngineAndNothingElse :=
  ⟨fun _ _ hrun => step_cons hrun, fun _ => rfl, fun _ hrun => step_nil hrun⟩

/-! ## Commands that end (R30, R44, R141) -/

/-- Outside Uninitialized both filters hold words (R30 b, c). -/
theorem State.Coherent.holding {s : State} (hc : s.Coherent) (he : s.engine ≠ .uninitialized) :
    ∃ cl dl ch dh, s.lp = Filter.holding cl dl ∧ s.hp = Filter.holding ch dh := by
  obtain ⟨fc, fs, frames, -, hl, hh⟩ := hc.reachedBy he
  exact ⟨_, _, _, _, hl, hh⟩

/-- What a command can do where R30 holds: it ends, or the buffers lack a frame that it processes (R44). -/
theorem State.Coherent.exec_cases {s : State} (hc : s.Coherent) (i : Instr) :
    (∃ t, Machine.exec i s = .next t) ∨ (¬ s.Launchable i ∧ Machine.exec i s = .fault .noInputSample) := by
  by_cases hrun : s.engine.Runs i
  · obtain ⟨he, hi⟩ := hrun
    obtain ⟨cl, dl, ch, dh, hl, hh⟩ := hc.holding fun hu => EngineState.not_refuses he (.inl hu)
    rcases hi with ⟨l, r, rfl⟩ | ⟨n, rfl⟩
    · exact .inl ⟨_, execPfrm_eq_next.2 (.inr ⟨he, cl, dl, ch, dh, hl, hh, rfl⟩)⟩
    · have h := execPbuf_holding (n := n) he hl hh
      by_cases hn : n.toNat ≤ s.frames
      · rw [if_pos hn] at h
        obtain ⟨t, ht, -⟩ := h
        exact .inl ⟨_, ht⟩
      · rw [if_neg hn] at h
        exact .inr ⟨hn, h⟩
  · exact .inl ⟨_, exec_of_not_runs hrun⟩

/-! ## Reads of `UNSET` registers (R20) -/

/-- Where R30 holds no command reads an `UNSET` register. -/
theorem State.Coherent.exec_ne_unsetRead {s : State} (hc : s.Coherent) (i : Instr) :
    Machine.exec i s ≠ .fault .unsetRead := by
  intro h
  rcases hc.exec_cases i with ⟨t, ht⟩ | ⟨-, hf⟩
  · cases ht.symm.trans h
  · cases hf.symm.trans h

/-- Only a command can read a register: the other events end (R31, R128). -/
theorem State.Coherent.acceptEvent_ne_unsetRead {s : State} (hc : s.Coherent) (e : HostEvent) :
    acceptEvent e s ≠ .fault .unsetRead := by
  intro h
  cases e with
  | resetPin => cases h
  | handOver frames inPlace input output => cases h
  | command b =>
    rcases acceptBeat_eq b s with ⟨i, -, hi⟩ | ⟨e, -, he⟩
    · exact hc.exec_ne_unsetRead i (hi.symm.trans h)
    · cases he.symm.trans h

theorem State.Coherent.step_ne_unsetRead {s : State} (hc : s.Coherent) : step s ≠ .fault .unsetRead := by
  cases hrun : s.run with
  | nil =>
    rw [step_nil hrun]
    intro h
    cases h
  | cons e rest =>
    rw [step_cons hrun]
    exact State.Coherent.acceptEvent_ne_unsetRead (s := s.setRun rest) hc e

/-- The per-frame function reads all eighteen registers (R95, R105). -/
theorem frame_of_unset {l r : Word} {s : State} (h : Reg.unset ∈ s.datapath) : frame l r s = .error .unsetRead := by
  rcases hf : frame l r s with e | ⟨low, high, t⟩
  · rw [frame_eq_error hf]
  · obtain ⟨cl, dl, ch, dh, hl, hh, -⟩ := frame_eq_ok.1 hf
    rw [State.datapath, hl, hh, List.mem_append] at h
    rcases h with h | h <;> exact absurd rfl (Filter.ne_unset_of_mem_holding h)

theorem exec_pfrm_of_frame_error {l r : Word} {s : State} {e : Fault} (he : s.engine = .ready ∨ s.engine = .running)
    (h : frame l r (s.setEngine .running) = .error e) : exec (.pfrm l r) s = .fault e := by
  rw [exec, execPfrm, if_neg (EngineState.not_refuses he), h]

/-- Settles O32: where R30 holds a command ends or lacks a frame, and `PFRM` reads every register. -/
theorem everyCommandEndsWithAResponse : Obligations.EveryCommandEndsWithAResponse := by
  refine ⟨fun i s ⟨hc, _⟩ hlaunch => ?_, fun s ⟨hc, _⟩ => hc.step_ne_unsetRead, fun l r s he hunset => ?_⟩
  · rcases hc.exec_cases i with ⟨t, ht⟩ | ⟨hn, -⟩
    · obtain ⟨c, lanes, hr, -⟩ := exec_responses ht
      exact ⟨t, _, ht, hr⟩
    · exact absurd hlaunch hn
  · exact exec_pfrm_of_frame_error he (frame_of_unset hunset)

end Sys2Proof.Machine
end

section
/-! SUPPORT. The statements of 20_memory.md about what the platform hands over. The content of a sample space built from
a list is said once, the list growing at its end, where the entry that counts stands. -/

namespace Sys2Proof.Machine

/-! ## The buffers of a hand-over (R32, R34, R46) -/

theorem Memory.ofList_concat (l : List (Addr × Word)) (p : Addr × Word) :
    Memory.ofList (l ++ [p]) = (Memory.ofList l).set p.1 p.2 := by
  simp [Memory.ofList]

/-- A sample space built from a list holds the last sample listed for an address, and +0 where none is. -/
theorem Memory.get_ofList (l : List (Addr × Word)) (a : Addr) :
    (Memory.ofList l).get a = ((l.reverse.find? fun e => e.1 = a).map Prod.snd).getD 0 := by
  induction l using List.reverseRecOn with
  | nil => rfl
  | append_singleton l p ih =>
    rw [Memory.ofList_concat, List.reverse_concat]
    by_cases h : p.1 = a
    · subst h
      simp
    · rw [Memory.get_set_ne _ _ h, ih, List.find?_cons_of_neg (by simpa using h)]

/-- Settles O11: the step is `State.takeBuffers`, and both sample spaces are built from a list. -/
theorem handOverPlacesTheSamplesOfBothBuffers : Obligations.HandOverPlacesTheSamplesOfBothBuffers :=
  fun s n p inp out rest hrun =>
    ⟨(s.setRun rest).takeBuffers n p inp out, step_cons hrun, rfl, Memory.get_ofList _, Memory.get_ofList _⟩

/-! ## A buffer that is too short (R44, U6) -/

/-- Settles O19: the first frame that the buffer lacks has no input sample to read. -/
theorem pbufBeyondTheBufferStops : Obligations.PbufBeyondTheBufferStops := by
  intro n s cl ch dl dh he hl hh hn
  have h := execPbuf_holding (n := n) he hl hh
  rwa [if_neg (Nat.not_le.2 hn)] at h

end Sys2Proof.Machine
end
